-- ==== Sys2Proof/Word.lean ====
section
/-! DEFINITION. The widths of the block's values (00_scope.md rules R8 and R10): every value is unsigned. -/

namespace Sys2Proof

/-- An unsigned 8-bit value: a register address, a PEC, a byte on the bus (rule R10's `u8`). -/
abbrev Byte := BitVec 8

/-- An unsigned 16-bit register word, "the unit of every read/write" (rule R8 `WORD_BITS`; rule R10's `u16`). -/
abbrev Word := BitVec 16

/-- A 7-bit device bus address (rule R8 `ADDR_BITS`). -/
abbrev BusAddr := BitVec 7

/-- A delay in milliseconds, 16 bits (rules R23 and R32). -/
abbrev Millis := BitVec 16

/-- The 32-bit host command word (30_encoding.md rule R81). -/
abbrev CmdWord := BitVec 32

end Sys2Proof
end

