-- ==== Sys2Proof/Config.lean ====
section
/-! DEFINITION. The implementation parameters of 00_scope.md rule R8. None of them changes while the block runs (rule R9).
`T_DEV_MIN_MS` is a launch premise of the device model and stands in `Machine.Device` (field `minMs`). -/

namespace Sys2Proof.Config

/-- `PEC_POLY`: the low eight coefficients of x^8 + x^2 + x + 1 (rule R8). -/
def pecPoly : Byte := 0x07#8

/-- `PEC_INIT` (rule R8). -/
def pecInit : Byte := 0x00#8

/-- `PEC_XOROUT`: no final XOR (rule R8). -/
def pecXorOut : Byte := 0x00#8

/-- `EEPROM_LO` (rules R8 and R51). -/
def eepromLo : Byte := 0x10#8

/-- `EEPROM_HI` (rules R8 and R51). -/
def eepromHi : Byte := 0x1F#8

/-- `RAM_LO` (rules R8 and R51). -/
def ramLo : Byte := 0x25#8

/-- `RAM_HI` (rules R8 and R51). -/
def ramHi : Byte := 0x27#8

/-- `READ_LEN`: two data bytes and one PEC byte (rule R8). -/
def readLen : Nat := 3

/-- The construction default of `BUS_ADDRESS` (rules R8 and R39). -/
def defaultBusAddress : Nat := 0x5B

/-- The largest legal `bus_address` construction argument (rule R22). -/
def maxBusAddress : Nat := 0x7F

/-- The construction default of `WRITE_TIME_MS` (rules R8, R23 and R39). -/
def defaultWriteTimeMs : Nat := 50

/-- The largest legal `write_time_ms` construction argument (rule R23). -/
def maxWriteTimeMs : Nat := 65535

/-- `MAX_PEC_LEN`: "no bound; any finite byte list, including the empty list" (rule R8, decision D18; DESIGN CHOICE,
log entry 22). -/
def maxPecLen : Option Nat := none

end Sys2Proof.Config
end

