-- ==== Sys2Proof/Syntax.lean ====
section
/-! DEFINITION. The five host commands (30_encoding.md rules R80 and R96), the record form of rule R80 and the two
host-side macros of rule R95. -/

namespace Sys2Proof

/-- A host command with exactly the operands its signature gives it, one constructor per row of the opcode table. -/
inductive Instr where
  /-- COMPUTE_PEC `[b0, …]` (40_pec.md rule R113). -/
  | computePec (data : List Byte)
  /-- VERIFY_PEC `[b0, …], rcv` (40_pec.md rule R114). -/
  | verifyPec (data : List Byte) (rcv : Byte)
  /-- READ_WORD `reg, pec=` (41_register_access.md rule R130). -/
  | readWord (reg : Byte) (checkPec : Bool)
  /-- WRITE_WORD `reg, val, pec=` (41_register_access.md rule R133). -/
  | writeWord (reg : Byte) (val : Word) (checkPec : Bool)
  /-- EEPROM_WRITE `reg, val, verify=` (42_eeprom_writer.md rule R160). -/
  | eepromWrite (reg : Byte) (val : Word) (verify : Bool)
  deriving DecidableEq, Repr

/-- The operation of a command (rule R80 `op`). -/
inductive Op where
  | computePec
  | verifyPec
  | readWord
  | writeWord
  | eepromWrite
  deriving DecidableEq, Repr

/-- The command record `{op, f, reg, rcv, val, data}` of rule R80, with a slot for every operand of every operation. -/
structure Command where
  op : Op
  f : Bool
  reg : Byte
  rcv : Byte
  val : Word
  data : List Byte
  deriving DecidableEq, Repr

/-- The operation a command performs. -/
def Instr.op : Instr → Op
  | .computePec _ => .computePec
  | .verifyPec _ _ => .verifyPec
  | .readWord _ _ => .readWord
  | .writeWord _ _ _ => .writeWord
  | .eepromWrite _ _ _ => .eepromWrite

/-- The record of rule R80, with the zeros of rule R81 in the slots the operation does not use. Zero in the unused one of `reg` and
`rcv`, which share a field of the word, is the model's (DESIGN CHOICE, log entry 34). -/
def Instr.toCommand : Instr → Command
  | .computePec data => ⟨.computePec, false, 0, 0, 0, data⟩
  | .verifyPec data rcv => ⟨.verifyPec, false, 0, rcv, 0, data⟩
  | .readWord reg chk => ⟨.readWord, chk, reg, 0, 0, []⟩
  | .writeWord reg val chk => ⟨.writeWord, chk, reg, 0, val, []⟩
  | .eepromWrite reg val verify => ⟨.eepromWrite, verify, reg, 0, val, []⟩

/-- The host macro READ_BLOCK (rule R95): sixteen READ_WORD commands in increasing address order (DEDUCED, log entry
28). -/
def readBlock (checkPec : Bool) : List Instr :=
  (List.range 16).map fun k => .readWord (BitVec.ofNat 8 (0x10 + k)) checkPec

/-- The first command of the host macro RMW_FIELD (rule R95). -/
def rmwRead (reg : Byte) : Instr := .readWord reg true

/-- The word RMW_FIELD writes: `(w & ~mask) | (bits & mask)` (rule R95). -/
def rmwMerge (w mask bits : Word) : Word := (w &&& ~~~mask) ||| (bits &&& mask)

/-- The second command of RMW_FIELD, given what the READ_WORD returned; `none` when that ended in an error: "the
EEPROM_WRITE is not issued if the READ_WORD ends in error" (rule R95). -/
def rmwWrite (reg : Byte) (mask bits : Word) (verify : Bool) (readValue : Option Word) : Option Instr :=
  readValue.map fun w => .eepromWrite reg (rmwMerge w mask bits) verify

end Sys2Proof
end

