-- ==== Sys2Proof/Machine/State.lean ====
section
/-! DEFINITION. The state of the block (10_state.md), the model bookkeeping of rule R38, the inputs its four agents act on
(60_exceptions.md rule R223), and the optional device environment model (20_memory.md section 7). All plain data. -/

namespace Sys2Proof.Machine

/-- The controller state `st` (rule R25). -/
inductive CtrlState where
  | idle
  | regAccess
  | erasing
  | awaitEraseDelay
  | writing
  | awaitWriteDelay
  | verifying
  | done
  | error
  deriving DecidableEq, Repr

/-- The configuration registers `CFG` (rules R22 and R23). -/
structure BlockConfig where
  /-- `CFG.bus_address : u7`. -/
  busAddress : BusAddr
  /-- `CFG.write_time_ms : u16`. -/
  writeTimeMs : Millis
  deriving DecidableEq, Repr

/-- What a transport error carries: opaque to the block, which never looks inside (rule R53, parameter P2; DESIGN CHOICE, log
entry 12). -/
structure TransportInfo where
  token : Nat
  deriving DecidableEq, Repr

/-- `BusErrorInfo` (rule R53): the transport's value, unchanged, or the one value the block makes itself. -/
inductive BusErrorInfo where
  | transport (e : TransportInfo)
  | shortRead
  deriving DecidableEq, Repr

/-- A bus request (rule R52). -/
inductive BusRequest where
  /-- `BusWrite(a, bs)`. -/
  | write (addr : BusAddr) (bytes : List Byte)
  /-- `BusWriteRead(a, bs, n)`. -/
  | writeRead (addr : BusAddr) (bytes : List Byte) (count : Nat)
  deriving DecidableEq, Repr

/-- The transport's answer (rule R53). `Ok` to a BusWrite is `ok []`; `Ok(rs)` to a BusWriteRead is `ok rs` (DESIGN
CHOICE, log entry 13). -/
inductive BusAnswer where
  | ok (bytes : List Byte)
  | busError (e : TransportInfo)
  deriving DecidableEq, Repr

/-- An event of the bus history (rule R54). -/
inductive BusEvent where
  | issue (q : BusRequest)
  | answer (q : BusRequest) (r : BusAnswer)
  | waitStart (ms : Millis)
  | waitEnd
  deriving DecidableEq, Repr

/-- The EEPROM write descriptor (rule R28). `prev` holds no value: "unused, erase always writes zero" (DEDUCED, log
entry 6). -/
structure EepromDescriptor where
  reg : Byte
  prev : Option Word
  newVal : Word
  delayMs : Millis
  verify : Bool
  deriving DecidableEq, Repr

/-- `ErrCode`, the value of `res.status` (rule R200). -/
inductive ErrCode where
  /-- Code 0. -/
  | ok
  /-- Code 1. -/
  | busError
  /-- Code 2. -/
  | pecMismatch
  /-- Code 3. -/
  | invalidRegister
  /-- Code 4. -/
  | eepromVerify
  /-- Code 5, reserved for the Value Codec; the block never writes it (rule R7). -/
  | outOfRangeValue
  /-- Code 6, reserved for the Sensor Facade; the block never writes it (rule R7). -/
  | precondition
  /-- Codes 7 to 255, code `7 + k`; never written (rule R200; 93_implementation_defined.md U23; DEDUCED, log entry 16). -/
  | reserved (k : Fin 249)
  deriving DecidableEq, Repr

/-- The result register `res` (rule R33). -/
structure Result where
  status : ErrCode
  value : Option Word
  pec : Option Byte
  /-- The field `match`. -/
  pecMatch : Option Bool
  failedState : Option CtrlState
  indeterminate : Bool
  busInfo : Option BusErrorInfo
  deriving DecidableEq, Repr

/-- The record of the last write cycle begun on an EEPROM word (rule R69). `issuedAt` is the device's time at the block's
`Issue` of the write; `outcome` is what the word holds when the cycle
completes and `running` says it has not completed nor been disturbed (DESIGN CHOICE, log entry 20). -/
structure WriteCycle where
  value : Word
  issuedAt : Nat
  outcome : Word
  running : Bool
  deriving DecidableEq, Repr

/-- The device environment model (rule R69), for simulation only (rule R74). -/
structure Device where
  /-- `E[r]` for `r` in 0x10..0x1F, index `r - 0x10`. -/
  eeprom : Vector Word 16
  /-- The last write cycle begun on each word. -/
  cycles : Vector (Option WriteCycle) 16
  /-- The simulated time in milliseconds (DESIGN CHOICE, log entry 19). -/
  now : Nat
  /-- The time at the block's last `Issue`: "the time it was issued" of a write on its way (rule R69). -/
  askedAt : Nat
  /-- `T_DEV_MIN_MS`, an open parameter (rule R8). -/
  minMs : Nat
  deriving DecidableEq, Repr

/-- The draws of one device answer: every value rules R70 to R72 leave open (DESIGN CHOICE, log entry 20). -/
structure DeviceDraw where
  /-- What each word whose write cycle this request disturbs now holds (rule R71). -/
  cells : Vector Word 16
  /-- What a word holds after a nonzero write over a nonzero word (rule R71). -/
  overwritten : Word
  /-- `some w`: the completed cycle leaves the word at `w` after all, the instability draw (rule R71). -/
  unstable : Option Word
  /-- The any-three-bytes answer (rule R70). -/
  bytes : Byte × Byte × Byte
  /-- `some e`: the answer is `BusError(e)` where the rules allow one. -/
  busError : Option TransportInfo
  /-- The word a RAM read draws (rule R72). -/
  ramWord : Word
  /-- The PEC a RAM read carries; `none` is the correct one (rule R72). -/
  ramPec : Option Byte
  deriving DecidableEq, Repr

/-- One future answer of the transport: any answer at all, or the device model's with its draws. -/
inductive Reply where
  | given (r : BusAnswer)
  | device (d : DeviceDraw)
  deriving DecidableEq, Repr

/-- One future act of the host (rule R226). -/
inductive HostInput where
  /-- Issue a command word with the data list beside it. -/
  | command (w : CmdWord) (data : List Byte)
  /-- Read `res` (DEDUCED, log entry 9). -/
  | readResult
  /-- Take the result (rule R212). -/
  | takeResult
  /-- Construct the block again (rule R243); an omitted argument takes its default (rule R240). -/
  | construct (busAddress : Option Nat) (writeTimeMs : Option Nat)
  deriving DecidableEq, Repr

/-- Who moves next: one of the four agents of rule R223, or the environment of the device model. -/
inductive Turn where
  | host
  | block
  | transport
  | timer
  /-- `ms` milliseconds pass (seen only by the device model; DESIGN CHOICE, log entry 19). -/
  | tick (ms : Nat)
  /-- Something outside the block leaves an EEPROM word at `w`: another bus master, or a transaction that failed after its
  bytes had reached the device (rules R55, R66 and R174; DESIGN CHOICE, log entry 21). `stops` says whether a write cycle still
  running on the word stops there or completes later over `w`; the spec leaves that open, and both are allowed. -/
  | disturb (reg : Byte) (w : Word) (stops : Bool)
  deriving DecidableEq, Repr

/-- The whole machine state. "No value" in rule R39's reset table is `none` (DEDUCED, log entry 3). -/
structure State where
  /-- `CFG` (rules R22 and R23). -/
  cfg : BlockConfig
  /-- `st` (rule R25). -/
  st : CtrlState
  /-- `cmd` (rule R27). -/
  cmd : Option Instr
  /-- `desc` (rule R28). -/
  desc : Option EepromDescriptor
  /-- `pending` (rule R29). -/
  pending : Option BusRequest
  /-- `crc` (rule R30). -/
  crc : Byte
  /-- `rx` (rule R31). -/
  rx : Option (List Byte)
  /-- `tmr_armed` (rule R32). -/
  tmrArmed : Bool
  /-- `tmr_ms` (rule R32). -/
  tmrMs : Option Millis
  /-- `res` (rules R33 and R35). -/
  res : Option Result
  /-- `hist`, model bookkeeping (rules R38 and R54). -/
  hist : List BusEvent
  /-- The host's result log, model bookkeeping (rule R38; DESIGN CHOICE, log entry 14). -/
  resultLog : List Result
  /-- The `refused` mark, model bookkeeping (rules R38 and R92). -/
  refused : Bool
  /-- The model's own: who moves in the coming steps (rules R205 and R223, U25; DESIGN CHOICE, log entries 1 and 2). -/
  turns : List Turn
  /-- The model's own: the host's coming acts, oldest first (rule R226; DESIGN CHOICE, log entry 1). -/
  hostIn : List HostInput
  /-- The model's own: the transport's coming answers, oldest first (rule R53; DESIGN CHOICE, log entry 1). -/
  replies : List Reply
  /-- The device environment model, when a simulation attaches one (rules R69 and R74; DESIGN CHOICE, log entry 18). -/
  sim : Option Device
  deriving DecidableEq, Repr

/-- Why the machine stops. Every one is safe: the model gives no next state where the spec gives none. -/
inductive Fault where
  /-- The host reads `res` before the first command has ended: "a model faults on it" (rule R35, decision D17, U16). Raised by
  the host's `readResult`, and by `takeResult` in an ended state without a result, which no run reaches. Safe. -/
  | resAbsent
  /-- The host reads a result whose status is one of the codes 7 to 255 (U23). Raised by the host's `readResult` and
  `takeResult`; no step writes such a code. Safe. -/
  | reservedStatus
  /-- The block reads `cmd` in `RegAccess` while it holds no value: "a read of it faults" (rules R27 and R39, U16). Raised by
  the block and the transport in a state no run reaches. Safe. -/
  | cmdAbsent
  /-- The block reads `desc` while it holds no value: "a read of it faults" (rules R28 and R39, U16). Raised by the block, the
  transport and the timer in a state no run reaches, and only where the rule's own pseudocode reads `desc`. Safe. -/
  | descAbsent
  /-- An answer, an `Elapsed` event or a command of another kind in a controller state for which no rule speaks
  (DESIGN CHOICE, log entry 15). Raised by the block, the transport and the timer in a state no run reaches. Safe. -/
  | noRule
  deriving DecidableEq, Repr

/-- Why an instruction has no meaning here. -/
inductive Refusal where
  /-- Not modelled yet. Raised by no arm: every command has its meaning. Safe. -/
  | notModelled (mnemonic : String)
  deriving DecidableEq, Repr

/-- What a step or a meaning answers. -/
abbrev Out := Host.Outcome State Fault Refusal

/-- The block right after construction with configuration `cfg` (rule R39's table, rule R240). -/
def State.constructed (cfg : BlockConfig) : State :=
  { cfg := cfg
    st := .idle
    cmd := none
    desc := none
    pending := none
    crc := 0x00#8
    rx := none
    tmrArmed := false
    tmrMs := none
    res := none
    hist := []
    resultLog := []
    refused := false
    turns := []
    hostIn := []
    replies := []
    sim := none }

/-- Reset is construction with no arguments: address 0x5B and 50 ms (rules R39 and R240). -/
def State.reset : State :=
  State.constructed ⟨BitVec.ofNat 7 Config.defaultBusAddress, BitVec.ofNat 16 Config.defaultWriteTimeMs⟩

end Sys2Proof.Machine
end

