-- ==== Sys2Proof/Machine/Operands.lean ====
section
/-! DEFINITION. Every operand form of the block: the byte and word helpers and the address bytes of 00_scope.md rule R11,
and the register check of 30_encoding.md rules R88 and R89. Operands are otherwise "used as they stand" (rule R83). -/

namespace Sys2Proof.Machine

/-- `lo8(v) = v[7:0]` (rule R11). -/
def lo8 (v : Word) : Byte := v.extractLsb' 0 8

/-- `hi8(v) = v[15:8]` (rule R11). -/
def hi8 (v : Word) : Byte := v.extractLsb' 8 8

/-- `word(l, h) = (zext_16(h) << 8) | zext_16(l)`, low byte first (rules R11 and R56). -/
def word (l h : Byte) : Word := (h.setWidth 16 <<< 8) ||| l.setWidth 16

/-- `addr_w(a)`, the address byte for the write direction (rules R11 and R86; PRESUMED, log entry 23). -/
def addrW (a : BusAddr) : Byte := (a.setWidth 8 <<< 1) ||| 0x00#8

/-- `addr_r(a)`, the address byte for the read direction (rules R11 and R86; PRESUMED, log entry 23). -/
def addrR (a : BusAddr) : Byte := (a.setWidth 8 <<< 1) ||| 0x01#8

/-- `in_eeprom(r)`: 0x10..0x1F (rules R11 and R51). -/
def inEeprom (r : Byte) : Bool := decide (Config.eepromLo ≤ r) && decide (r ≤ Config.eepromHi)

/-- `in_ram(r)`: 0x25..0x27 (rules R11 and R51). -/
def inRam (r : Byte) : Bool := decide (Config.ramLo ≤ r) && decide (r ≤ Config.ramHi)

/-- `valid(op, r)` of rule R89: the legal registers of rule R88's table. -/
def validReg (op : Op) (r : Byte) : Bool :=
  match op with
  | .eepromWrite => inEeprom r
  | .readWord => inEeprom r || inRam r
  | .writeWord => inEeprom r || inRam r
  | .computePec => true
  | .verifyPec => true

/-- The payload `[r, lo8(v), hi8(v), PEC]` of a write-word frame (rule R84), given its PEC. -/
def writePayload (r : Byte) (v : Word) (p : Byte) : List Byte := [r, lo8 v, hi8 v, p]

/-- The bytes a write-word frame's PEC covers (rules R57 and R84). -/
def writeCovered (a : BusAddr) (r : Byte) (v : Word) : List Byte := [addrW a, r, lo8 v, hi8 v]

/-- The bytes a read-word frame's PEC covers, the repeated-start address byte among them (rule R85). -/
def readCovered (a : BusAddr) (r l h : Byte) : List Byte := [addrW a, r, addrR a, l, h]

end Sys2Proof.Machine
end

