-- ==== Sys2Proof/Machine/Flags.lean ====
section
/-! DEFINITION. Everything a host can test (10_state.md rules R33 and R34): each result a command ends with, every field
written, and the numeric codes of 60_exceptions.md rule R200. -/

namespace Sys2Proof.Machine

/-- The numeric code of a status (rule R200). -/
def ErrCode.code : ErrCode → Byte
  | .ok => 0
  | .busError => 1
  | .pecMismatch => 2
  | .invalidRegister => 3
  | .eepromVerify => 4
  | .outOfRangeValue => 5
  | .precondition => 6
  | .reserved k => BitVec.ofNat 8 (7 + k.val)

/-- The codes 7 to 255, which no command writes and a read of which faults (rule R200, U23). -/
def ErrCode.isReserved : ErrCode → Bool
  | .reserved _ => true
  | .ok => false
  | .busError => false
  | .pecMismatch => false
  | .invalidRegister => false
  | .eepromVerify => false
  | .outOfRangeValue => false
  | .precondition => false

/-- A result with every field but `status` at its default (rule R33: `none`, or `false` for `indeterminate`). -/
def Result.plain (status : ErrCode) : Result :=
  { status := status, value := none, pec := none, pecMatch := none, failedState := none, indeterminate := false, busInfo := none }

/-- The result of a command that ends well with nothing to return: WRITE_WORD, and `finish_ok` (rules R133 and R170). -/
def Result.success : Result := .plain .ok

/-- The result of READ_WORD on success (rule R130). -/
def Result.ofValue (w : Word) : Result := { Result.plain .ok with value := some w }

/-- The result of COMPUTE_PEC (rule R113). -/
def Result.ofPec (p : Byte) : Result := { Result.plain .ok with pec := some p }

/-- The result of VERIFY_PEC (rule R114). -/
def Result.ofMatch (b : Bool) : Result := { Result.plain .ok with pecMatch := some b }

/-- The four errors the block raises, with what each carries (rule R201). -/
inductive BlockError where
  | busError (e : BusErrorInfo)
  | pecMismatch
  | invalidRegister (reg : Byte)
  | eepromVerify (w : Word)
  deriving DecidableEq, Repr

/-- `res.status` of an error (rule R201). -/
def BlockError.status : BlockError → ErrCode
  | .busError _ => .busError
  | .pecMismatch => .pecMismatch
  | .invalidRegister _ => .invalidRegister
  | .eepromVerify _ => .eepromVerify

/-- `res.value <- (E = EepromVerifyError) ? some(info.w) : none` (rule R210). -/
def BlockError.value : BlockError → Option Word
  | .eepromVerify w => some w
  | .busError _ => none
  | .pecMismatch => none
  | .invalidRegister _ => none

/-- `res.bus_info <- (E = BusError) ? some(info.e) : none` (rule R210). -/
def BlockError.busInfo : BlockError → Option BusErrorInfo
  | .busError e => some e
  | .pecMismatch => none
  | .invalidRegister _ => none
  | .eepromVerify _ => none

/-- `S in {Erasing, Writing, Verifying}` (rule R210). -/
def CtrlState.isEepromRequest : CtrlState → Bool
  | .erasing => true
  | .writing => true
  | .verifying => true
  | .idle => false
  | .regAccess => false
  | .awaitEraseDelay => false
  | .awaitWriteDelay => false
  | .done => false
  | .error => false

/-- `res.failed_state` of an error raised in state `S` by operation `op` (rules R173 and R210). -/
def failedStateOf (op : Option Op) (S : CtrlState) : Option CtrlState :=
  if op = some .eepromWrite ∧ S.isEepromRequest = true then some S else none

/-- The result an error writes (rule R210). `indeterminate` is set exactly when `failed_state` is. -/
def Result.ofError (E : BlockError) (op : Option Op) (S : CtrlState) : Result :=
  { status := E.status
    value := E.value
    pec := none
    pecMatch := none
    failedState := failedStateOf op S
    indeterminate := (failedStateOf op S).isSome
    busInfo := E.busInfo }

end Sys2Proof.Machine
end

