-- ==== Sys2Proof/Machine/Ops.lean ====
section
/-! DEFINITION. The shared operations: accepting a command, issuing and answering a bus request, arming the timer, ending a
command well, raising an error (60_exceptions.md rule R210), taking the result (rule R212) and constructing the block
(70_reset_and_hazards.md rules R240 and R243). -/

namespace Sys2Proof.Machine

/-- Append an event to the bus history (rule R54). -/
def State.logEvent (s : State) (e : BusEvent) : State := { s with hist := s.hist ++ [e] }

/-- Set the mark that says something without a meaning was asked; nothing clears it in the block's life (rule R92). -/
def State.markRefused (s : State) : State := { s with refused := true }

/-- One PEC computation over `bs`, its value left in `crc` (rules R30 and R110; DESIGN CHOICE, log entry 4). -/
def State.runPec (s : State) (bs : List Byte) : State := { s with crc := pec8 bs }

/-- The accepting step writes `cmd` (rule R27). A command while `st != Idle` is refused and changes nothing else (rule R227;
DEDUCED, log entry 7). -/
def accept (i : Instr) (s : State) (go : State → Out) : Out :=
  if s.st = .idle then go { s with cmd := some i } else .next s.markRefused

/-- Issue a bus request: `pending <- some q`, and `Issue(q)` in the history (rules R29, R54 and R136). An attached device model
notes the time, from which the write cycle of a write counts (rules R69 and R71). -/
def State.issue (s : State) (q : BusRequest) : State :=
  { s with
    pending := some q
    hist := s.hist ++ [.issue q]
    sim := s.sim.map fun d => { d with askedAt := d.now } }

/-- Take the transport's answer: `pending <- none`, and `Answer(q, r)` in the history (rules R53, R54 and R136). -/
def State.receive (s : State) (q : BusRequest) (r : BusAnswer) : State :=
  { s with pending := none, hist := s.hist ++ [.answer q r] }

/-- Enter the delay state `S` and arm the timer with `t` ms: `WaitStart(t)` (rules R32, R54 and R160). -/
def State.startWait (s : State) (S : CtrlState) (t : Millis) : State :=
  { s with st := S, tmrArmed := true, tmrMs := some t, hist := s.hist ++ [.waitStart t] }

/-- The `Elapsed` event clears `tmr_armed` and is recorded as `WaitEnd` (rules R32 and R54). -/
def State.endWait (s : State) : State := { s with tmrArmed := false, hist := s.hist ++ [.waitEnd] }

/-- A command ends well: `res` is written and `st <- Done` (rules R25 and R33). `cmd`, `desc`, `rx` and `tmr_ms` keep their
values (DESIGN CHOICE, log entry 5). -/
def State.finish (s : State) (r : Result) : State := { s with res := some r, st := .done }

/-- Error entry, `raise E(info)` in the current state (rule R210): `res` is written whole, `pending` and the timer are
cleared, `st <- Error`, and nothing else changes. -/
def State.raise (s : State) (E : BlockError) : State :=
  { s with
    res := some (Result.ofError E (s.cmd.map Instr.op) s.st)
    pending := none
    tmrArmed := false
    st := .error }

/-- The result the host reads: absent before the first command ends (rule R35), and no meaning for a reserved status (U23). -/
def readableResult (s : State) : Except Fault Result :=
  match s.res with
  | none => .error .resAbsent -- R35: "a model faults on it"; D17, U16
  | some r => if r.status.isReserved then .error .reservedStatus else .ok r

/-- The host reads `res`; nothing changes (rules R35 and R212; DEDUCED, log entry 9). -/
def hostRead (s : State) : Out :=
  match readableResult s with
  | .error f => .fault f
  | .ok _ => .next s

/-- `st` is `Done` or `Error`: the command has ended and its result is ready (rule R25). -/
def CtrlState.ended : CtrlState → Bool
  | .done => true
  | .error => true
  | .idle => false
  | .regAccess => false
  | .erasing => false
  | .awaitEraseDelay => false
  | .writing => false
  | .awaitWriteDelay => false
  | .verifying => false

/-- Result take, the return from an error as from a success (rule R212): the host's log gains `res`, `st <- Idle`, and `res`
keeps its value. Out of turn the take is refused, whatever `res` holds (DESIGN CHOICE, log entry 8). -/
def takeResult (s : State) : Out :=
  if s.st.ended then
    match readableResult s with
    | .error f => .fault f
    | .ok r => .next { s with st := .idle, resultLog := s.resultLog ++ [r] }
  else .next s.markRefused

/-- The construction arguments, defaults filled in; `none` when one is out of its legal range (rules R22, R23 and R240; log
entry 11). -/
def configOfArgs (busAddress writeTimeMs : Option Nat) : Option BlockConfig :=
  let a := busAddress.getD Config.defaultBusAddress
  let t := writeTimeMs.getD Config.defaultWriteTimeMs
  if a ≤ Config.maxBusAddress ∧ t ≤ Config.maxWriteTimeMs then some ⟨BitVec.ofNat 7 a, BitVec.ofNat 16 t⟩ else none

/-- `st` is `Idle`, `Done` or `Error`: no command is in progress (rule R243). -/
def CtrlState.quiet (S : CtrlState) : Bool := S = .idle || S.ended

/-- Construct the block again (rule R243): the whole block state is replaced by rule R240's. Refused with a command in
progress and with an argument out of range. The host's log, the inputs and the device are not the block's and stay (log
entry 10). -/
def reconstruct (busAddress writeTimeMs : Option Nat) (s : State) : Out :=
  match configOfArgs busAddress writeTimeMs with
  | none => .next s.markRefused
  | some cfg =>
    if s.st.quiet then
      .next { State.constructed cfg with
        resultLog := s.resultLog, turns := s.turns, hostIn := s.hostIn, replies := s.replies, sim := s.sim }
    else .next s.markRefused

end Sys2Proof.Machine
end

