-- ==== Sys2Proof/Machine/Device.lean ====
section
/-! DEFINITION. The device environment model of 20_memory.md section 7 (rules R69 to R74), "for simulation only": the words
of the EEPROM, their write cycles, and the answers the device gives. Every value those rules leave open is a draw the reply
carries. No rule of the block reads it. -/

namespace Sys2Proof.Machine

/-- The index of an EEPROM register: `r - 0x10` for `r` in 0x10..0x1F. -/
def cellIndex (r : Byte) : Fin 16 := (r.extractLsb' 0 4).toFin

/-- `E[r]` (rule R69). -/
def Device.word (d : Device) (r : Byte) : Word := d.eeprom[cellIndex r]

/-- Set `E[r]`. -/
def Device.setWord (d : Device) (r : Byte) (w : Word) : Device :=
  { d with eeprom := d.eeprom.set (cellIndex r) w }

/-- A write cycle less than `T_DEV_MIN_MS` old (rules R70 and R71). -/
def Device.young (d : Device) (c : WriteCycle) : Bool := decide (d.now < c.issuedAt + d.minMs)

/-- The cycle on word `k` is less than `T_DEV_MIN_MS` old. -/
def Device.youngAt (d : Device) (k : Fin 16) : Bool :=
  match d.cycles[k] with
  | none => false
  | some c => d.young c

/-- Some write cycle is less than `T_DEV_MIN_MS` old (rule R70). -/
def Device.anyYoung (d : Device) : Bool := (List.finRange 16).any d.youngAt

/-- What word `k` holds once the cycles that have reached `T_DEV_MIN_MS` are complete (rule R71). -/
def Device.settledWord (d : Device) (k : Fin 16) : Word :=
  match d.cycles[k] with
  | none => d.eeprom[k]
  | some c => if c.running && !d.young c then c.outcome else d.eeprom[k]

/-- The record of the cycle on word `k`, no longer running once complete. -/
def Device.settledCycle (d : Device) (k : Fin 16) : Option WriteCycle :=
  (d.cycles[k]).map fun c => { c with running := c.running && d.young c }

/-- Complete every cycle that has reached `T_DEV_MIN_MS` (rule R71). -/
def Device.settle (d : Device) : Device :=
  { d with eeprom := Vector.ofFn d.settledWord, cycles := Vector.ofFn d.settledCycle }

/-- `ms` milliseconds pass at the device. -/
def Device.advance (d : Device) (ms : Nat) : Device := ({ d with now := d.now + ms } : Device).settle

/-- A bus request reaches the device, at the step of its answer (DESIGN CHOICE, log entry 32): a word whose cycle is not
`T_DEV_MIN_MS` old "becomes any value (draw)" (rule R71). -/
def Device.arrive (d : Device) (draw : DeviceDraw) : Device :=
  let d := d.settle
  { d with
    eeprom := Vector.ofFn fun k => if d.youngAt k then draw.cells[k] else d.eeprom[k]
    cycles := d.cycles.map fun c => c.map fun c => { c with running := false } }

/-- The answer the rules leave open: any three bytes, or `BusError` (rules R70 and R72). -/
def DeviceDraw.anyRead (draw : DeviceDraw) : BusAnswer :=
  match draw.busError with
  | some e => .busError e
  | none => .ok [draw.bytes.1, draw.bytes.2.1, draw.bytes.2.2]

/-- The answer to a write: `Ok`, or `BusError` by draw (rules R71 and R72; DESIGN CHOICE, log entry 20). -/
def DeviceDraw.writeAnswer (draw : DeviceDraw) : BusAnswer :=
  match draw.busError with
  | some e => .busError e
  | none => .ok []

/-- A read answer of word `w` with PEC `p`. -/
def readAnswerOf (w : Word) (p : Byte) : BusAnswer := .ok [lo8 w, hi8 w, p]

/-- The device's answer to a read-word frame for `r` at address `a`, after the request has arrived (rules R70 and R72). -/
def Device.readAnswer (d : Device) (a : BusAddr) (r : Byte) (draw : DeviceDraw) : BusAnswer :=
  if d.anyYoung then draw.anyRead
  else if inEeprom r then
    readAnswerOf (d.word r) (pec8 (readCovered a r (lo8 (d.word r)) (hi8 (d.word r))))
  else if inRam r then
    readAnswerOf draw.ramWord
      (draw.ramPec.getD (pec8 (readCovered a r (lo8 draw.ramWord) (hi8 draw.ramWord))))
  else draw.anyRead

/-- What word `r` holds when a write cycle with value `v` begun on it completes (rule R71). -/
def Device.cycleOutcome (d : Device) (r : Byte) (v : Word) (draw : DeviceDraw) : Word :=
  draw.unstable.getD
    (if v = 0 then 0 else if d.word r = 0 then v else draw.overwritten)

/-- Begin a write cycle with value `v` on EEPROM register `r`, after the request has arrived (rules R69 and R71). "The time it
was issued" is that of the block's `Issue`, so a cycle whose request was slow to arrive may complete at once. -/
def Device.beginCycle (d : Device) (r : Byte) (v : Word) (draw : DeviceDraw) : Device :=
  ({ d with
    cycles := d.cycles.set (cellIndex r)
      (some { value := v, issuedAt := d.askedAt, outcome := d.cycleOutcome r v draw, running := true }) } : Device).settle

/-- The device's effect of a write-word frame `[r, l, h, p]` at address `a`, after the request has arrived: a frame with a
wrong PEC leaves `E[r]` unchanged (rule R71), and a RAM register holds no state in the model (rules R69 and R72). -/
def Device.writeFrame (d : Device) (a : BusAddr) (r l h p : Byte) (draw : DeviceDraw) : Device :=
  if inEeprom r && p == pec8 [addrW a, r, l, h] then d.beginCycle r (Machine.word l h) draw else d

/-- The device's whole reaction to a request: its answer and its next state. A request of no frame's shape, which the block
never issues, gets any answer and has no effect. -/
def Device.react (d : Device) (q : BusRequest) (draw : DeviceDraw) : BusAnswer × Device :=
  let d := d.arrive draw
  match q with
  | .writeRead a [r] _ => (d.readAnswer a r draw, d)
  | .write a [r, l, h, p] => (draw.writeAnswer, d.writeFrame a r l h p draw)
  | .writeRead _ _ _ => (draw.anyRead, d)
  | .write _ _ => (draw.writeAnswer, d)

/-- The answer in the shape the request admits: `Ok` to a BusWrite carries no bytes (rule R53; DESIGN CHOICE, log entry 13). -/
def BusAnswer.fit (q : BusRequest) (r : BusAnswer) : BusAnswer :=
  match q, r with
  | .write _ _, .ok _ => .ok []
  | .write _ _, .busError e => .busError e
  | .writeRead _ _ _, r => r

/-- The transport's answer to `q` from a reply, and the device after it. The unconstrained transport gives any answer (rule
R74); it stands for the whole of the transaction, so an attached device is left as it was, on `Ok` too (DESIGN CHOICE, log entry
33). A device reply with no device attached gives the draw's open answer (DESIGN CHOICE, log entry 33). -/
def Reply.answer (rep : Reply) (q : BusRequest) (sim : Option Device) : BusAnswer × Option Device :=
  match rep, sim with
  | .given r, _ => (r.fit q, sim)
  | .device draw, none => (draw.anyRead.fit q, none)
  | .device draw, some d => ((d.react q draw).1.fit q, some (d.react q draw).2)

/-- Word `r`'s write cycle stops where it is. -/
def Device.stopCycle (d : Device) (r : Byte) : Device :=
  { d with cycles := d.cycles.set (cellIndex r) ((d.cycles[cellIndex r]).map fun c => { c with running := false }) }

/-- Something outside the block leaves an EEPROM word at `w`. What becomes of a write cycle still running on the word the spec
leaves open: with `stops` it stops, without it goes on and completes over `w` (DESIGN CHOICE, log entry 21). -/
def Device.disturb (d : Device) (r : Byte) (w : Word) (stops : Bool) : Device :=
  if inEeprom r then (if stops then (d.stopCycle r).setWord r w else d.setWord r w) else d

end Sys2Proof.Machine
end

