-- ==== Sys2Proof/Machine/RegAccess.lean ====
section
/-! DEFINITION. Register access (41_register_access.md): the frame functions of rule R135, READ_WORD (rules R130 to R132),
WRITE_WORD (rules R133, R134 and R137), and the two steps of `RegAccess` (rule R136). -/

namespace Sys2Proof.Machine

/-- The request of `ra_write(r, v)` (rules R84 and R135), the PEC always appended. -/
def writeRequest (a : BusAddr) (r : Byte) (v : Word) : BusRequest :=
  .write a (writePayload r v (pec8 (writeCovered a r v)))

/-- The request of `ra_read(r, chk)` (rules R85 and R135). -/
def readRequest (a : BusAddr) (r : Byte) : BusRequest := .writeRead a [r] Config.readLen

/-- The first half of `ra_write`: one PEC computed, one request issued (rule R135). -/
def raWriteIssue (r : Byte) (v : Word) (s : State) : State :=
  (s.runPec (writeCovered s.cfg.busAddress r v)).issue (writeRequest s.cfg.busAddress r v)

/-- The first half of `ra_read`: one request issued (rule R135). -/
def raReadIssue (r : Byte) (s : State) : State := s.issue (readRequest s.cfg.busAddress r)

/-- What `ra_write` returns (rule R135). -/
inductive WriteOutcome where
  | ok
  | bus (e : BusErrorInfo)
  deriving DecidableEq, Repr

/-- What `ra_read` returns (rule R135). -/
inductive ReadOutcome where
  | ok (w : Word)
  | bus (e : BusErrorInfo)
  | pec
  deriving DecidableEq, Repr

/-- The second half of `ra_write`: the transport's answer, passed on unchanged (rule R135). -/
def raWriteOutcome : BusAnswer → WriteOutcome
  | .ok _ => .ok
  | .busError e => .bus (.transport e)

/-- The transport failures `ra_read` returns before it reads anything else (rules R53 and R135): the transport's error, or
`ShortRead` for a number of bytes other than `READ_LEN`. -/
def readFailure : BusAnswer → Option BusErrorInfo
  | .busError e => some (.transport e)
  | .ok [_, _, _] => none
  | .ok _ => some .shortRead

/-- The second half of `ra_read`, on the answer `r`: a wrong number of bytes is `ShortRead` (rule R53); otherwise the bytes
go into `rx`, and the PEC is computed and compared only with the check on (rules R132 and R135). -/
def raReadOutcome (reg : Byte) (chk : Bool) (r : BusAnswer) (s : State) : ReadOutcome × State :=
  match r with
  | .busError e => (.bus (.transport e), s)
  | .ok [l, h, p] =>
    if chk then
      (if pec8 (readCovered s.cfg.busAddress reg l h) = p then .ok (word l h) else .pec,
        ({ s with rx := some [l, h, p] } : State).runPec (readCovered s.cfg.busAddress reg l h))
    else (.ok (word l h), { s with rx := some [l, h, p] })
  | .ok _ => (.bus .shortRead, s)

/-- READ_WORD (rule R130), the accepting step: the register check of rule R131, then `RegAccess`. -/
def execReadWord (reg : Byte) (checkPec : Bool) (s : State) : Out :=
  accept (.readWord reg checkPec) s fun s =>
    if validReg .readWord reg then .next { s with st := .regAccess }
    else .next (s.raise (.invalidRegister reg))

/-- WRITE_WORD (rule R133), the accepting step: the register check of rule R131, then `RegAccess`. -/
def execWriteWord (reg : Byte) (val : Word) (checkPec : Bool) (s : State) : Out :=
  accept (.writeWord reg val checkPec) s fun s =>
    if validReg .writeWord reg then .next { s with st := .regAccess }
    else .next (s.raise (.invalidRegister reg))

/-- `RegAccess` with no request outstanding: the block issues the command's one request (rule R136 step 1). -/
def regAccessIssue (s : State) : Out :=
  match s.cmd with
  | none => .fault .cmdAbsent -- R39: "a read of it faults"; U16
  | some (.readWord reg _) => .next (raReadIssue reg s)
  | some (.writeWord reg val _) => .next (raWriteIssue reg val s)
  | some (.computePec _) => .fault .noRule
  | some (.verifyPec _ _) => .fault .noRule
  | some (.eepromWrite _ _ _) => .fault .noRule

/-- How READ_WORD ends on the transport's answer (rule R130). -/
def readWordAnswer (reg : Byte) (checkPec : Bool) (r : BusAnswer) (s : State) : Out :=
  match raReadOutcome reg checkPec r s with
  | (.ok w, s) => .next (s.finish (.ofValue w))
  | (.bus e, s) => .next (s.raise (.busError e))
  | (.pec, s) => .next (s.raise .pecMismatch)

/-- How WRITE_WORD ends on the transport's answer (rule R133). -/
def writeWordAnswer (r : BusAnswer) (s : State) : Out :=
  match raWriteOutcome r with
  | .ok => .next (s.finish .success)
  | .bus e => .next (s.raise (.busError e))

/-- `RegAccess` on the transport's answer: the command ends in the same step (rule R136 step 2). -/
def regAccessAnswer (r : BusAnswer) (s : State) : Out :=
  match s.cmd with
  | none => .fault .cmdAbsent -- R39: "a read of it faults"; U16
  | some (.readWord reg chk) => readWordAnswer reg chk r s
  | some (.writeWord _ _ _) => writeWordAnswer r s
  | some (.computePec _) => .fault .noRule
  | some (.verifyPec _ _) => .fault .noRule
  | some (.eepromWrite _ _ _) => .fault .noRule

end Sys2Proof.Machine
end

