-- ==== Sys2Proof/Machine/EepromWriter.lean ====
section
/-! DEFINITION. The EEPROM write controller (42_eeprom_writer.md): EEPROM_WRITE's accepting step (rules R160 to R162) and the
transitions of rules R163 to R170, built on the frame functions of rule R135. -/

namespace Sys2Proof.Machine

/-- The value of an erase, always zero (rule R164). -/
def eraseValue : Word := 0x0000#16

/-- EEPROM_WRITE (rule R160), the accepting step: the register check of rule R161, the descriptor of rule R28, then `Erasing`
(rule R162). -/
def execEepromWrite (reg : Byte) (val : Word) (verify : Bool) (s : State) : Out :=
  accept (.eepromWrite reg val verify) s fun s =>
    if validReg .eepromWrite reg then
      .next { s with
        desc := some { reg := reg, prev := none, newVal := val, delayMs := s.cfg.writeTimeMs, verify := verify }
        st := .erasing }
    else .next (s.raise (.invalidRegister reg))

/-- Run the part of a transition that reads the descriptor, which holds no value before the first acceptance: "a read of it
faults" (rules R28 and R39, U16). -/
def withDesc (s : State) (go : EepromDescriptor → Out) : Out :=
  match s.desc with
  | none => .fault .descAbsent -- R39: "a read of it faults"; U16
  | some d => go d

/-- `Erasing`: issue `ra_write(desc.reg, 0x0000)` (rules R163 and R164). -/
def erasingIssue (s : State) : Out := withDesc s fun d => .next (raWriteIssue d.reg eraseValue s)

/-- `Writing`: issue `ra_write(desc.reg, desc.new)` (rule R167). -/
def writingIssue (s : State) : Out := withDesc s fun d => .next (raWriteIssue d.reg d.newVal s)

/-- `Verifying`: issue `ra_read(desc.reg, true)` (rule R169). -/
def verifyingIssue (s : State) : Out := withDesc s fun d => .next (raReadIssue d.reg s)

/-- A write of the sequence is answered: on `Ok` the wait `S` begins, armed with `desc.delay_ms`; on an error the sequence
ends, and the descriptor is not read (rules R163 and R167). -/
def sequenceWriteAnswer (S : CtrlState) (r : BusAnswer) (s : State) : Out :=
  match raWriteOutcome r with
  | .ok => withDesc s fun d => .next (s.startWait S d.delayMs)
  | .bus e => .next (s.raise (.busError e))

/-- `finish_ok` (rule R170). -/
def finishOk (s : State) : State := s.finish .success

/-- `Verifying` on three bytes: equality of all 16 bits, one read only (rule R169). -/
def verifyingCompare (d : EepromDescriptor) (r : BusAnswer) (s : State) : Out :=
  match raReadOutcome d.reg true r s with
  | (.ok w, s) => if w = d.newVal then .next (finishOk s) else .next (s.raise (.eepromVerify w))
  | (.bus e, s) => .next (s.raise (.busError e))
  | (.pec, s) => .next (s.raise .pecMismatch)

/-- `Verifying` on the transport's answer (rule R169): a transport failure ends the command without a look at the
descriptor. -/
def verifyingAnswer (r : BusAnswer) (s : State) : Out :=
  match readFailure r with
  | some e => .next (s.raise (.busError e))
  | none => withDesc s fun d => verifyingCompare d r s

/-- `Elapsed` in `AwaitEraseDelay` (rule R166). -/
def eraseDelayElapsed (s : State) : Out := .next { s with st := .writing }

/-- `Elapsed` in `AwaitWriteDelay` (rule R168). -/
def writeDelayElapsed (s : State) : Out :=
  withDesc s fun d => if d.verify then .next { s with st := .verifying } else .next (finishOk s)

end Sys2Proof.Machine
end

