-- ==== Sys2Proof/Machine/Agents.lean ====
section
/-! DEFINITION. The block's, the transport's and the timer's steps (60_exceptions.md rule R223), and which agent moves when
the schedule names none. -/

namespace Sys2Proof.Machine

/-- The block's own step: in a state that makes a bus request, with none outstanding, it issues the request. Otherwise it
waits and nothing changes (rules R26, R29, R136 and R165). -/
def blockTurn (s : State) : Out :=
  match s.pending with
  | some _ => .next s
  | none =>
    match s.st with
    | .regAccess => regAccessIssue s
    | .erasing => erasingIssue s
    | .writing => writingIssue s
    | .verifying => verifyingIssue s
    | .idle => .next s
    | .awaitEraseDelay => .next s
    | .awaitWriteDelay => .next s
    | .done => .next s
    | .error => .next s

/-- What the block does with the transport's answer `r`, in the step that delivers it (rules R136, R163, R167 and R169). -/
def blockAnswer (r : BusAnswer) (s : State) : Out :=
  match s.st with
  | .regAccess => regAccessAnswer r s
  | .erasing => sequenceWriteAnswer .awaitEraseDelay r s
  | .writing => sequenceWriteAnswer .awaitWriteDelay r s
  | .verifying => verifyingAnswer r s
  | .idle => .fault .noRule
  | .awaitEraseDelay => .fault .noRule
  | .awaitWriteDelay => .fault .noRule
  | .done => .fault .noRule
  | .error => .fault .noRule

/-- The transport's step: it answers the outstanding request with its next reply, exactly once (rules R53 and R221). With no
request, or no answer coming, nothing changes: "the block stays in `RegAccess` for ever" (rule R136, U17;
DEDUCED, log entry 25). -/
def transportTurn (s : State) : Out :=
  match s.pending, s.replies with
  | some q, rep :: rest =>
    blockAnswer (rep.answer q s.sim).1
      (({ s with replies := rest, sim := (rep.answer q s.sim).2 } : State).receive q (rep.answer q s.sim).1)
  | some _, [] => .next s
  | none, _ => .next s

/-- What the block does with `Elapsed` (rules R166 and R168). -/
def blockElapsed (s : State) : Out :=
  match s.st with
  | .awaitEraseDelay => eraseDelayElapsed s
  | .awaitWriteDelay => writeDelayElapsed s
  | .idle => .fault .noRule
  | .regAccess => .fault .noRule
  | .erasing => .fault .noRule
  | .writing => .fault .noRule
  | .verifying => .fault .noRule
  | .done => .fault .noRule
  | .error => .fault .noRule

/-- The milliseconds an `Elapsed` shows to have passed at least (rule R32): `tmr_ms`. Without a value, in a state no run reaches,
it shows nothing (DESIGN CHOICE, log entry 19). -/
def State.elapsedMs (s : State) : Nat :=
  match s.tmrMs with
  | none => 0
  | some t => t.toNat

/-- The timer's step: one `Elapsed` per arming, "when `tmr_armed` holds" (rule R220). At the device at least `tmr_ms` milliseconds
have passed (rule R32; DESIGN CHOICE, log entry 19). The block itself checks no lower bound (DEDUCED, log entry 30). With the
timer unarmed nothing changes. -/
def timerTurn (s : State) : Out :=
  if s.tmrArmed then
    blockElapsed ({ s with sim := s.sim.map fun d => d.advance s.elapsedMs } : State).endWait
  else .next s

/-- Time passes at the device; the block has "no other time-keeping state" (rule R32; DESIGN CHOICE, log entry 19). -/
def tickTurn (ms : Nat) (s : State) : Out := .next { s with sim := s.sim.map fun d => d.advance ms }

/-- Something outside the block changes an EEPROM word (rule R66; DESIGN CHOICE, log entry 21). -/
def disturbTurn (r : Byte) (w : Word) (stops : Bool) (s : State) : Out :=
  .next { s with sim := s.sim.map fun d => d.disturb r w stops }

/-- The block has a request to issue. -/
def State.blockReady (s : State) : Bool :=
  s.pending.isNone && (s.st = .regAccess || s.st.isEepromRequest)

/-- Who moves when the schedule is empty: the block if it has a request to issue, else whichever event is live (rule R205: an
outstanding request or an armed timer), else the host if it has an act waiting (DESIGN CHOICE, log entry 2). -/
def State.defaultTurn (s : State) : Option Turn :=
  if s.blockReady then some .block
  else if s.pending.isSome then (if s.replies.isEmpty then none else some .transport)
  else if s.tmrArmed then some .timer
  else if s.hostIn.isEmpty then none
  else some .host

end Sys2Proof.Machine
end

