-- ==== Sys2Proof/WellFormed.lean ====
section
/-! DEFINITION. Which commands are well formed: the data bound of 00_scope.md rule R8 (`MAX_PEC_LEN`, unbounded by default)
for `Instr`; and for the record of 30_encoding.md rule R80 the required zeros of rule R81, with the model's zero in the slot of
`reg` and `rcv` that the command does not use (DESIGN CHOICE, log entry 34). -/

namespace Sys2Proof

/-- A data list fits an instance's buffer bound; `none` is the default, no bound (rule R8). -/
def fitsPecBuffer (cap : Option Nat) (data : List Byte) : Bool :=
  match cap with
  | none => true
  | some n => decide (data.length ≤ n)

/-- Well-formedness within a given bound on the PEC data. The register is not checked here: rule R89 checks it at
execution, "as an error, not a decode failure" (rule R83). -/
def Instr.wellFormedWithin (cap : Option Nat) : Instr → Bool
  | .computePec data => fitsPecBuffer cap data
  | .verifyPec data _ => fitsPecBuffer cap data
  | .readWord _ _ => true
  | .writeWord _ _ _ => true
  | .eepromWrite _ _ _ => true

/-- Well-formedness at this block's `MAX_PEC_LEN`. -/
def Instr.wellFormed (i : Instr) : Bool := i.wellFormedWithin Config.maxPecLen

/-- The required zeros of rule R81's table, and the empty `data` of the three register commands. The word has one field for `reg`
and `rcv` and the record of rule R80 two slots: that VERIFY_PEC's `reg` and a register command's `rcv` are zero is the model's
(DESIGN CHOICE, log entry 34). -/
def Command.wellFormed (c : Command) : Bool :=
  match c.op with
  | .computePec => !c.f && c.reg == 0 && c.rcv == 0 && c.val == 0
  | .verifyPec => !c.f && c.reg == 0 && c.val == 0
  | .readWord => c.rcv == 0 && c.val == 0 && c.data.isEmpty
  | .writeWord => c.rcv == 0 && c.data.isEmpty
  | .eepromWrite => c.rcv == 0 && c.data.isEmpty

/-- The command a well-formed record spells. Rule R91 gives the refusal of the slots that rule R81 requires to be 0; that of a
nonzero `reg` of VERIFY_PEC or `rcv` of a register command is the model's (DESIGN CHOICE, log entry 34). -/
def Command.toInstr (c : Command) : Option Instr :=
  if c.wellFormed then
    match c.op with
    | .computePec => some (.computePec c.data)
    | .verifyPec => some (.verifyPec c.data c.rcv)
    | .readWord => some (.readWord c.reg c.f)
    | .writeWord => some (.writeWord c.reg c.val c.f)
    | .eepromWrite => some (.eepromWrite c.reg c.val c.f)
  else none

end Sys2Proof
end

