-- ==== Sys2Proof/Decode.lean ====
section
/-! DEFINITION. The decoder of 30_encoding.md rules R81, R82, R90 and R91, total on every command word and data list,
rejecting by name; the opcode rows of rule R82; then the encoder, written from the same table. -/

namespace Sys2Proof

/-- Why a word spells no command. -/
inductive DecodeError where
  /-- `op` is 0b101, 0b110 or 0b111 (rule R90). -/
  | reservedOp
  /-- A 1 in bits 7:4 (rule R91). -/
  | reservedBits
  /-- `f = 1` on a command that has no flag (rule R91). -/
  | flagNotZero
  /-- Bits 15:8 nonzero on COMPUTE_PEC (rule R91). -/
  | regNotZero
  /-- Bits 31:16 nonzero on a command that has no `val` (rule R91). -/
  | valNotZero
  /-- A nonempty `data` list beside a register command (rule R91). -/
  | dataNotEmpty
  deriving DecidableEq, Repr

/-- `word[2:0]` (rule R81). -/
def opField (w : CmdWord) : BitVec 3 := w.extractLsb' 0 3

/-- `word[3]` (rule R81 `f`). -/
def flagField (w : CmdWord) : Bool := w.getLsbD 3

/-- `word[7:4]`, reserved (rule R81). -/
def reservedField (w : CmdWord) : BitVec 4 := w.extractLsb' 4 4

/-- `word[15:8]` (rule R81 `reg` / `rcv`). -/
def regField (w : CmdWord) : Byte := w.extractLsb' 8 8

/-- `word[31:16]` (rule R81 `val`). -/
def valField (w : CmdWord) : Word := w.extractLsb' 16 16

/-- The operation that `word[2:0]` names; `none` for the reserved codes (rules R82 and R90). -/
def decodeOp (op : BitVec 3) : Option Op :=
  if op = 0b000#3 then some .computePec
  else if op = 0b001#3 then some .verifyPec
  else if op = 0b010#3 then some .readWord
  else if op = 0b011#3 then some .writeWord
  else if op = 0b100#3 then some .eepromWrite
  else none

/-- One command word and the byte list beside it, read as a command (rules R81, R82, R90 and R91). -/
def decode (w : CmdWord) (data : List Byte) : Except DecodeError Instr :=
  match decodeOp (opField w) with
  | none => .error .reservedOp
  | some op =>
    if reservedField w ≠ 0 then .error .reservedBits
    else
      match op with
      | .computePec =>
        if flagField w then .error .flagNotZero
        else if regField w ≠ 0 then .error .regNotZero
        else if valField w ≠ 0 then .error .valNotZero
        else .ok (.computePec data)
      | .verifyPec =>
        if flagField w then .error .flagNotZero
        else if valField w ≠ 0 then .error .valNotZero
        else .ok (.verifyPec data (regField w))
      | .readWord =>
        if valField w ≠ 0 then .error .valNotZero
        else if data ≠ [] then .error .dataNotEmpty
        else .ok (.readWord (regField w) (flagField w))
      | .writeWord =>
        if data ≠ [] then .error .dataNotEmpty
        else .ok (.writeWord (regField w) (valField w) (flagField w))
      | .eepromWrite =>
        if data ≠ [] then .error .dataNotEmpty
        else .ok (.eepromWrite (regField w) (valField w) (flagField w))

/-- One row of rule R82's table; `carriesData` is rule R81's last line. -/
structure OpcodeRow where
  op : Op
  pattern : CmdWord
  mask : CmdWord
  carriesData : Bool
  deriving DecidableEq, Repr

/-- Rule R82's table of match and mask. -/
def opcodeRows : List OpcodeRow :=
  [ ⟨.computePec, 0x00000000#32, 0xFFFFFFFF#32, true⟩,
    ⟨.verifyPec, 0x00000001#32, 0xFFFF00FF#32, true⟩,
    ⟨.readWord, 0x00000002#32, 0xFFFF00F7#32, false⟩,
    ⟨.writeWord, 0x00000003#32, 0x000000F7#32, false⟩,
    ⟨.eepromWrite, 0x00000004#32, 0x000000F7#32, false⟩ ]

/-- A word and its data list match a row: "`word & mask = match`", with `data` empty where rule R81 requires it. -/
def OpcodeRow.accepts (row : OpcodeRow) (w : CmdWord) (data : List Byte) : Bool :=
  (w &&& row.mask == row.pattern) && (row.carriesData || data.isEmpty)

/-- `op` of the command word (rule R82). -/
def Op.code : Op → BitVec 3
  | .computePec => 0b000#3
  | .verifyPec => 0b001#3
  | .readWord => 0b010#3
  | .writeWord => 0b011#3
  | .eepromWrite => 0b100#3

/-- Assemble the fields of rule R81 into a word, bits 7:4 zero. -/
def packWord (val : Word) (reg : Byte) (f : Bool) (op : Op) : CmdWord :=
  (val.setWidth 32 <<< 16) ||| (reg.setWidth 32 <<< 8) ||| ((BitVec.ofBool f).setWidth 32 <<< 3) ||| op.code.setWidth 32

/-- The command word and the data list of a command (rules R81 and R96). -/
def encode : Instr → CmdWord × List Byte
  | .computePec data => (packWord 0 0 false .computePec, data)
  | .verifyPec data rcv => (packWord 0 rcv false .verifyPec, data)
  | .readWord reg chk => (packWord 0 reg chk .readWord, [])
  | .writeWord reg val chk => (packWord val reg chk .writeWord, [])
  | .eepromWrite reg val verify => (packWord val reg verify .eepromWrite, [])

/-- The command word made of the low `nbits` bits of `w`, every bit above them zero (DESIGN CHOICE, log entry 26). -/
def tableWord (nbits w : Nat) : CmdWord := BitVec.ofNat 32 (w % 2 ^ nbits)

/-- What the decoder reads from a row's word, with the empty data list beside it; `none` where it refuses. -/
def decodeTableWord (nbits w : Nat) : Option Instr :=
  match decode (tableWord nbits w) [] with
  | .ok i => some i
  | .error _ => none

end Sys2Proof
end

