-- ==== Sys2Proof/Machine/PecCommands.lean ====
section
/-! DEFINITION. COMPUTE_PEC and VERIFY_PEC (40_pec.md rules R113 and R114): from `Idle` to `Done` in the accepting step. -/

namespace Sys2Proof.Machine

/-- COMPUTE_PEC (rule R113). -/
def execComputePec (data : List Byte) (s : State) : Out :=
  accept (.computePec data) s fun s =>
    .next ((s.runPec data).finish (.ofPec (pec8 data)))

/-- VERIFY_PEC (rule R114): a false match is a result, not an error. -/
def execVerifyPec (data : List Byte) (rcv : Byte) (s : State) : Out :=
  accept (.verifyPec data rcv) s fun s =>
    .next ((s.runPec data).finish (.ofMatch (pec8 data == rcv)))

end Sys2Proof.Machine
end

