-- ==== Sys2Proof/Machine/Dispatch.lean ====
section
/-! DEFINITION. One arm per host command: the accepting step of 60_exceptions.md rule R226 (DEDUCED, log
entry 31). -/

namespace Sys2Proof.Machine

def exec (i : Instr) (s : State) : Host.Outcome State Fault Refusal :=
  match i with
  | .computePec data => Sys2Proof.Machine.execComputePec data s
  | .verifyPec data rcv => Sys2Proof.Machine.execVerifyPec data rcv s
  | .readWord reg chk => Sys2Proof.Machine.execReadWord reg chk s
  | .writeWord reg val chk => Sys2Proof.Machine.execWriteWord reg val chk s
  | .eepromWrite reg val verify => Sys2Proof.Machine.execEepromWrite reg val verify s

end Sys2Proof.Machine
end

