-- ==== Sys2Proof/Machine/HostSide.lean ====
section
/-! DEFINITION. The host's step (60_exceptions.md rule R226): issue a command word, read or take the result, construct the
block again. -/

namespace Sys2Proof.Machine

/-- Issue a command word. A word that spells no command is refused: no request, no result, no register changed, the mark set
(30_encoding.md rule R92; DEDUCED, log entry 7). -/
def issueCommand (w : CmdWord) (data : List Byte) (s : State) : Out :=
  match decode w data with
  | .ok i => exec i s
  | .error _ => .next s.markRefused

/-- One act of the host (rule R226). -/
def hostAct (h : HostInput) (s : State) : Out :=
  match h with
  | .command w data => issueCommand w data s
  | .readResult => hostRead s
  | .takeResult => takeResult s
  | .construct a t => reconstruct a t s

/-- The host's step: its next act, if it has one. -/
def hostTurn (s : State) : Out :=
  match s.hostIn with
  | [] => .next s
  | h :: rest => hostAct h { s with hostIn := rest }

/-- The host macros of rule R95 run to their end "at the first error": what is left to issue after a result. -/
def restAfter (r : Result) (rest : List Instr) : List Instr :=
  if r.status = .ok then rest else []

/-- RMW_FIELD's second command, from the result of its READ_WORD (rule R95). -/
def rmwSecond (reg : Byte) (mask bits : Word) (verify : Bool) (r : Result) : Option Instr :=
  rmwWrite reg mask bits verify (if r.status = .ok then r.value else none)

/-- The host's acts for a list of commands, each result taken before the next command is issued (rule R256). -/
def commandActs (cmds : List Instr) : List HostInput :=
  cmds.flatMap fun i => [.command (encode i).1 (encode i).2, .takeResult]

end Sys2Proof.Machine
end

