-- ==== Sys2Proof/Machine/Step.lean ====
section
/-! DEFINITION. One step of the machine: one transition of one agent (92_eei_decisions.md D1, 60_exceptions.md rules R205 and
R223). The schedule in State says which agent moves. -/

namespace Sys2Proof.Machine

/-- The step of the agent whose turn it is. -/
def agentTurn (t : Turn) (s : State) : Host.Outcome State Fault Refusal :=
  match t with
  | .host => hostTurn s
  | .block => blockTurn s
  | .transport => transportTurn s
  | .timer => timerTurn s
  | .tick ms => tickTurn ms s
  | .disturb r w stops => disturbTurn r w stops s

/-- One step: the next turn of the schedule, or the default turn when the schedule is empty. With nothing to do the machine
waits, unchanged. -/
def step (s : State) : Host.Outcome State Fault Refusal :=
  match s.turns with
  | t :: rest => agentTurn t { s with turns := rest }
  | [] =>
    match s.defaultTurn with
    | some t => agentTurn t s
    | none => .next s

/-- `s` with the command word of a table row waiting as the host's next act, and the host's turn next, so that the very next
step issues exactly it (DESIGN CHOICE, log entries 1 and 26). -/
def State.withFetchWord (s : State) (nbits w : Nat) : State :=
  { s with turns := .host :: s.turns, hostIn := .command (tableWord nbits w) [] :: s.hostIn }

end Sys2Proof.Machine
end

