-- ==== Sys2Proof/Machine/Wire.lean ====
section
/-! DEFINITION. What a bus request looks like on the wire (30_encoding.md rules R84 to R87) and the planning figures of
70_reset_and_hazards.md rules R260 and R261. No rule of the model depends on the figures (DEDUCED, log entry 24). -/

namespace Sys2Proof.Machine

/-- A byte or a bus condition, in wire order. -/
inductive WireItem where
  | start
  | repeatedStart
  | byte (b : Byte)
  | stop
  deriving DecidableEq, Repr

/-- The transaction of a request, with the bytes the device returned (rules R52, R84 and R85). -/
def BusRequest.wire (q : BusRequest) (returned : List Byte) : List WireItem :=
  match q with
  | .write a bs => [.start, .byte (addrW a)] ++ bs.map .byte ++ [.stop]
  | .writeRead a bs _ =>
    [.start, .byte (addrW a)] ++ bs.map .byte ++ [.repeatedStart, .byte (addrR a)] ++ returned.map .byte ++ [.stop]

/-- The bytes among the wire items, in order. -/
def wireBytes (items : List WireItem) : List Byte :=
  items.filterMap fun
    | .byte b => some b
    | .start => none
    | .repeatedStart => none
    | .stop => none

/-- Rule R261's estimate: nine clock periods a byte, one for each start, repeated start and stop. -/
def bitPeriods (items : List WireItem) : Nat :=
  9 * (wireBytes items).length + (items.length - (wireBytes items).length)

/-- Rule R260: a successful EEPROM_WRITE takes at least twice the delay. -/
def eepromWriteMinMs (cfg : BlockConfig) : Nat := 2 * cfg.writeTimeMs.toNat

end Sys2Proof.Machine
end

