-- ==== Sys2Proof/Safety.lean ====
section
/-! DEFINITION. What the claims call a legal state, a legal history and a host that keeps its duties: the invariant `Inv`,
the command trace `TraceInv`, and the duties of 70_reset_and_hazards.md section 3. -/

namespace Sys2Proof.Safety

open Sys2Proof.Machine

/-! ### Legal results -/

/-- The statuses a command can end with (60_exceptions.md rules R200 and R201): never codes 5, 6 or 7 to 255. -/
def writtenStatuses : List ErrCode := [.ok, .busError, .pecMismatch, .invalidRegister, .eepromVerify]

/-- A result some command can have written (rules R33, R173, R200 and R201). -/
structure ResultLegal (r : Result) : Prop where
  status : r.status ∈ writtenStatuses
  indeterminate : r.indeterminate = r.failedState.isSome
  failedState : ∀ S, r.failedState = some S → S.isEepromRequest = true ∧ r.status ≠ .ok
  busInfo : r.busInfo.isSome = true ↔ r.status = .busError
  value : r.value.isSome = true → r.status = .ok ∨ r.status = .eepromVerify
  verify : r.status = .eepromVerify → r.value.isSome = true ∧ r.failedState = some .verifying
  pec : r.pec.isSome = true → r.status = .ok
  pecMatch : r.pecMatch.isSome = true → r.status = .ok

/-- Rule R88's table of legal registers, in numbers. -/
def RegisterLegal : Instr → Prop
  | .readWord reg _ => 0x10 ≤ reg.toNat ∧ reg.toNat ≤ 0x1F ∨ 0x25 ≤ reg.toNat ∧ reg.toNat ≤ 0x27
  | .writeWord reg _ _ => 0x10 ≤ reg.toNat ∧ reg.toNat ≤ 0x1F ∨ 0x25 ≤ reg.toNat ∧ reg.toNat ≤ 0x27
  | .eepromWrite reg _ _ => 0x10 ≤ reg.toNat ∧ reg.toNat ≤ 0x1F
  | .computePec _ => True
  | .verifyPec _ _ => True

/-! ### The controller -/

/-- No bus request is outstanding and the timer is unarmed. -/
def NoLiveEvent (s : State) : Prop := s.pending = none ∧ s.tmrArmed = false

/-- The one bus request of a register command whose register is legal (41_register_access.md rules R131, R135 and R138). -/
def accessRequest (a : BusAddr) : Instr → Option BusRequest
  | .readWord reg _ => if validReg .readWord reg then some (readRequest a reg) else none
  | .writeWord reg val _ => if validReg .writeWord reg then some (writeRequest a reg val) else none
  | .computePec _ => none
  | .verifyPec _ _ => none
  | .eepromWrite _ _ _ => none

/-- `d` is the descriptor of the EEPROM_WRITE in `cmd` (10_state.md rule R28, 42_eeprom_writer.md rules R161 and R162). -/
structure JobOf (s : State) (d : EepromDescriptor) : Prop where
  desc : s.desc = some d
  cmd : s.cmd = some (.eepromWrite d.reg d.newVal d.verify)
  reg : inEeprom d.reg = true
  prev : d.prev = none
  delay : d.delayMs = s.cfg.writeTimeMs

/-- An EEPROM sequence in a state that makes request `q` of its descriptor: not waiting, and nothing but `q` outstanding. -/
def Requesting (s : State) (q : EepromDescriptor → BusRequest) : Prop :=
  s.tmrArmed = false ∧ ∃ d, JobOf s d ∧ (s.pending = none ∨ s.pending = some (q d))

/-- An EEPROM sequence in a delay state (rules R32 and R165). -/
def Waiting (s : State) : Prop :=
  s.pending = none ∧ s.tmrArmed = true ∧ ∃ d, JobOf s d ∧ s.tmrMs = some d.delayMs

/-- What each controller state promises about the other registers (10_state.md rules R25 to R32, 60_exceptions.md rule
R205). -/
def CtrlInv (s : State) : Prop :=
  match s.st with
  | .idle => NoLiveEvent s
  | .regAccess =>
    s.tmrArmed = false ∧
      ∃ i q, s.cmd = some i ∧ accessRequest s.cfg.busAddress i = some q ∧ (s.pending = none ∨ s.pending = some q)
  | .erasing => Requesting s fun d => writeRequest s.cfg.busAddress d.reg eraseValue
  | .awaitEraseDelay => Waiting s
  | .writing => Requesting s fun d => writeRequest s.cfg.busAddress d.reg d.newVal
  | .awaitWriteDelay => Waiting s
  | .verifying =>
    Requesting s (fun d => readRequest s.cfg.busAddress d.reg) ∧ ∀ d, s.desc = some d → d.verify = true
  | .done => NoLiveEvent s ∧ s.cmd ≠ none ∧ ∃ r, s.res = some r ∧ r.status = .ok
  | .error => NoLiveEvent s ∧ s.cmd ≠ none ∧ ∃ r, s.res = some r ∧ r.status ≠ .ok

/-! ### The bus history -/

/-- What the bus history has left open: nothing, a request, or a wait. -/
inductive Phase where
  | quiet
  | asking (q : BusRequest)
  | waiting
  deriving DecidableEq, Repr

/-- One event of a well-ordered history; `none` when it is out of order (20_memory.md rules R53, R54 and R64). -/
def Phase.next (p : Phase) (e : BusEvent) : Option Phase :=
  match p, e with
  | .quiet, .issue q => some (.asking q)
  | .asking q, .answer q' _ => if q = q' then some .quiet else none
  | .quiet, .waitStart _ => some .waiting
  | .waiting, .waitEnd => some .quiet
  | _, _ => none

/-- The phase a history leaves, when every request in it is answered before anything else happens. -/
def historyPhase (h : List BusEvent) : Option Phase := h.foldlM Phase.next .quiet

/-- The phase the registers show (rule R205). -/
def livePhase (s : State) : Phase :=
  match s.pending with
  | some q => .asking q
  | none => if s.tmrArmed then .waiting else .quiet

/-- A request the block may make: one of the two frames, at `CFG.bus_address`, to a legal register, its PEC right
(30_encoding.md rules R84, R85 and R88; 20_memory.md rules R51 and R52). -/
def LegalRequest (a : BusAddr) (q : BusRequest) : Prop :=
  ∃ r, (inEeprom r || inRam r) = true ∧ (q = readRequest a r ∨ ∃ v, q = writeRequest a r v)

/-! ### The invariant -/

/-- What every step keeps: the controller's promises, legal results, a whole receive buffer, a well-ordered history that
agrees with the registers, and only legal requests in it. -/
structure Inv (s : State) : Prop where
  ctrl : CtrlInv s
  res : ∀ r, s.res = some r → ResultLegal r
  log : ∀ r, r ∈ s.resultLog → ResultLegal r
  rx : ∀ bs, s.rx = some bs → bs.length = Config.readLen
  hist : historyPhase s.hist = some (livePhase s)
  bus : ∀ q, BusEvent.issue q ∈ s.hist → LegalRequest s.cfg.busAddress q

/-! ### The trace of a command -/

/-- The events of an outstanding request. -/
def outstanding : Option BusRequest → List BusEvent
  | none => []
  | some q => [.issue q]

/-- A request and its answer. -/
def asked (q : BusRequest) (r : BusAnswer) : List BusEvent := [.issue q, .answer q r]

/-- A delay and its end. -/
def waited (t : Millis) : List BusEvent := [.waitStart t, .waitEnd]

/-- The events of an EEPROM_WRITE up to `Writing` (42_eeprom_writer.md rule R171). -/
def throughErase (a : BusAddr) (d : EepromDescriptor) : List BusEvent :=
  asked (writeRequest a d.reg eraseValue) (.ok []) ++ waited d.delayMs

/-- The events of an EEPROM_WRITE up to `Verifying`, or to `Done` without a verify (rule R171). -/
def throughWrite (a : BusAddr) (d : EepromDescriptor) : List BusEvent :=
  throughErase a d ++ asked (writeRequest a d.reg d.newVal) (.ok []) ++ waited d.delayMs

/-- The one answer a verify read passes on (rules R169 and R171). -/
def verifyingAnswerOf (a : BusAddr) (d : EepromDescriptor) : BusAnswer :=
  .ok [lo8 d.newVal, hi8 d.newVal, pec8 (readCovered a d.reg (lo8 d.newVal) (hi8 d.newVal))]

/-- The whole history of a successful EEPROM_WRITE (rule R171). -/
def eepromHistory (a : BusAddr) (d : EepromDescriptor) : List BusEvent :=
  if d.verify then throughWrite a d ++ asked (readRequest a d.reg) (verifyingAnswerOf a d) else throughWrite a d

/-- How the history ends when a command has ended in `Done`. -/
def DoneTrace (s : State) : Prop :=
  match s.cmd with
  | none => False
  | some (.computePec _) => True
  | some (.verifyPec _ _) => True
  | some (.readWord reg chk) =>
    ∃ l h p, asked (readRequest s.cfg.busAddress reg) (.ok [l, h, p]) <:+ s.hist ∧
      s.res = some (Result.ofValue (word l h)) ∧
      (chk = true → p = pec8 (readCovered s.cfg.busAddress reg l h))
  | some (.writeWord reg val _) => asked (writeRequest s.cfg.busAddress reg val) (.ok []) <:+ s.hist
  | some (.eepromWrite _ _ _) => ∃ d, JobOf s d ∧ eepromHistory s.cfg.busAddress d <:+ s.hist

/-- How the history ends when an EEPROM_WRITE has ended in `Error` in state `S` (rule R172). -/
def FailedTrace (s : State) (S : CtrlState) : Prop :=
  ∃ d, JobOf s d ∧
    match S with
    | .erasing =>
      ∃ e, asked (writeRequest s.cfg.busAddress d.reg eraseValue) (.busError e) <:+ s.hist
    | .writing =>
      ∃ e, throughErase s.cfg.busAddress d ++ asked (writeRequest s.cfg.busAddress d.reg d.newVal) (.busError e) <:+ s.hist
    | .verifying =>
      ∃ r, r ≠ verifyingAnswerOf s.cfg.busAddress d ∧
        throughWrite s.cfg.busAddress d ++ asked (readRequest s.cfg.busAddress d.reg) r <:+ s.hist
    | .idle => False
    | .regAccess => False
    | .awaitEraseDelay => False
    | .awaitWriteDelay => False
    | .done => False
    | .error => False

/-- The history ends with exactly the events the command in progress, or just ended, has caused so far (rules R136, R138,
R171, R172 and R175). -/
def TraceInv (s : State) : Prop :=
  match s.st with
  | .idle => True
  | .regAccess => outstanding s.pending <:+ s.hist
  | .erasing => outstanding s.pending <:+ s.hist
  | .awaitEraseDelay =>
    ∃ d, JobOf s d ∧
      asked (writeRequest s.cfg.busAddress d.reg eraseValue) (.ok []) ++ [.waitStart d.delayMs] <:+ s.hist
  | .writing => ∃ d, JobOf s d ∧ throughErase s.cfg.busAddress d ++ outstanding s.pending <:+ s.hist
  | .awaitWriteDelay =>
    ∃ d, JobOf s d ∧
      throughErase s.cfg.busAddress d ++ asked (writeRequest s.cfg.busAddress d.reg d.newVal) (.ok []) ++
        [.waitStart d.delayMs] <:+ s.hist
  | .verifying => ∃ d, JobOf s d ∧ throughWrite s.cfg.busAddress d ++ outstanding s.pending <:+ s.hist
  | .done => DoneTrace s
  | .error => ∀ r S, s.res = some r → r.failedState = some S → FailedTrace s S

/-! ### The host -/

/-- The next step is turn `t`: the schedule names it, or it is the default turn of an empty schedule. -/
def TakesTurn (s : State) (t : Turn) : Prop :=
  s.turns.head? = some t ∨ (s.turns = [] ∧ s.defaultTurn = some t)

/-- The next step is the host constructing the block again, the one act that replaces the block's state (rule R243). -/
def Reconstructs (s : State) : Prop :=
  TakesTurn s .host ∧ ∃ a t, s.hostIn.head? = some (.construct a t)

/-- Nothing without a meaning has been asked (rules R92, R227 and R243): the premise of every claim about a run. -/
def NothingRefused (s : State) : Prop := s.refused = false

/-- Rule R250: a nonzero WRITE_WORD to an EEPROM word only when the word is zero. -/
def dutyEraseFirst (i : Instr) (dev : Device) : Bool :=
  match i with
  | .writeWord reg val _ => !(inEeprom reg && val != 0) || dev.word reg == 0
  | .computePec _ => true
  | .verifyPec _ _ => true
  | .readWord _ _ => true
  | .eepromWrite _ _ _ => true

/-- Rule R251: the delay is at least the device's erase/write time. -/
def DutyDelay (cfg : BlockConfig) (dev : Device) : Prop := dev.minMs ≤ cfg.writeTimeMs.toNat

/-- Rule R252: no write cycle is less than `T_DEV_MIN_MS` old when the next request goes out. -/
def DutyQuiet (dev : Device) : Prop := dev.anyYoung = false ∧ dev.settle = dev

end Sys2Proof.Safety
end

