-- ==== Sys2Proof/Certificates/Slice0/Obligations.lean ====
section
/-! DEFINITION. The statements for the provers. Each docstring names the rule it formalises, or, where it rests on a choice of
the model, the log entry. -/

open Sys2Proof Sys2Proof.Machine Sys2Proof.Safety

/-! ### Encoding -/

/-- Decode and encode agree (30_encoding.md section 1): the word and data of a command decode to that command. -/
def Obligations.EncodedCommandDecodesBack : Prop :=
  ∀ i : Instr, i.wellFormed = true → decode (encode i).1 (encode i).2 = .ok i

/-- The other direction (30_encoding.md section 1): a command has one spelling only. -/
def Obligations.DecodedWordHasOneSpelling : Prop :=
  ∀ (w : CmdWord) (data : List Byte) (i : Instr), decode w data = .ok i → encode i = (w, data)

/-- Rule R82: a word decodes to a command exactly when `word & mask = match` for that command's row (with `data` as rule R81
requires), the rows are disjoint, and the operands are the fields `word[3]`, `word[15:8]` and `word[31:16]`. -/
def Obligations.WordSpellsCommandExactlyWhenItsRowMatches : Prop :=
  (∀ (w : CmdWord) (data : List Byte) (op : Op),
    (∃ i, decode w data = .ok i ∧ i.op = op) ↔ ∃ row ∈ opcodeRows, row.op = op ∧ row.accepts w data = true) ∧
  (∀ (w : CmdWord) (data : List Byte) (row row' : OpcodeRow), row ∈ opcodeRows → row' ∈ opcodeRows →
    row.accepts w data = true → row'.accepts w data = true → row = row') ∧
  (∀ (w : CmdWord) (data : List Byte) (i : Instr), decode w data = .ok i →
    match i with
    | .computePec d => d = data
    | .verifyPec d rcv => d = data ∧ rcv.toNat = w.toNat / 256 % 256
    | .readWord reg f => data = [] ∧ reg.toNat = w.toNat / 256 % 256 ∧ f = w.toNat.testBit 3
    | .writeWord reg val f =>
      data = [] ∧ reg.toNat = w.toNat / 256 % 256 ∧ val.toNat = w.toNat / 65536 ∧ f = w.toNat.testBit 3
    | .eepromWrite reg val f =>
      data = [] ∧ reg.toNat = w.toNat / 256 % 256 ∧ val.toNat = w.toNat / 65536 ∧ f = w.toNat.testBit 3)

/-- The worked encodings of 30_encoding.md section 5. -/
def Obligations.WorkedEncodingsDecode : Prop :=
  decode 0x0000270A#32 [] = .ok (.readWord 0x27 true) ∧
  decode 0x00001303#32 [] = .ok (.writeWord 0x13 0x0000 false) ∧
  decode 0xFFFF130C#32 [] = .ok (.eepromWrite 0x13 0xFFFF true) ∧
  (∀ data, decode 0x0000F401#32 data = .ok (.verifyPec data 0xF4)) ∧
  (∀ data, decode 0x00000000#32 data = .ok (.computePec data))

/-! ### The host's step -/

/-- A step whose turn is the host's, scheduled or by default, with a command word next, is `exec` of the command the word and its
data decode to, the turn and the act taken off their queues (60_exceptions.md section 9; the queues and the default turn are the
model's, DESIGN CHOICE, log entries 1 and 2); so is the step after `withFetchWord`. -/
def Obligations.StepRunsTheDecodedCommand : Prop :=
  (∀ (s : State) (w : CmdWord) (data : List Byte) (rest : List HostInput) (i : Instr),
    TakesTurn s .host → s.hostIn = .command w data :: rest → decode w data = .ok i →
      step s = exec i { s with turns := s.turns.tail, hostIn := rest }) ∧
  (∀ (s : State) (nbits w : Nat) (i : Instr), decodeTableWord nbits w = some i →
    step (s.withFetchWord nbits w) = exec i s)

/-- A word that spells no command changes nothing but the refused mark (30_encoding.md section 3), and no step but a
construction clears the mark (that a construction does is DEDUCED, log entry 10). -/
def Obligations.WordThatSpellsNoCommandOnlySetsTheMark : Prop :=
  (∀ (s : State) (w : CmdWord) (data : List Byte) (rest : List HostInput) (e : DecodeError),
    TakesTurn s .host → s.hostIn = .command w data :: rest → decode w data = .error e →
      step s = .next { s with turns := s.turns.tail, hostIn := rest, refused := true }) ∧
  (∀ s s' : State, s.refused = true → step s = .next s' → ¬ Reconstructs s → s'.refused = true)

/-- Rule R227: a command issued while `st != Idle` is refused, and nothing else changes. -/
def Obligations.CommandWhileBusyIsRefused : Prop :=
  ∀ (i : Instr) (s : State), s.st ≠ .idle → exec i s = .next { s with refused := true }

/-- The frame of every command's accepting step (40_pec.md section 2, 41_register_access.md sections 2 and 3,
42_eeprom_writer.md section 1): no configuration, no bus history, no receive buffer, no timer duration, none of the host's
log, no input and no device word changes; `crc` changes in a PEC command only, `desc` in EEPROM_WRITE only, `res` only when
the command ends, and no request is issued. -/
def Obligations.AcceptingStepFrame : Prop :=
  ∀ (i : Instr) (s t : State), exec i s = .next t →
    t.cfg = s.cfg ∧ t.hist = s.hist ∧ t.rx = s.rx ∧ t.tmrMs = s.tmrMs ∧ t.resultLog = s.resultLog ∧
    t.turns = s.turns ∧ t.hostIn = s.hostIn ∧ t.replies = s.replies ∧ t.sim = s.sim ∧
    (i.op ≠ .computePec → i.op ≠ .verifyPec → t.crc = s.crc) ∧
    (i.op ≠ .eepromWrite → t.desc = s.desc) ∧
    (t.st ≠ .done → t.st ≠ .error → t.res = s.res) ∧
    (t.pending = s.pending ∨ t.pending = none) ∧ (t.tmrArmed = true → s.tmrArmed = true) ∧
    (s.st = .idle → t.cmd = some i ∧ t.refused = s.refused)

/-! ### Reset -/

/-- Rule R240: every element of the block after construction, the arguments and their defaults, and that a `bus_address` above
0x7F constructs no block (the machine stays as it was; that the mark tells of it is DEDUCED, log entry 11). -/
def Obligations.ConstructionLeavesTheResetValues : Prop :=
  (∀ cfg : BlockConfig,
    (State.constructed cfg).cfg = cfg ∧ (State.constructed cfg).st = .idle ∧ (State.constructed cfg).cmd = none ∧
    (State.constructed cfg).desc = none ∧ (State.constructed cfg).pending = none ∧ (State.constructed cfg).crc = 0x00 ∧
    (State.constructed cfg).rx = none ∧ (State.constructed cfg).tmrArmed = false ∧
    (State.constructed cfg).tmrMs = none ∧ (State.constructed cfg).res = none ∧ (State.constructed cfg).hist = [] ∧
    (State.constructed cfg).refused = false ∧ hostAct .readResult (State.constructed cfg) = .fault .resAbsent) ∧
  State.reset = State.constructed ⟨0x5B, 50⟩ ∧
  (∀ a t : Nat, a ≤ 0x7F → t ≤ 65535 →
    configOfArgs (some a) (some t) = some ⟨BitVec.ofNat 7 a, BitVec.ofNat 16 t⟩ ∧
    configOfArgs none (some t) = some ⟨0x5B, BitVec.ofNat 16 t⟩ ∧
    configOfArgs (some a) none = some ⟨BitVec.ofNat 7 a, 50⟩ ∧ configOfArgs none none = some ⟨0x5B, 50⟩) ∧
  (∀ (s : State) (a : Nat) (t : Option Nat), 0x7F < a →
    configOfArgs (some a) t = none ∧ ∃ mark, hostAct (.construct (some a) t) s = .next { s with refused := mark })

/-- 70_reset_and_hazards.md section 1: constructing again in `Idle`, `Done` or `Error` replaces the whole block state; with a command
in progress it is refused. That a construction also empties `hist` and clears the refused mark, which 10_state.md section 7 sets
outside the block's state and calls never cleared, is DEDUCED, log entry 10. -/
def Obligations.ConstructingAgainReplacesTheBlockState : Prop :=
  ∀ (s : State) (a t : Option Nat) (cfg : BlockConfig), configOfArgs a t = some cfg →
    ((s.st = .idle ∨ s.st = .done ∨ s.st = .error) →
      ∃ u, hostAct (.construct a t) s = .next u ∧ u.cfg = cfg ∧ u.st = .idle ∧ u.cmd = none ∧ u.desc = none ∧
        u.pending = none ∧ u.crc = 0x00 ∧ u.rx = none ∧ u.tmrArmed = false ∧ u.tmrMs = none ∧ u.res = none ∧
        u.hist = [] ∧ u.refused = false) ∧
    (s.st ≠ .idle → s.st ≠ .done → s.st ≠ .error →
      hostAct (.construct a t) s = .next { s with refused := true })

/-- The model's choices about construction: an argument out of its range (10_state.md section 2) sets the mark and changes
nothing else (DEDUCED, log entry 11); the host's log, the inputs and the device outlive a construction (DEDUCED, log entry 10). -/
def Obligations.IllegalConstructionIsRefused : Prop :=
  (∀ (s : State) (a t : Option Nat), (∃ n, a = some n ∧ 0x7F < n) ∨ (∃ n, t = some n ∧ 65535 < n) →
    hostAct (.construct a t) s = .next { s with refused := true }) ∧
  (∀ (s u : State) (a t : Option Nat), hostAct (.construct a t) s = .next u →
    u.resultLog = s.resultLog ∧ u.turns = s.turns ∧ u.hostIn = s.hostIn ∧ u.replies = s.replies ∧ u.sim = s.sim)

/-- 10_state.md section 2: no command, bus event, timer event or error changes `CFG`, and every request the block issues
carries `CFG.bus_address`, until the block is constructed again. -/
def Obligations.ConfigurationChangesOnlyAtConstruction : Prop :=
  (∀ s s' : State, step s = .next s' → ¬ Reconstructs s → s'.cfg = s.cfg) ∧
  (∀ (s s' : State) (q : BusRequest), step s = .next s' → s.pending = none → s'.pending = some q →
    match q with
    | .write a _ => a = s.cfg.busAddress
    | .writeRead a _ _ => a = s.cfg.busAddress)

/-! ### The PEC generator -/

/-- Rule R113: COMPUTE_PEC, word 0x00000000, accepted in `Idle`, ends in the same step with the PEC of its data, for data of
every length. What `crc` holds afterwards is left open here (DESIGN CHOICE, log entry 4). -/
def Obligations.ComputePecReturnsThePec : Prop :=
  (∀ data, decode 0x00000000#32 data = .ok (.computePec data)) ∧
  (∀ n, pec8 (List.replicate n 0x00) = 0x00) ∧ (∀ b, pec8 [b] = pecTableAt b) ∧
  pec8 [0x31, 0x32, 0x33, 0x34, 0x35, 0x36, 0x37, 0x38, 0x39] = 0xF4 ∧
  ∀ (data : List Byte) (s : State), s.st = .idle →
    ∃ c, exec (.computePec data) s = .next { s with
      cmd := some (.computePec data), crc := c, st := .done
      res := some { status := .ok, value := none, pec := some (pec8 data), pecMatch := none, failedState := none,
                    indeterminate := false, busInfo := none } }

/-- Rule R114: VERIFY_PEC, word `0x0000rr01`, accepted in `Idle`, ends in the same step with the comparison, and a false match
is no error. It matches exactly when the PEC of the data followed by `rcv` is zero; flipping any one bit of data of any length,
or of `rcv`, undoes a match; and empty data matches zero only. -/
def Obligations.VerifyPecComparesThePec : Prop :=
  (∀ (data : List Byte) (rcv : Byte),
    decode (BitVec.ofNat 32 (rcv.toNat * 256 + 1)) data = .ok (.verifyPec data rcv)) ∧
  (∀ (data : List Byte) (rcv : Byte) (s : State), s.st = .idle →
    ∃ c, exec (.verifyPec data rcv) s = .next { s with
      cmd := some (.verifyPec data rcv), crc := c, st := .done
      res := some { status := .ok, value := none, pec := none, pecMatch := some (decide (pec8 data = rcv)),
                    failedState := none, indeterminate := false, busInfo := none } }) ∧
  (∀ (data : List Byte) (rcv : Byte), pec8 data = rcv ↔ pec8 (data ++ [rcv]) = 0x00) ∧
  (∀ (data : List Byte) (k : Nat) (b : Byte) (j : Nat), data[k]? = some b → j < 8 →
    pec8 (data.set k (b ^^^ (1#8 <<< j))) ≠ pec8 data) ∧
  (∀ (data : List Byte) (rcv : Byte) (j : Nat), pec8 data = rcv → j < 8 → pec8 data ≠ rcv ^^^ (1#8 <<< j)) ∧
  (∀ rcv : Byte, pec8 [] = rcv ↔ rcv = 0x00)

/-- 40_pec.md section 3: the transcribed byte table is `pec_step` on `c ^ b`. -/
def Obligations.PecStepIsTheByteTable : Prop :=
  ∀ c b : Byte, pecStep c b = pecTableAt (c ^^^ b)

/-- 40_pec.md section 1: the PEC appended to its bytes leaves zero, and leading zero bytes do not change a PEC. -/
def Obligations.PecAppendedToItsBytesLeavesZero : Prop :=
  ∀ bs : List Byte, pec8 (bs ++ [pec8 bs]) = 0x00 ∧ ∀ n, pec8 (List.replicate n 0x00 ++ bs) = pec8 bs

/-- 40_pec.md section 1: the PEC is linear on lists of equal length. -/
def Obligations.PecIsLinear : Prop :=
  ∀ as bs : List Byte, as.length = bs.length →
    pec8 (List.zipWith (· ^^^ ·) as bs) = pec8 as ^^^ pec8 bs

/-- A byte as a polynomial over GF(2), bit `i` the coefficient of x^i. -/
noncomputable def bytePolynomial (b : Byte) : Polynomial (ZMod 2) :=
  ∑ i ∈ Finset.range 8, if b.getLsbD i then Polynomial.X ^ i else 0

/-- A message as a polynomial over GF(2), bit 7 of the first byte its highest coefficient. -/
noncomputable def messagePolynomial (bs : List Byte) : Polynomial (ZMod 2) :=
  bs.foldl (fun m b => m * Polynomial.X ^ 8 + bytePolynomial b) 0

/-- The polynomial reading of 40_pec.md section 1 (general knowledge, 93_implementation_defined.md G3): the PEC is the
remainder of `M(x) * x^8` divided by x^8 + x^2 + x + 1 over GF(2). -/
def Obligations.PecIsThePolynomialRemainder : Prop :=
  ∀ bs : List Byte,
    bytePolynomial (pec8 bs) =
      (messagePolynomial bs * Polynomial.X ^ 8) %ₘ
        (Polynomial.X ^ 8 + Polynomial.X ^ 2 + Polynomial.X + 1 : Polynomial (ZMod 2))

/-! ### Frames and registers -/

/-- Rules R84 and R85: the two requests at `CFG.bus_address`, the states that issue each, the frames on the wire with their
lengths, and the bytes each PEC covers. -/
def Obligations.FramesOnTheWire : Prop :=
  (∀ (s : State) (r : Byte) (v : Word), s.pending = none →
    (s.st = .regAccess ∧ (∃ f, s.cmd = some (.writeWord r v f))) ∨
      (∃ d, s.desc = some d ∧ d.reg = r ∧ (s.st = .erasing ∧ v = 0 ∨ s.st = .writing ∧ v = d.newVal)) →
    let a := s.cfg.busAddress
    let p := pec8 [addrW a, r, lo8 v, hi8 v]
    let q : BusRequest := .write a [r, lo8 v, hi8 v, p]
    (∃ t, agentTurn .block s = .next t ∧ t.pending = some q) ∧
    q.wire [] = [.start, .byte (addrW a), .byte r, .byte (lo8 v), .byte (hi8 v), .byte p, .stop] ∧
    (wireBytes (q.wire [])).length = 5) ∧
  (∀ (s : State) (r l h p : Byte), s.pending = none →
    (s.st = .regAccess ∧ (∃ f, s.cmd = some (.readWord r f))) ∨ (∃ d, s.desc = some d ∧ d.reg = r ∧ s.st = .verifying) →
    let a := s.cfg.busAddress
    let q : BusRequest := .writeRead a [r] 3
    (∃ t, agentTurn .block s = .next t ∧ t.pending = some q) ∧
    q.wire [l, h, p] =
      [.start, .byte (addrW a), .byte r, .repeatedStart, .byte (addrR a), .byte l, .byte h, .byte p, .stop] ∧
    (wireBytes (q.wire [l, h, p])).length = 6 ∧
    ((raReadOutcome r true (.ok [l, h, p]) s).1 = .ok (word l h) ↔ p = pec8 [addrW a, r, addrR a, l, h]) ∧
    ((raReadOutcome r true (.ok [l, h, p]) s).1 = .pec ↔ p ≠ pec8 [addrW a, r, addrR a, l, h]))

/-- The address byte's layout (general knowledge, 92_eei_decisions.md D28; PRESUMED, log entry 23) and the byte order of a register word
(20_memory.md section 3). -/
def Obligations.AddressAndWordBytes : Prop :=
  (∀ a : BusAddr, (addrW a).toNat = 2 * a.toNat ∧ (addrR a).toNat = 2 * a.toNat + 1) ∧
  (∀ v : Word, (lo8 v).toNat = v.toNat % 256 ∧ (hi8 v).toNat = v.toNat / 256) ∧
  (∀ l h : Byte, (word l h).toNat = h.toNat * 256 + l.toNat ∧ lo8 (word l h) = l ∧ hi8 (word l h) = h)

/-- Rules R88, R131 and R161: a register command whose register is legal for it is accepted, and one whose register is not
ends in the accepting step with `InvalidRegisterError`, with no request, no PEC computed and no other change. -/
def Obligations.OnlyLegalRegistersAreAccepted : Prop :=
  ∀ (i : Instr) (s : State), s.st = .idle → i.op ≠ .computePec → i.op ≠ .verifyPec →
    (RegisterLegal i → ∃ t, exec i s = .next t ∧ (t.st = .regAccess ∨ t.st = .erasing) ∧ t.res = s.res) ∧
    (¬ RegisterLegal i → exec i s = .next { s with
      cmd := some i, pending := none, tmrArmed := false, st := .error
      res := some { status := .invalidRegister, value := none, pec := none, pecMatch := none, failedState := none,
                    indeterminate := false, busInfo := none } })

/-- Rules R130 and R132: READ_WORD to a legal register, accepted in `Idle` with no event live, issues its one request, and
the transport's answer ends it: with the word, low byte first, or with `BusError`, `ShortRead` or, only with the check on,
`PecMismatchError`; to any other register it ends at acceptance. A frame read back at another bus address has another PEC.
Nothing but the named registers changes; what `crc` holds (DESIGN CHOICE, log entry 4) and what an attached device does (DESIGN
CHOICE, log entry 33) are left open here. -/
def Obligations.ReadWordReadsOneWord : Prop :=
  (∀ (reg : Byte) (chk : Bool),
    decode (BitVec.ofNat 32 (reg.toNat * 256 + (if chk then 8 else 0) + 2)) [] = .ok (.readWord reg chk)) ∧
  (∀ (a b : BusAddr) (r l h : Byte), a ≠ b → pec8 [addrW a, r, addrR a, l, h] ≠ pec8 [addrW b, r, addrR b, l, h]) ∧
  (∀ (reg : Byte) (chk : Bool) (s : State), s.st = .idle →
    ¬ (0x10 ≤ reg.toNat ∧ reg.toNat ≤ 0x1F ∨ 0x25 ≤ reg.toNat ∧ reg.toNat ≤ 0x27) →
    exec (.readWord reg chk) s = .next { s with
      cmd := some (.readWord reg chk), pending := none, tmrArmed := false, st := .error
      res := some (Result.plain .invalidRegister) }) ∧
  ∀ (reg : Byte) (chk : Bool) (s : State) (ans : BusAnswer) (rest : List Reply),
    s.st = .idle → s.pending = none → s.tmrArmed = false → s.replies = .given ans :: rest →
    (0x10 ≤ reg.toNat ∧ reg.toNat ≤ 0x1F ∨ 0x25 ≤ reg.toNat ∧ reg.toNat ≤ 0x27) →
    let q : BusRequest := .writeRead s.cfg.busAddress [reg] 3
    let t : State := { s with cmd := some (.readWord reg chk), st := .regAccess }
    exec (.readWord reg chk) s = .next t ∧
    ∃ dev, let u : State := { t with pending := some q, hist := s.hist ++ [.issue q], sim := dev }
      agentTurn .block t = .next u ∧
    ∃ c x S r dev', agentTurn .transport u = .next { t with
        st := S, crc := c, rx := x, res := some r, hist := s.hist ++ [.issue q, .answer q ans], replies := rest
        sim := dev' } ∧
      match ans with
      | .busError e => S = .error ∧ x = s.rx ∧ r = { Result.plain .busError with busInfo := some (.transport e) }
      | .ok [l, h, p] =>
        x = some [l, h, p] ∧
        if chk = true ∧ pec8 [addrW s.cfg.busAddress, reg, addrR s.cfg.busAddress, l, h] ≠ p then
          S = .error ∧ r = Result.plain .pecMismatch
        else S = .done ∧ r = { Result.plain .ok with value := some (word l h) }
      | .ok _ => S = .error ∧ x = s.rx ∧ r = { Result.plain .busError with busInfo := some .shortRead }

/-- Rules R133 and R134: WRITE_WORD to a legal register, whatever its `check_pec`, issues its one write frame with the PEC,
and the transport's answer ends it; it never ends in a PEC mismatch. To any other register it ends at acceptance. What `crc`
holds (DESIGN CHOICE, log entry 4) and what an attached device does (DESIGN CHOICE, log entry 33) are left open here; the bare
`Ok` of rule R53 is recorded as `ok []` (DESIGN CHOICE, log entry 13). -/
def Obligations.WriteWordWritesOneWord : Prop :=
  (∀ (reg : Byte) (val : Word) (chk : Bool),
    decode (BitVec.ofNat 32 (val.toNat * 65536 + reg.toNat * 256 + (if chk then 8 else 0) + 3)) [] =
      .ok (.writeWord reg val chk)) ∧
  (∀ (reg : Byte) (val : Word) (chk : Bool) (s : State), s.st = .idle →
    ¬ (0x10 ≤ reg.toNat ∧ reg.toNat ≤ 0x1F ∨ 0x25 ≤ reg.toNat ∧ reg.toNat ≤ 0x27) →
    exec (.writeWord reg val chk) s = .next { s with
      cmd := some (.writeWord reg val chk), pending := none, tmrArmed := false, st := .error
      res := some (Result.plain .invalidRegister) }) ∧
  ∀ (reg : Byte) (val : Word) (chk : Bool) (s : State) (ans : BusAnswer) (rest : List Reply),
    s.st = .idle → s.pending = none → s.tmrArmed = false → s.replies = .given ans :: rest →
    (0x10 ≤ reg.toNat ∧ reg.toNat ≤ 0x1F ∨ 0x25 ≤ reg.toNat ∧ reg.toNat ≤ 0x27) →
    let a := s.cfg.busAddress
    let q : BusRequest := .write a [reg, lo8 val, hi8 val, pec8 [addrW a, reg, lo8 val, hi8 val]]
    let t : State := { s with cmd := some (.writeWord reg val chk), st := .regAccess }
    exec (.writeWord reg val chk) s = .next t ∧
    ∃ c dev, let u : State := { t with crc := c, pending := some q, hist := s.hist ++ [.issue q], sim := dev }
      agentTurn .block t = .next u ∧
    ∃ S r ans' dev', agentTurn .transport u = .next { t with
        st := S, crc := c, res := some r, hist := s.hist ++ [.issue q, .answer q ans'], replies := rest, sim := dev' } ∧
      match ans with
      | .busError e =>
        S = .error ∧ ans' = .busError e ∧ r = { Result.plain .busError with busInfo := some (.transport e) }
      | .ok _ => S = .done ∧ ans' = .ok [] ∧ r = Result.plain .ok

/-! ### The EEPROM write controller -/

/-- Rule R162: EEPROM_WRITE to an EEPROM register, accepted in `Idle`, writes its descriptor and goes to `Erasing`. -/
def Obligations.EepromWriteIsAccepted : Prop :=
  ∀ (reg : Byte) (val : Word) (verify : Bool) (s : State), s.st = .idle →
    0x10 ≤ reg.toNat ∧ reg.toNat ≤ 0x1F →
    ∃ d, exec (.eepromWrite reg val verify) s = .next { s with
        cmd := some (.eepromWrite reg val verify), desc := some d, st := .erasing } ∧
      d.reg = reg ∧ d.newVal = val ∧ d.delayMs = s.cfg.writeTimeMs ∧ d.verify = verify

/-- Rules R163, R164 and R167: `Erasing` issues the write frame of 0x0000 and `Writing` that of the new value; on `Ok` the
delay state follows, its timer armed with the descriptor's delay; on `BusError(e)` the command ends there, the state
recorded. What `crc` holds (DESIGN CHOICE, log entry 4) and what an attached device does (DESIGN CHOICE, log entry 33) are left
open here; the bare `Ok` of rule R53 is recorded as `ok []` (DESIGN CHOICE, log entry 13). -/
def Obligations.ErasingAndWritingIssueTheirFrame : Prop :=
  ∀ (s : State) (d : EepromDescriptor) (S T : CtrlState) (v : Word),
    (S = .erasing ∧ v = 0x0000 ∧ T = .awaitEraseDelay ∨ S = .writing ∧ v = d.newVal ∧ T = .awaitWriteDelay) →
    s.st = S → s.desc = some d → s.cmd = some (.eepromWrite d.reg d.newVal d.verify) →
    let a := s.cfg.busAddress
    let q : BusRequest := .write a [d.reg, lo8 v, hi8 v, pec8 [addrW a, d.reg, lo8 v, hi8 v]]
    (s.pending = none →
      ∃ c dev, agentTurn .block s = .next { s with
        crc := c, pending := some q, hist := s.hist ++ [.issue q], sim := dev }) ∧
    (∀ bs rest, s.pending = some q → s.replies = .given (.ok bs) :: rest →
      ∃ dev, agentTurn .transport s = .next { s with
        sim := dev, st := T, pending := none, replies := rest, tmrArmed := true, tmrMs := some d.delayMs
        hist := s.hist ++ [.answer q (.ok []), .waitStart d.delayMs] }) ∧
    (∀ e rest, s.pending = some q → s.replies = .given (.busError e) :: rest →
      ∃ dev, agentTurn .transport s = .next { s with
        sim := dev, st := .error, pending := none, replies := rest, tmrArmed := false, hist := s.hist ++ [.answer q (.busError e)]
        res := some { status := .busError, value := none, pec := none, pecMatch := none, failedState := some S,
                      indeterminate := true, busInfo := some (.transport e) } })

/-- Rules R166 and R168: `Elapsed` leads from the erase delay to `Writing`, and from the write delay to `Verifying` if the
descriptor says so and otherwise to `Done` with success. Nothing else ends a delay: in a delay state a step whose turn is not
the timer's changes the inputs, the refused mark and the device at most. -/
def Obligations.ElapsedEndsTheDelays : Prop :=
  ∀ (s : State) (d : EepromDescriptor), s.desc = some d → s.pending = none →
    (s.st = .awaitEraseDelay ∨ s.st = .awaitWriteDelay →
      agentTurn .block s = .next s ∧ agentTurn .transport s = .next s ∧
      ∀ s', step s = .next s' → ¬ TakesTurn s .timer →
        ∃ turns acts replies mark dev,
          s' = { s with turns := turns, hostIn := acts, replies := replies, refused := mark, sim := dev }) ∧
    (s.st = .awaitEraseDelay → s.tmrArmed = true → ∃ dev, agentTurn .timer s = .next { s with
      st := .writing, tmrArmed := false, sim := dev, hist := s.hist ++ [.waitEnd] }) ∧
    (s.st = .awaitWriteDelay → s.tmrArmed = true → d.verify = true → ∃ dev, agentTurn .timer s = .next { s with
      st := .verifying, tmrArmed := false, sim := dev, hist := s.hist ++ [.waitEnd] }) ∧
    (s.st = .awaitWriteDelay → s.tmrArmed = true → d.verify = false → ∃ dev, agentTurn .timer s = .next { s with
      st := .done, tmrArmed := false, sim := dev, hist := s.hist ++ [.waitEnd]
      res := some { status := .ok, value := none, pec := none, pecMatch := none, failedState := none,
                    indeterminate := false, busInfo := none } })

/-- Rule R169: `Verifying` issues one read with the check on; the word must equal the new value in all 16 bits, and each
failure has its own error, the received word kept only on `EepromVerifyError`. Three bytes go to `rx`, a failure leaves it. What
`crc` holds (DESIGN CHOICE, log entry 4) and what an attached device does (DESIGN CHOICE, log entry 33) are left open here. -/
def Obligations.VerifyingComparesTheWord : Prop :=
  ∀ (s : State) (d : EepromDescriptor), s.st = .verifying → s.desc = some d →
    s.cmd = some (.eepromWrite d.reg d.newVal d.verify) →
    let a := s.cfg.busAddress
    let q : BusRequest := .writeRead a [d.reg] 3
    (s.pending = none → ∃ dev, agentTurn .block s = .next { s with
      pending := some q, hist := s.hist ++ [.issue q], sim := dev }) ∧
    (∀ ans rest, s.pending = some q → s.replies = .given ans :: rest → s.tmrArmed = false →
      ∃ c x S r dev, agentTurn .transport s = .next { s with
          st := S, pending := none, replies := rest, crc := c, rx := x, res := some r, hist := s.hist ++ [.answer q ans]
          sim := dev } ∧
        match ans with
        | .busError e =>
          x = s.rx ∧ S = .error ∧ r = { Result.plain .busError with
            failedState := some .verifying, indeterminate := true, busInfo := some (.transport e) }
        | .ok [l, h, p] =>
          x = some [l, h, p] ∧
          if pec8 [addrW a, d.reg, addrR a, l, h] ≠ p then
            S = .error ∧ r = { Result.plain .pecMismatch with failedState := some .verifying, indeterminate := true }
          else if word l h = d.newVal then S = .done ∧ r = Result.plain .ok
          else
            S = .error ∧ r = { Result.plain .eepromVerify with
              value := some (word l h), failedState := some .verifying, indeterminate := true }
        | .ok _ =>
          x = s.rx ∧ S = .error ∧ r = { Result.plain .busError with
            failedState := some .verifying, indeterminate := true, busInfo := some .shortRead })

/-- The agents' turns of a whole EEPROM_WRITE after its acceptance. -/
def eepromTurns (verify : Bool) : List Turn :=
  [.block, .transport, .timer, .block, .transport, .timer] ++ if verify then [.block, .transport] else []

/-- 42_eeprom_writer.md section 3: an EEPROM_WRITE whose every answer is good ends in `Done`, having caused exactly the
history of a successful write: two word writes, two delays and, with verify, one read. -/
def Obligations.EepromWriteSucceedsWithItsHistory : Prop :=
  ∀ (reg : Byte) (val : Word) (verify : Bool) (s : State) (b1 b2 : List Byte) (turns : List Turn) (rest : List Reply),
    s.st = .idle → s.pending = none → s.tmrArmed = false → 0x10 ≤ reg.toNat → reg.toNat ≤ 0x1F →
    let a := s.cfg.busAddress
    let P0 := pec8 [addrW a, reg, 0x00, 0x00]
    let P1 := pec8 [addrW a, reg, lo8 val, hi8 val]
    let p := pec8 [addrW a, reg, addrR a, lo8 val, hi8 val]
    let E : BusRequest := .write a [reg, 0x00, 0x00, P0]
    let W : BusRequest := .write a [reg, lo8 val, hi8 val, P1]
    let V : BusRequest := .writeRead a [reg] 3
    let good : BusAnswer := .ok [lo8 val, hi8 val, p]
    s.turns = eepromTurns verify ++ turns →
    s.replies = [.given (.ok b1), .given (.ok b2)] ++ (if verify then [.given good] else []) ++ rest →
    ∃ t u, exec (.eepromWrite reg val verify) s = .next t ∧
      Host.Core.run core (eepromTurns verify).length t = .next u ∧
      u.st = .done ∧ u.res = some Result.success ∧ u.turns = turns ∧ u.replies = rest ∧ u.pending = none ∧
      u.tmrArmed = false ∧ u.cfg = s.cfg ∧ u.hostIn = s.hostIn ∧ u.resultLog = s.resultLog ∧ u.refused = s.refused ∧
      u.hist = s.hist ++
        [.issue E, .answer E (.ok []), .waitStart s.cfg.writeTimeMs, .waitEnd,
         .issue W, .answer W (.ok []), .waitStart s.cfg.writeTimeMs, .waitEnd] ++
        (if verify then [.issue V, .answer V good] else [])

/-- Under every schedule and every answer, each step keeps the command's trace: the history ends with exactly the events the
command has caused so far, and an error cuts it short (41_register_access.md section 4; 42_eeprom_writer.md section 3). -/
def Obligations.EveryStepKeepsTheCommandTrace : Prop :=
  ∀ s s' : State, Inv s → TraceInv s → step s = .next s' → TraceInv s'

/-- In `Idle`, `Done` and `Error` the block does nothing on its own: no step but a construction changes the history, `Done`
and `Error` are left to `Idle` only, and only in a step whose turn is the host's and whose act is a take of the result or a
construction (10_state.md section 3, 42_eeprom_writer.md section 4). -/
def Obligations.EndedCommandDoesNothingMore : Prop :=
  ∀ s s' : State, NoLiveEvent s → (s.st = .idle ∨ s.st = .done ∨ s.st = .error) → step s = .next s' →
    (¬ Reconstructs s → s'.hist = s.hist) ∧
    (s.st ≠ .idle → s'.st ≠ s.st → s'.st = .idle ∧
      (Reconstructs s ∨ (TakesTurn s .host ∧ s.hostIn.head? = some .takeResult)))

/-! ### Errors, the result and the timer -/

/-- Rule R210: what raising an error does in one step, that it does nothing else, and that no agent of the block does anything
for the command after it. -/
def Obligations.RaisingAnErrorWritesTheWholeResult : Prop :=
  ∀ (s : State) (E : BlockError) (i : Instr), s.cmd = some i →
    ∃ r, s.raise E = { s with res := some r, pending := none, tmrArmed := false, st := .error } ∧
      r.pec = none ∧ r.pecMatch = none ∧
      (match E with
       | .busError e => r.status = .busError ∧ r.busInfo = some e ∧ r.value = none
       | .pecMismatch => r.status = .pecMismatch ∧ r.busInfo = none ∧ r.value = none
       | .invalidRegister _ => r.status = .invalidRegister ∧ r.busInfo = none ∧ r.value = none
       | .eepromVerify w => r.status = .eepromVerify ∧ r.busInfo = none ∧ r.value = some w) ∧
      ((∃ reg v f, i = .eepromWrite reg v f) ∧ (s.st = .erasing ∨ s.st = .writing ∨ s.st = .verifying) →
        r.failedState = some s.st ∧ r.indeterminate = true) ∧
      (¬ ((∃ reg v f, i = .eepromWrite reg v f) ∧ (s.st = .erasing ∨ s.st = .writing ∨ s.st = .verifying)) →
        r.failedState = none ∧ r.indeterminate = false) ∧
      ∀ turn : Turn, turn = .block ∨ turn = .transport ∨ turn = .timer →
        agentTurn turn (s.raise E) = .next (s.raise E)

/-- 60_exceptions.md section 4: in `Done` or `Error` the host takes the result: `st <- Idle`, and `res` keeps its value, then and
until the next command ends (or the block is constructed again); until the take the block, the transport and the timer do nothing.
That the take leaves `cmd`, `desc`, `rx` and `tmr_ms` as they are is the model's choice (DESIGN CHOICE, log entry 5), and so is that
the host's log gains the result (DESIGN CHOICE, log entry 14). -/
def Obligations.TakingTheResultReturnsToIdle : Prop :=
  ∀ (s : State) (r : Result), (s.st = .done ∨ s.st = .error) → s.res = some r → ResultLegal r →
    (∃ log, hostAct .takeResult s = .next { s with st := .idle, resultLog := log }) ∧
    (NoLiveEvent s → ∀ turn : Turn, turn = .block ∨ turn = .transport ∨ turn = .timer → agentTurn turn s = .next s) ∧
    (∀ t t' : State, step t = .next t' → ¬ Reconstructs t → t'.res ≠ t.res → t'.st = .done ∨ t'.st = .error)

/-- Rule R35: `res` holds no value at construction, no step gives it one before a command has ended, and until then a host
read of it faults. -/
def Obligations.ResIsAbsentUntilACommandEnds : Prop :=
  (∀ cfg : BlockConfig, (State.constructed cfg).res = none) ∧
  (∀ s s' : State, s.res = none → step s = .next s' → s'.st ≠ .done → s'.st ≠ .error → s'.res = none) ∧
  (∀ s : State, s.res = none → hostAct .readResult s = .fault .resAbsent)

/-- 93_implementation_defined.md U16 and U23 as the model reads them: in `Done` and `Error` the host's take begins with the read
of `res` and faults where that does (DESIGN CHOICE, log entry 8); a read or such a take of a result whose status is reserved
faults (DEDUCED, log entry 16); and so does a step of the block, the transport or the timer where its rule reads `cmd` or `desc`
while it holds no value (DEDUCED, log entry 3). Where the rule does not read it, the step goes on: a transport failure in
`Erasing`, `Writing` and `Verifying` raises its error with `desc` absent too. -/
def Obligations.ReadingAnAbsentElementFaults : Prop :=
  (∀ s : State, s.res = none → s.st = .done ∨ s.st = .error → hostAct .takeResult s = .fault .resAbsent) ∧
  (∀ (s : State) (r : Result) (k : Fin 249), s.res = some r → r.status = .reserved k →
    hostAct .readResult s = .fault .reservedStatus ∧
    (s.st = .done ∨ s.st = .error → hostAct .takeResult s = .fault .reservedStatus)) ∧
  (∀ s : State, s.pending = none → s.st = .regAccess → s.cmd = none → agentTurn .block s = .fault .cmdAbsent) ∧
  (∀ s : State, s.pending = none → (s.st = .erasing ∨ s.st = .writing ∨ s.st = .verifying) → s.desc = none →
    agentTurn .block s = .fault .descAbsent) ∧
  (∀ s : State, s.st = .awaitWriteDelay → s.tmrArmed = true → s.desc = none →
    agentTurn .timer s = .fault .descAbsent) ∧
  (∀ (s : State) (q : BusRequest) (rep : Reply) (rest : List Reply), s.pending = some q → s.replies = rep :: rest →
    s.st = .regAccess → s.cmd = none → agentTurn .transport s = .fault .cmdAbsent) ∧
  (∀ (s : State) (q : BusRequest) (ans : BusAnswer) (rest : List Reply), s.pending = some q → s.desc = none →
    s.replies = .given ans :: rest →
    (s.st = .erasing ∨ s.st = .writing → (∀ e, ans ≠ .busError e) → agentTurn .transport s = .fault .descAbsent) ∧
    (∀ l h p a bs n, s.st = .verifying → q = .writeRead a bs n → ans = .ok [l, h, p] →
      agentTurn .transport s = .fault .descAbsent) ∧
    (∀ e, s.st.isEepromRequest = true → ans = .busError e → ∃ t, agentTurn .transport s = .next t ∧ t.st = .error))

/-- The model's choices about the host's acts on the result: a take adds `res` to the host's log (DESIGN CHOICE, log entry 14) and
leaves `cmd`, `desc`, `rx` and `tmr_ms` as they are (DESIGN CHOICE, log entry 5); a take out of turn only sets the mark (DESIGN CHOICE, log entry 8); a read changes nothing in any controller state (DEDUCED, log
entry 9). That the log changes in no other step is log entry 14 too. -/
def Obligations.ResultLogGainsTheTakenResult : Prop :=
  (∀ (s : State) (r : Result), s.res = some r → ResultLegal r →
    (s.st = .done ∨ s.st = .error →
      hostAct .takeResult s = .next { s with st := .idle, resultLog := s.resultLog ++ [r] }) ∧
    hostAct .readResult s = .next s) ∧
  (∀ s : State, s.st ≠ .done → s.st ≠ .error → hostAct .takeResult s = .next { s with refused := true }) ∧
  (∀ s s' : State, step s = .next s' → s'.resultLog ≠ s.resultLog →
    TakesTurn s .host ∧ s.hostIn.head? = some .takeResult ∧ ∃ r, s.res = some r ∧ s'.resultLog = s.resultLog ++ [r])

/-- 60_exceptions.md section 6: the timer delivers one `Elapsed` per arming. A timer step with the timer armed
unarms it and records one `WaitEnd`; with the timer unarmed it changes nothing. That at least `tmr_ms` milliseconds pass at an
attached device in the same step is the model's choice (DESIGN CHOICE, log entry 19). -/
def Obligations.TimerDeliversOneElapsedPerArming : Prop :=
  (∀ s : State, s.tmrArmed = false → agentTurn .timer s = .next s) ∧
  (∀ s s' : State, s.tmrArmed = true → agentTurn .timer s = .next s' →
    s'.tmrArmed = false ∧ s'.hist = s.hist ++ [.waitEnd] ∧ s'.tmrMs = s.tmrMs ∧
    ∀ t d, s.tmrMs = some t → s.sim = some d →
      ∃ d', s'.sim = some d' ∧ d.now + t.toNat ≤ d'.now)

/-! ### Invariants -/

/-- The invariant holds after construction, so at reset. -/
def Obligations.ConstructedBlockMeetsTheInvariant : Prop :=
  (∀ cfg : BlockConfig, Inv (State.constructed cfg) ∧ TraceInv (State.constructed cfg)) ∧
    Inv State.reset ∧ TraceInv State.reset

/-- Every step, under every schedule and every answer, keeps the invariant: the controller's promises, the order of the
history, the legality of results and of every request on the bus. -/
def Obligations.EveryStepKeepsTheInvariant : Prop :=
  ∀ s s' : State, Inv s → step s = .next s' → Inv s'

/-- In a state that meets the invariant no step is refused, and the only fault is the host's read of a result that is absent
(10_state.md section 5): no rule reads another element before writing it. -/
def Obligations.OnlyAnAbsentResultReadFaults : Prop :=
  ∀ s : State, Inv s →
    (∃ s', step s = .next s') ∨
    (step s = .fault .resAbsent ∧ s.res = none ∧ s.hostIn.head? = some .readResult)

/-- The bus history is only appended to, at most two events a step, until a construction empties it (20_memory.md section 2),
and an outstanding request stays until its answer is recorded. -/
def Obligations.HistoryIsOnlyAppendedTo : Prop :=
  ∀ s s' : State, step s = .next s' → ¬ Reconstructs s →
    ∃ es, s'.hist = s.hist ++ es ∧ es.length ≤ 2 ∧
      ∀ q, s.pending = some q → s'.pending = some q ∨ (∃ r, .answer q r ∈ es) ∨ s.st = .idle

/-! ### Independence -/

/-- No rule outside 20_memory.md section 7 reads the device model: with the transport's answer given, a step from states that
differ in the device only leads to states that differ in the device only. -/
def Obligations.BlockDoesNotReadTheDeviceModel : Prop :=
  ∀ (s t : State) (x : Option Device), (∀ draw, s.replies.head? ≠ some (.device draw)) → step s = .next t →
    ∃ y, step { s with sim := x } = .next { t with sim := y }

/-- 41_register_access.md section 3: `check_pec` of WRITE_WORD has no effect: with the flag changed, acceptance, the frame and the end are the
same. -/
def Obligations.WriteWordFlagHasNoEffect : Prop :=
  ∀ (reg : Byte) (val : Word) (f g : Bool),
    (∀ s t : State, s.st = .idle → exec (.writeWord reg val f) s = .next t →
      exec (.writeWord reg val g) s = .next { t with cmd := some (.writeWord reg val g) }) ∧
    (∀ (s t : State) (turn : Turn), turn = .block ∨ turn = .transport → s.st = .regAccess →
      s.cmd = some (.writeWord reg val f) → agentTurn turn s = .next t →
      agentTurn turn { s with cmd := some (.writeWord reg val g) } =
        .next { t with cmd := some (.writeWord reg val g) })

/-! ### The device model -/

/-- The device model of 20_memory.md section 7 (its free choices are DESIGN CHOICE, log entries 18 to 20): with the host's duties kept
(70_reset_and_hazards.md section 3), no bus error and no instability draw, an EEPROM_WRITE with verify ends in `Done` and
leaves the new value in its word, and every other word as it was. -/
def Obligations.EepromWriteStoresTheWord : Prop :=
  ∀ (reg : Byte) (val : Word) (s : State) (d : Device) (draw1 draw2 draw3 : DeviceDraw) (turns : List Turn)
    (rest : List Reply),
    s.st = .idle → s.pending = none → s.tmrArmed = false → 0x10 ≤ reg.toNat → reg.toNat ≤ 0x1F →
    s.sim = some d → DutyDelay s.cfg d → DutyQuiet d →
    draw1.busError = none → draw2.busError = none → draw1.unstable = none → draw2.unstable = none →
    s.turns = eepromTurns true ++ turns →
    s.replies = .device draw1 :: .device draw2 :: .device draw3 :: rest →
    ∃ t u d', exec (.eepromWrite reg val true) s = .next t ∧
      Host.Core.run core (eepromTurns true).length t = .next u ∧ u.st = .done ∧ u.res = some Result.success ∧
      u.sim = some d' ∧ d'.word reg = val ∧
      ∀ r, inEeprom r = true → r ≠ reg → d'.word r = d.word r

/-- The device model of 20_memory.md section 7, which answers at every bus address (DESIGN CHOICE, log entry 18) and is quiet
when no write cycle is young and none is left to complete (DESIGN CHOICE, log entry 20): a read-word frame to an EEPROM register of a device with no write cycle in progress returns the
word with its correct PEC and changes no word; a write frame with a wrong PEC changes no word. -/
def Obligations.QuietDeviceAnswersItsWord : Prop :=
  (∀ (d : Device) (a : BusAddr) (r : Byte) (n : Nat) (draw : DeviceDraw), DutyQuiet d → inEeprom r = true →
    (d.react (.writeRead a [r] n) draw).1 =
      .ok [lo8 (d.word r), hi8 (d.word r), pec8 [addrW a, r, addrR a, lo8 (d.word r), hi8 (d.word r)]] ∧
    (d.react (.writeRead a [r] n) draw).2.eeprom = d.eeprom ∧
    ∀ ms, ((d.react (.writeRead a [r] n) draw).2.advance ms).eeprom = d.eeprom) ∧
  (∀ (d : Device) (a : BusAddr) (r l h p : Byte) (draw : DeviceDraw), DutyQuiet d → p ≠ pec8 [addrW a, r, l, h] →
    (d.react (.write a [r, l, h, p]) draw).2.eeprom = d.eeprom ∧
    ∀ ms, ((d.react (.write a [r, l, h, p]) draw).2.advance ms).eeprom = d.eeprom)

/-- The device model of 20_memory.md section 7 and 93_implementation_defined.md U1 and U3 (that the word takes its draw at once
and at completion is DESIGN CHOICE, log entry 20; the clock is DESIGN CHOICE, log entry 19; that a request reaches the device at
its answer is DESIGN CHOICE, log entry 32): any request that reaches the device within `T_DEV_MIN_MS` of a write leaves that word
at the draw, whatever it is, and the write's cycle no longer completes. After a new write of the same word it is at that draw
while the new cycle is young, and completes from it. A nonzero write over a nonzero word completes at the draw. A cycle's age
counts from the `Issue` of its write (`askedAt`). -/
def Obligations.DisturbedWordIsAnyValue : Prop :=
  (∀ (d : Device) (q : BusRequest) (draw : DeviceDraw) (k : Fin 16) (c : WriteCycle),
    d.cycles[k] = some c → d.now < c.issuedAt + d.minMs →
    (∀ a r l h p, q = .write a [r, l, h, p] → inEeprom r = true → p = pec8 [addrW a, r, l, h] → cellIndex r ≠ k) →
      (d.react q draw).2.eeprom[k] = draw.cells[k] ∧
      ∀ ms, ((d.react q draw).2.advance ms).eeprom[k] = draw.cells[k]) ∧
  (∀ (d : Device) (a : BusAddr) (r : Byte) (v : Word) (draw : DeviceDraw) (c : WriteCycle), inEeprom r = true →
    d.cycles[cellIndex r] = some c → d.now < c.issuedAt + d.minMs → draw.unstable = none →
      (d.now < d.askedAt + d.minMs → (d.react (writeRequest a r v) draw).2.word r = draw.cells[cellIndex r]) ∧
      ∀ ms, d.askedAt + d.minMs ≤ d.now + ms →
        ((d.react (writeRequest a r v) draw).2.advance ms).word r =
          if v = 0 then 0 else if draw.cells[cellIndex r] = 0 then v else draw.overwritten) ∧
  (∀ (d : Device) (a : BusAddr) (r : Byte) (v : Word) (draw : DeviceDraw) (ms : Nat), DutyQuiet d → inEeprom r = true →
    v ≠ 0 → d.word r ≠ 0 → draw.unstable = none → d.askedAt + d.minMs ≤ d.now + ms →
      ((d.react (writeRequest a r v) draw).2.advance ms).word r = draw.overwritten)

/-- The device model of 20_memory.md section 7: the age of a write cycle counts from the block's `Issue` of the write, however long
the transport takes and whatever time passes in between. The clock that a tick turn advances (DESIGN CHOICE, log entry 19), the
record of a cycle (DESIGN CHOICE, log entry 20) and that the cycle begins at the step of the answer (DESIGN CHOICE, log entry 32)
are the model's. -/
def Obligations.WriteCycleCountsFromItsIssue : Prop :=
  ∀ (s t : State) (d : Device) (r : Byte) (v : Word) (k : Nat) (draw : DeviceDraw) (rest : List Reply),
    s.sim = some d → s.pending = none → inEeprom r = true → agentTurn .block s = .next t →
    t.pending = some (writeRequest s.cfg.busAddress r v) → t.replies = .device draw :: rest →
    ∃ u w d' c, agentTurn (.tick k) t = .next u ∧ agentTurn .transport u = .next w ∧ w.sim = some d' ∧
      d'.now = d.now + k ∧ d'.cycles[cellIndex r] = some c ∧ c.value = v ∧ c.issuedAt = d.now

/-! ### Host macros -/

/-- 30_encoding.md section 4: RMW_FIELD's merged word takes the masked bits from `bits` and every other bit from the word read,
and no EEPROM_WRITE follows a READ_WORD that ended in an error. -/
def Obligations.RmwFieldMergesUnderTheMask : Prop :=
  (∀ (w mask bits : Word) (k : Nat), k < 16 →
    (rmwMerge w mask bits).getLsbD k = if mask.getLsbD k then bits.getLsbD k else w.getLsbD k) ∧
  (∀ (reg : Byte) (mask bits w : Word) (y : Bool),
    rmwSecond reg mask bits y (Result.ofValue w) = some (.eepromWrite reg (rmwMerge w mask bits) y)) ∧
  (∀ (reg : Byte) (mask bits : Word) (y : Bool) (r : Result), r.status ≠ .ok → rmwSecond reg mask bits y r = none)
end

