-- ==== Sys2Proof/Laws/Device.lean ====
section
/-! SUPPORT. The words of the device model after each of its operations (20_memory.md rule R71). -/

namespace Sys2Proof.Machine

@[simp] theorem Device.settle_eeprom_getElem (d : Device) (k : Nat) (h : k < 16) :
    d.settle.eeprom[k] = d.settledWord ⟨k, h⟩ := by
  simp [Device.settle]

@[simp] theorem Device.settle_cycles_getElem (d : Device) (k : Nat) (h : k < 16) :
    d.settle.cycles[k] = d.settledCycle ⟨k, h⟩ := by
  simp [Device.settle]

@[simp] theorem Device.settle_now (d : Device) : d.settle.now = d.now := rfl

@[simp] theorem Device.settle_askedAt (d : Device) : d.settle.askedAt = d.askedAt := rfl

@[simp] theorem Device.settle_minMs (d : Device) : d.settle.minMs = d.minMs := rfl

@[simp] theorem Device.advance_now (d : Device) (ms : Nat) : (d.advance ms).now = d.now + ms := rfl

@[simp] theorem Device.advance_askedAt (d : Device) (ms : Nat) : (d.advance ms).askedAt = d.askedAt := rfl

@[simp] theorem Device.advance_minMs (d : Device) (ms : Nat) : (d.advance ms).minMs = d.minMs := rfl

@[simp] theorem Device.arrive_now (d : Device) (draw : DeviceDraw) : (d.arrive draw).now = d.now := rfl

@[simp] theorem Device.arrive_askedAt (d : Device) (draw : DeviceDraw) : (d.arrive draw).askedAt = d.askedAt := rfl

@[simp] theorem Device.arrive_minMs (d : Device) (draw : DeviceDraw) : (d.arrive draw).minMs = d.minMs := rfl

@[simp] theorem Device.settle_youngAt (d : Device) (k : Fin 16) : d.settle.youngAt k = d.youngAt k := by
  unfold Device.youngAt
  rw [show d.settle.cycles[k] = d.settledCycle k from settle_cycles_getElem d k k.isLt]
  unfold Device.settledCycle
  cases d.cycles[k] <;> rfl

/-- A word with no running cycle keeps what it holds. -/
theorem Device.settledWord_of_stopped (d : Device) (k : Fin 16) (h : ∀ c, d.cycles[k] = some c → c.running = false) :
    d.settledWord k = d.eeprom[k] := by
  unfold Device.settledWord
  split
  · rfl
  · rename_i c hc
    simp [h c hc]

/-- A request that arrives leaves a word whose cycle is young at the draw, and lets the others complete. -/
@[simp] theorem Device.arrive_eeprom_getElem (d : Device) (draw : DeviceDraw) (k : Nat) (h : k < 16) :
    (d.arrive draw).eeprom[k] = if d.youngAt ⟨k, h⟩ then draw.cells[k] else d.settledWord ⟨k, h⟩ := by
  simp only [Device.arrive, Vector.getElem_ofFn, settle_youngAt, Fin.getElem_fin, settle_eeprom_getElem]

/-- After a request has arrived no earlier cycle runs on. -/
@[simp] theorem Device.arrive_cycles_getElem (d : Device) (draw : DeviceDraw) (k : Nat) (h : k < 16) :
    (d.arrive draw).cycles[k] = (d.cycles[k]).map fun c => { c with running := false } := by
  simp only [Device.arrive, Vector.getElem_map, settle_cycles_getElem, Device.settledCycle, Option.map_map]
  rfl

/-- The age of a cycle outlives its stopping. -/
@[simp] theorem Device.arrive_youngAt (d : Device) (draw : DeviceDraw) (k : Fin 16) :
    (d.arrive draw).youngAt k = d.youngAt k := by
  unfold Device.youngAt
  rw [show (d.arrive draw).cycles[k] = (d.cycles[k]).map fun c => { c with running := false } from
    arrive_cycles_getElem d draw k k.isLt]
  cases d.cycles[k] with
  | none => rfl
  | some c =>
    unfold Device.young
    exact decide_eq_decide.2 (by rw [arrive_now, arrive_minMs])

/-- So does that of all cycles together. -/
@[simp] theorem Device.arrive_anyYoung (d : Device) (draw : DeviceDraw) : (d.arrive draw).anyYoung = d.anyYoung := by
  simp only [Device.anyYoung, funext (arrive_youngAt d draw)]

/-- A cycle begun on one word leaves the others as they are. -/
theorem Device.beginCycle_eeprom_getElem (d : Device) (r : Byte) (v : Word) (draw : DeviceDraw) (k : Nat) (h : k < 16)
    (hne : (cellIndex r).val ≠ k) : (d.beginCycle r v draw).eeprom[k] = d.settledWord ⟨k, h⟩ := by
  simp only [Device.beginCycle, settle_eeprom_getElem, Device.settledWord, Fin.getElem_fin, Device.young]
  rw [Vector.getElem_set_ne _ _ hne]
  rfl

/-- The word a cycle is begun on keeps its content while the cycle is young. -/
theorem Device.beginCycle_word_self (d : Device) (r : Byte) (v : Word) (draw : DeviceDraw)
    (h : d.now < d.askedAt + d.minMs) : (d.beginCycle r v draw).word r = d.word r := by
  simp [Device.word, Device.beginCycle, Device.settledWord, Device.young, h]

/-- Once `T_DEV_MIN_MS` has passed since the write was issued the word holds the cycle's outcome. -/
theorem Device.beginCycle_advance_word (d : Device) (r : Byte) (v : Word) (draw : DeviceDraw) (ms : Nat)
    (h : d.askedAt + d.minMs ≤ d.now + ms) : ((d.beginCycle r v draw).advance ms).word r = d.cycleOutcome r v draw := by
  simp only [Device.word, Fin.getElem_fin, Device.advance, settle_eeprom_getElem, Device.beginCycle, Device.settledWord,
    Device.young]
  simp
  by_cases hm : d.now < d.askedAt + d.minMs
  · simp [Device.settledCycle, Device.young, hm]
    intro hy
    exact absurd (of_decide_eq_true hy) (by omega)
  · simp [Device.settledCycle, Device.young, hm]

/-- No cycle is young exactly when none is at any word. -/
theorem Device.anyYoung_eq_false (d : Device) : d.anyYoung = false ↔ ∀ k, d.youngAt k = false := by
  simp [Device.anyYoung, List.any_eq_false]

/-- A word set reads back, and leaves the others alone. -/
theorem Device.word_setWord_self (d : Device) (r : Byte) (w : Word) : (d.setWord r w).word r = w := by
  simp [Device.word, Device.setWord]

theorem Device.word_setWord_ne (d : Device) (r r' : Byte) (w : Word) (h : cellIndex r ≠ cellIndex r') :
    (d.setWord r w).word r' = d.word r' := by
  have h' : (cellIndex r).val ≠ (cellIndex r').val := fun e => h (Fin.ext e)
  simp only [Device.word, Device.setWord, Fin.getElem_fin]
  exact Vector.getElem_set_ne _ _ h'

end Sys2Proof.Machine
end

