-- ==== Sys2Proof/Laws/Encoding.lean ====
section
/-! SUPPORT. The fields of an assembled command word (30_encoding.md rule R81). -/

namespace Sys2Proof

@[simp] theorem opField_packWord (v : Word) (r : Byte) (f : Bool) (op : Op) : opField (packWord v r f op) = op.code := by
  cases op <;>
    (apply BitVec.eq_of_getLsbD_eq; intro i hi; interval_cases i <;> simp [opField, packWord, Op.code])

@[simp] theorem reservedField_packWord (v : Word) (r : Byte) (f : Bool) (op : Op) :
    reservedField (packWord v r f op) = 0 := by
  cases op <;>
    (apply BitVec.eq_of_getLsbD_eq; intro i hi; interval_cases i <;> simp [reservedField, packWord, Op.code])

@[simp] theorem flagField_packWord (v : Word) (r : Byte) (f : Bool) (op : Op) : flagField (packWord v r f op) = f := by
  cases op <;> simp [flagField, packWord, Op.code]

@[simp] theorem regField_packWord (v : Word) (r : Byte) (f : Bool) (op : Op) : regField (packWord v r f op) = r := by
  cases op <;>
    (apply BitVec.eq_of_getLsbD_eq; intro i hi; interval_cases i <;> simp [regField, packWord, Op.code])

@[simp] theorem valField_packWord (v : Word) (r : Byte) (f : Bool) (op : Op) : valField (packWord v r f op) = v := by
  cases op <;>
    (apply BitVec.eq_of_getLsbD_eq; intro i hi; interval_cases i <;> simp [valField, packWord, Op.code])

@[simp] theorem decodeOp_code (op : Op) : decodeOp op.code = some op := by cases op <;> decide

theorem decodeOp_eq_some {x : BitVec 3} {op : Op} (h : decodeOp x = some op) : x = op.code := by
  revert h
  cases op <;> revert x <;> decide

end Sys2Proof
end

