-- ==== Sys2Proof/Laws/State.lean ====
section
/-! SUPPORT. One lemma per field per named update of State, so that no later proof unfolds a record update. -/

namespace Sys2Proof.Machine

@[simp] theorem State.logEvent_cfg (s : State) (e : BusEvent) : (s.logEvent e).cfg = s.cfg := rfl
@[simp] theorem State.logEvent_st (s : State) (e : BusEvent) : (s.logEvent e).st = s.st := rfl
@[simp] theorem State.logEvent_cmd (s : State) (e : BusEvent) : (s.logEvent e).cmd = s.cmd := rfl
@[simp] theorem State.logEvent_desc (s : State) (e : BusEvent) : (s.logEvent e).desc = s.desc := rfl
@[simp] theorem State.logEvent_pending (s : State) (e : BusEvent) : (s.logEvent e).pending = s.pending := rfl
@[simp] theorem State.logEvent_crc (s : State) (e : BusEvent) : (s.logEvent e).crc = s.crc := rfl
@[simp] theorem State.logEvent_rx (s : State) (e : BusEvent) : (s.logEvent e).rx = s.rx := rfl
@[simp] theorem State.logEvent_tmrArmed (s : State) (e : BusEvent) : (s.logEvent e).tmrArmed = s.tmrArmed := rfl
@[simp] theorem State.logEvent_tmrMs (s : State) (e : BusEvent) : (s.logEvent e).tmrMs = s.tmrMs := rfl
@[simp] theorem State.logEvent_res (s : State) (e : BusEvent) : (s.logEvent e).res = s.res := rfl
@[simp] theorem State.logEvent_hist (s : State) (e : BusEvent) : (s.logEvent e).hist = s.hist ++ [e] := rfl
@[simp] theorem State.logEvent_resultLog (s : State) (e : BusEvent) : (s.logEvent e).resultLog = s.resultLog := rfl
@[simp] theorem State.logEvent_refused (s : State) (e : BusEvent) : (s.logEvent e).refused = s.refused := rfl
@[simp] theorem State.logEvent_turns (s : State) (e : BusEvent) : (s.logEvent e).turns = s.turns := rfl
@[simp] theorem State.logEvent_hostIn (s : State) (e : BusEvent) : (s.logEvent e).hostIn = s.hostIn := rfl
@[simp] theorem State.logEvent_replies (s : State) (e : BusEvent) : (s.logEvent e).replies = s.replies := rfl
@[simp] theorem State.logEvent_sim (s : State) (e : BusEvent) : (s.logEvent e).sim = s.sim := rfl

@[simp] theorem State.markRefused_cfg (s : State) : (s.markRefused).cfg = s.cfg := rfl
@[simp] theorem State.markRefused_st (s : State) : (s.markRefused).st = s.st := rfl
@[simp] theorem State.markRefused_cmd (s : State) : (s.markRefused).cmd = s.cmd := rfl
@[simp] theorem State.markRefused_desc (s : State) : (s.markRefused).desc = s.desc := rfl
@[simp] theorem State.markRefused_pending (s : State) : (s.markRefused).pending = s.pending := rfl
@[simp] theorem State.markRefused_crc (s : State) : (s.markRefused).crc = s.crc := rfl
@[simp] theorem State.markRefused_rx (s : State) : (s.markRefused).rx = s.rx := rfl
@[simp] theorem State.markRefused_tmrArmed (s : State) : (s.markRefused).tmrArmed = s.tmrArmed := rfl
@[simp] theorem State.markRefused_tmrMs (s : State) : (s.markRefused).tmrMs = s.tmrMs := rfl
@[simp] theorem State.markRefused_res (s : State) : (s.markRefused).res = s.res := rfl
@[simp] theorem State.markRefused_hist (s : State) : (s.markRefused).hist = s.hist := rfl
@[simp] theorem State.markRefused_resultLog (s : State) : (s.markRefused).resultLog = s.resultLog := rfl
@[simp] theorem State.markRefused_refused (s : State) : (s.markRefused).refused = true := rfl
@[simp] theorem State.markRefused_turns (s : State) : (s.markRefused).turns = s.turns := rfl
@[simp] theorem State.markRefused_hostIn (s : State) : (s.markRefused).hostIn = s.hostIn := rfl
@[simp] theorem State.markRefused_replies (s : State) : (s.markRefused).replies = s.replies := rfl
@[simp] theorem State.markRefused_sim (s : State) : (s.markRefused).sim = s.sim := rfl

@[simp] theorem State.runPec_cfg (s : State) (bs : List Byte) : (s.runPec bs).cfg = s.cfg := rfl
@[simp] theorem State.runPec_st (s : State) (bs : List Byte) : (s.runPec bs).st = s.st := rfl
@[simp] theorem State.runPec_cmd (s : State) (bs : List Byte) : (s.runPec bs).cmd = s.cmd := rfl
@[simp] theorem State.runPec_desc (s : State) (bs : List Byte) : (s.runPec bs).desc = s.desc := rfl
@[simp] theorem State.runPec_pending (s : State) (bs : List Byte) : (s.runPec bs).pending = s.pending := rfl
@[simp] theorem State.runPec_crc (s : State) (bs : List Byte) : (s.runPec bs).crc = pec8 bs := rfl
@[simp] theorem State.runPec_rx (s : State) (bs : List Byte) : (s.runPec bs).rx = s.rx := rfl
@[simp] theorem State.runPec_tmrArmed (s : State) (bs : List Byte) : (s.runPec bs).tmrArmed = s.tmrArmed := rfl
@[simp] theorem State.runPec_tmrMs (s : State) (bs : List Byte) : (s.runPec bs).tmrMs = s.tmrMs := rfl
@[simp] theorem State.runPec_res (s : State) (bs : List Byte) : (s.runPec bs).res = s.res := rfl
@[simp] theorem State.runPec_hist (s : State) (bs : List Byte) : (s.runPec bs).hist = s.hist := rfl
@[simp] theorem State.runPec_resultLog (s : State) (bs : List Byte) : (s.runPec bs).resultLog = s.resultLog := rfl
@[simp] theorem State.runPec_refused (s : State) (bs : List Byte) : (s.runPec bs).refused = s.refused := rfl
@[simp] theorem State.runPec_turns (s : State) (bs : List Byte) : (s.runPec bs).turns = s.turns := rfl
@[simp] theorem State.runPec_hostIn (s : State) (bs : List Byte) : (s.runPec bs).hostIn = s.hostIn := rfl
@[simp] theorem State.runPec_replies (s : State) (bs : List Byte) : (s.runPec bs).replies = s.replies := rfl
@[simp] theorem State.runPec_sim (s : State) (bs : List Byte) : (s.runPec bs).sim = s.sim := rfl

@[simp] theorem State.issue_cfg (s : State) (q : BusRequest) : (s.issue q).cfg = s.cfg := rfl
@[simp] theorem State.issue_st (s : State) (q : BusRequest) : (s.issue q).st = s.st := rfl
@[simp] theorem State.issue_cmd (s : State) (q : BusRequest) : (s.issue q).cmd = s.cmd := rfl
@[simp] theorem State.issue_desc (s : State) (q : BusRequest) : (s.issue q).desc = s.desc := rfl
@[simp] theorem State.issue_pending (s : State) (q : BusRequest) : (s.issue q).pending = some q := rfl
@[simp] theorem State.issue_crc (s : State) (q : BusRequest) : (s.issue q).crc = s.crc := rfl
@[simp] theorem State.issue_rx (s : State) (q : BusRequest) : (s.issue q).rx = s.rx := rfl
@[simp] theorem State.issue_tmrArmed (s : State) (q : BusRequest) : (s.issue q).tmrArmed = s.tmrArmed := rfl
@[simp] theorem State.issue_tmrMs (s : State) (q : BusRequest) : (s.issue q).tmrMs = s.tmrMs := rfl
@[simp] theorem State.issue_res (s : State) (q : BusRequest) : (s.issue q).res = s.res := rfl
@[simp] theorem State.issue_hist (s : State) (q : BusRequest) : (s.issue q).hist = s.hist ++ [.issue q] := rfl
@[simp] theorem State.issue_resultLog (s : State) (q : BusRequest) : (s.issue q).resultLog = s.resultLog := rfl
@[simp] theorem State.issue_refused (s : State) (q : BusRequest) : (s.issue q).refused = s.refused := rfl
@[simp] theorem State.issue_turns (s : State) (q : BusRequest) : (s.issue q).turns = s.turns := rfl
@[simp] theorem State.issue_hostIn (s : State) (q : BusRequest) : (s.issue q).hostIn = s.hostIn := rfl
@[simp] theorem State.issue_replies (s : State) (q : BusRequest) : (s.issue q).replies = s.replies := rfl
@[simp] theorem State.issue_sim (s : State) (q : BusRequest) : (s.issue q).sim = s.sim.map (fun d => { d with askedAt := d.now }) := rfl

@[simp] theorem State.receive_cfg (s : State) (q : BusRequest) (r : BusAnswer) : (s.receive q r).cfg = s.cfg := rfl
@[simp] theorem State.receive_st (s : State) (q : BusRequest) (r : BusAnswer) : (s.receive q r).st = s.st := rfl
@[simp] theorem State.receive_cmd (s : State) (q : BusRequest) (r : BusAnswer) : (s.receive q r).cmd = s.cmd := rfl
@[simp] theorem State.receive_desc (s : State) (q : BusRequest) (r : BusAnswer) : (s.receive q r).desc = s.desc := rfl
@[simp] theorem State.receive_pending (s : State) (q : BusRequest) (r : BusAnswer) : (s.receive q r).pending = none := rfl
@[simp] theorem State.receive_crc (s : State) (q : BusRequest) (r : BusAnswer) : (s.receive q r).crc = s.crc := rfl
@[simp] theorem State.receive_rx (s : State) (q : BusRequest) (r : BusAnswer) : (s.receive q r).rx = s.rx := rfl
@[simp] theorem State.receive_tmrArmed (s : State) (q : BusRequest) (r : BusAnswer) : (s.receive q r).tmrArmed = s.tmrArmed := rfl
@[simp] theorem State.receive_tmrMs (s : State) (q : BusRequest) (r : BusAnswer) : (s.receive q r).tmrMs = s.tmrMs := rfl
@[simp] theorem State.receive_res (s : State) (q : BusRequest) (r : BusAnswer) : (s.receive q r).res = s.res := rfl
@[simp] theorem State.receive_hist (s : State) (q : BusRequest) (r : BusAnswer) : (s.receive q r).hist = s.hist ++ [.answer q r] := rfl
@[simp] theorem State.receive_resultLog (s : State) (q : BusRequest) (r : BusAnswer) : (s.receive q r).resultLog = s.resultLog := rfl
@[simp] theorem State.receive_refused (s : State) (q : BusRequest) (r : BusAnswer) : (s.receive q r).refused = s.refused := rfl
@[simp] theorem State.receive_turns (s : State) (q : BusRequest) (r : BusAnswer) : (s.receive q r).turns = s.turns := rfl
@[simp] theorem State.receive_hostIn (s : State) (q : BusRequest) (r : BusAnswer) : (s.receive q r).hostIn = s.hostIn := rfl
@[simp] theorem State.receive_replies (s : State) (q : BusRequest) (r : BusAnswer) : (s.receive q r).replies = s.replies := rfl
@[simp] theorem State.receive_sim (s : State) (q : BusRequest) (r : BusAnswer) : (s.receive q r).sim = s.sim := rfl

@[simp] theorem State.startWait_cfg (s : State) (S : CtrlState) (t : Millis) : (s.startWait S t).cfg = s.cfg := rfl
@[simp] theorem State.startWait_st (s : State) (S : CtrlState) (t : Millis) : (s.startWait S t).st = S := rfl
@[simp] theorem State.startWait_cmd (s : State) (S : CtrlState) (t : Millis) : (s.startWait S t).cmd = s.cmd := rfl
@[simp] theorem State.startWait_desc (s : State) (S : CtrlState) (t : Millis) : (s.startWait S t).desc = s.desc := rfl
@[simp] theorem State.startWait_pending (s : State) (S : CtrlState) (t : Millis) : (s.startWait S t).pending = s.pending := rfl
@[simp] theorem State.startWait_crc (s : State) (S : CtrlState) (t : Millis) : (s.startWait S t).crc = s.crc := rfl
@[simp] theorem State.startWait_rx (s : State) (S : CtrlState) (t : Millis) : (s.startWait S t).rx = s.rx := rfl
@[simp] theorem State.startWait_tmrArmed (s : State) (S : CtrlState) (t : Millis) : (s.startWait S t).tmrArmed = true := rfl
@[simp] theorem State.startWait_tmrMs (s : State) (S : CtrlState) (t : Millis) : (s.startWait S t).tmrMs = some t := rfl
@[simp] theorem State.startWait_res (s : State) (S : CtrlState) (t : Millis) : (s.startWait S t).res = s.res := rfl
@[simp] theorem State.startWait_hist (s : State) (S : CtrlState) (t : Millis) : (s.startWait S t).hist = s.hist ++ [.waitStart t] := rfl
@[simp] theorem State.startWait_resultLog (s : State) (S : CtrlState) (t : Millis) : (s.startWait S t).resultLog = s.resultLog := rfl
@[simp] theorem State.startWait_refused (s : State) (S : CtrlState) (t : Millis) : (s.startWait S t).refused = s.refused := rfl
@[simp] theorem State.startWait_turns (s : State) (S : CtrlState) (t : Millis) : (s.startWait S t).turns = s.turns := rfl
@[simp] theorem State.startWait_hostIn (s : State) (S : CtrlState) (t : Millis) : (s.startWait S t).hostIn = s.hostIn := rfl
@[simp] theorem State.startWait_replies (s : State) (S : CtrlState) (t : Millis) : (s.startWait S t).replies = s.replies := rfl
@[simp] theorem State.startWait_sim (s : State) (S : CtrlState) (t : Millis) : (s.startWait S t).sim = s.sim := rfl

@[simp] theorem State.endWait_cfg (s : State) : (s.endWait).cfg = s.cfg := rfl
@[simp] theorem State.endWait_st (s : State) : (s.endWait).st = s.st := rfl
@[simp] theorem State.endWait_cmd (s : State) : (s.endWait).cmd = s.cmd := rfl
@[simp] theorem State.endWait_desc (s : State) : (s.endWait).desc = s.desc := rfl
@[simp] theorem State.endWait_pending (s : State) : (s.endWait).pending = s.pending := rfl
@[simp] theorem State.endWait_crc (s : State) : (s.endWait).crc = s.crc := rfl
@[simp] theorem State.endWait_rx (s : State) : (s.endWait).rx = s.rx := rfl
@[simp] theorem State.endWait_tmrArmed (s : State) : (s.endWait).tmrArmed = false := rfl
@[simp] theorem State.endWait_tmrMs (s : State) : (s.endWait).tmrMs = s.tmrMs := rfl
@[simp] theorem State.endWait_res (s : State) : (s.endWait).res = s.res := rfl
@[simp] theorem State.endWait_hist (s : State) : (s.endWait).hist = s.hist ++ [.waitEnd] := rfl
@[simp] theorem State.endWait_resultLog (s : State) : (s.endWait).resultLog = s.resultLog := rfl
@[simp] theorem State.endWait_refused (s : State) : (s.endWait).refused = s.refused := rfl
@[simp] theorem State.endWait_turns (s : State) : (s.endWait).turns = s.turns := rfl
@[simp] theorem State.endWait_hostIn (s : State) : (s.endWait).hostIn = s.hostIn := rfl
@[simp] theorem State.endWait_replies (s : State) : (s.endWait).replies = s.replies := rfl
@[simp] theorem State.endWait_sim (s : State) : (s.endWait).sim = s.sim := rfl

@[simp] theorem State.finish_cfg (s : State) (r : Result) : (s.finish r).cfg = s.cfg := rfl
@[simp] theorem State.finish_st (s : State) (r : Result) : (s.finish r).st = .done := rfl
@[simp] theorem State.finish_cmd (s : State) (r : Result) : (s.finish r).cmd = s.cmd := rfl
@[simp] theorem State.finish_desc (s : State) (r : Result) : (s.finish r).desc = s.desc := rfl
@[simp] theorem State.finish_pending (s : State) (r : Result) : (s.finish r).pending = s.pending := rfl
@[simp] theorem State.finish_crc (s : State) (r : Result) : (s.finish r).crc = s.crc := rfl
@[simp] theorem State.finish_rx (s : State) (r : Result) : (s.finish r).rx = s.rx := rfl
@[simp] theorem State.finish_tmrArmed (s : State) (r : Result) : (s.finish r).tmrArmed = s.tmrArmed := rfl
@[simp] theorem State.finish_tmrMs (s : State) (r : Result) : (s.finish r).tmrMs = s.tmrMs := rfl
@[simp] theorem State.finish_res (s : State) (r : Result) : (s.finish r).res = some r := rfl
@[simp] theorem State.finish_hist (s : State) (r : Result) : (s.finish r).hist = s.hist := rfl
@[simp] theorem State.finish_resultLog (s : State) (r : Result) : (s.finish r).resultLog = s.resultLog := rfl
@[simp] theorem State.finish_refused (s : State) (r : Result) : (s.finish r).refused = s.refused := rfl
@[simp] theorem State.finish_turns (s : State) (r : Result) : (s.finish r).turns = s.turns := rfl
@[simp] theorem State.finish_hostIn (s : State) (r : Result) : (s.finish r).hostIn = s.hostIn := rfl
@[simp] theorem State.finish_replies (s : State) (r : Result) : (s.finish r).replies = s.replies := rfl
@[simp] theorem State.finish_sim (s : State) (r : Result) : (s.finish r).sim = s.sim := rfl

@[simp] theorem State.raise_cfg (s : State) (E : BlockError) : (s.raise E).cfg = s.cfg := rfl
@[simp] theorem State.raise_st (s : State) (E : BlockError) : (s.raise E).st = .error := rfl
@[simp] theorem State.raise_cmd (s : State) (E : BlockError) : (s.raise E).cmd = s.cmd := rfl
@[simp] theorem State.raise_desc (s : State) (E : BlockError) : (s.raise E).desc = s.desc := rfl
@[simp] theorem State.raise_pending (s : State) (E : BlockError) : (s.raise E).pending = none := rfl
@[simp] theorem State.raise_crc (s : State) (E : BlockError) : (s.raise E).crc = s.crc := rfl
@[simp] theorem State.raise_rx (s : State) (E : BlockError) : (s.raise E).rx = s.rx := rfl
@[simp] theorem State.raise_tmrArmed (s : State) (E : BlockError) : (s.raise E).tmrArmed = false := rfl
@[simp] theorem State.raise_tmrMs (s : State) (E : BlockError) : (s.raise E).tmrMs = s.tmrMs := rfl
@[simp] theorem State.raise_res (s : State) (E : BlockError) : (s.raise E).res = some (Result.ofError E (s.cmd.map Instr.op) s.st) := rfl
@[simp] theorem State.raise_hist (s : State) (E : BlockError) : (s.raise E).hist = s.hist := rfl
@[simp] theorem State.raise_resultLog (s : State) (E : BlockError) : (s.raise E).resultLog = s.resultLog := rfl
@[simp] theorem State.raise_refused (s : State) (E : BlockError) : (s.raise E).refused = s.refused := rfl
@[simp] theorem State.raise_turns (s : State) (E : BlockError) : (s.raise E).turns = s.turns := rfl
@[simp] theorem State.raise_hostIn (s : State) (E : BlockError) : (s.raise E).hostIn = s.hostIn := rfl
@[simp] theorem State.raise_replies (s : State) (E : BlockError) : (s.raise E).replies = s.replies := rfl
@[simp] theorem State.raise_sim (s : State) (E : BlockError) : (s.raise E).sim = s.sim := rfl

end Sys2Proof.Machine
end

