-- ==== Sys2Proof/Laws/Ops.lean ====
section
/-! SUPPORT. One lemma per shared operation that says everything it can do. -/

namespace Sys2Proof.Machine

/-- A command is refused while another is in progress, and otherwise goes on with `cmd` written. -/
theorem accept_cases (i : Instr) (s : State) (go : State → Out) :
    (s.st = .idle ∧ accept i s go = go { s with cmd := some i }) ∨
      (s.st ≠ .idle ∧ accept i s go = .next s.markRefused) := by
  unfold accept
  by_cases h : s.st = .idle
  · exact .inl ⟨h, if_pos h⟩
  · exact .inr ⟨h, if_neg h⟩

/-- A readable result is `res`, and its status is not reserved. -/
theorem readableResult_ok {s : State} {r : Result} (h : readableResult s = .ok r) :
    s.res = some r ∧ r.status.isReserved = false := by
  unfold readableResult at h
  split at h
  · cases h
  · rename_i r' hr
    split at h
    · cases h
    · rename_i hn
      cases h
      exact ⟨hr, by simpa using hn⟩

/-- What the host's read can do. -/
theorem hostRead_next {s s' : State} (h : hostRead s = .next s') : s' = s ∧ ∃ r, s.res = some r := by
  unfold hostRead at h
  split at h
  · cases h
  · rename_i r hr
    cases h
    exact ⟨rfl, r, (readableResult_ok hr).1⟩

/-- What the host's take can do. -/
theorem takeResult_next {s s' : State} (h : takeResult s = .next s') :
    (s.st.ended = true ∧ ∃ r, s.res = some r ∧ s' = { s with st := .idle, resultLog := s.resultLog ++ [r] }) ∨
      (s.st.ended = false ∧ s' = s.markRefused) := by
  unfold takeResult at h
  split at h <;> rename_i he
  · split at h <;> cases h
    rename_i r hr
    exact .inl ⟨he, r, (readableResult_ok hr).1, rfl⟩
  · cases h
    exact .inr ⟨by simpa using he, rfl⟩

/-- What constructing again can do: it always answers a next state. -/
theorem reconstruct_cases (a t : Option Nat) (s : State) :
    (∃ cfg, configOfArgs a t = some cfg ∧ s.st.quiet = true ∧
      reconstruct a t s = .next { State.constructed cfg with
        resultLog := s.resultLog, turns := s.turns, hostIn := s.hostIn, replies := s.replies, sim := s.sim }) ∨
    reconstruct a t s = .next s.markRefused := by
  unfold reconstruct
  split
  · exact .inr rfl
  · rename_i cfg hc
    by_cases hq : s.st.quiet = true
    · exact .inl ⟨cfg, hc, hq, if_pos hq⟩
    · exact .inr (if_neg hq)

/-- The second half of `ra_read` changes `crc` and `rx` only, and fills `rx` with three bytes or not at all. -/
theorem raReadOutcome_state {reg : Byte} {chk : Bool} {r : BusAnswer} {s s' : State} {o : ReadOutcome}
    (h : raReadOutcome reg chk r s = (o, s')) :
    ∃ c x, s' = { s with crc := c, rx := x } ∧ (x = s.rx ∨ ∃ bs, x = some bs ∧ bs.length = Config.readLen) := by
  unfold raReadOutcome at h
  split at h
  · cases h
    exact ⟨s.crc, s.rx, rfl, .inl rfl⟩
  · split at h <;> cases h <;> exact ⟨_, _, rfl, .inr ⟨_, rfl, rfl⟩⟩
  · cases h
    exact ⟨s.crc, s.rx, rfl, .inl rfl⟩

/-- With a transport failure `ra_read` returns it and changes nothing; without one the answer is three bytes. -/
theorem readFailure_cases (r : BusAnswer) :
    (∃ e, readFailure r = some e ∧ ∀ reg chk s, raReadOutcome reg chk r s = (.bus e, s)) ∨
    (readFailure r = none ∧ ∃ l h p, r = .ok [l, h, p]) := by
  rcases r with (_ | ⟨l, _ | ⟨h, _ | ⟨p, _ | ⟨x, rest⟩⟩⟩⟩) | e
  · exact .inl ⟨_, rfl, fun _ _ _ => rfl⟩
  · exact .inl ⟨_, rfl, fun _ _ _ => rfl⟩
  · exact .inl ⟨_, rfl, fun _ _ _ => rfl⟩
  · exact .inr ⟨rfl, l, h, p, rfl⟩
  · exact .inl ⟨_, rfl, fun _ _ _ => rfl⟩
  · exact .inl ⟨_, rfl, fun _ _ _ => rfl⟩

/-- A read succeeds only on three bytes, with the word they make, and with their PEC right when the check is on. -/
theorem raReadOutcome_ok {reg : Byte} {chk : Bool} {r : BusAnswer} {s s' : State} {w : Word}
    (h : raReadOutcome reg chk r s = (.ok w, s')) :
    ∃ l h' p, r = .ok [l, h', p] ∧ w = word l h' ∧
      (chk = true → pec8 (readCovered s.cfg.busAddress reg l h') = p) := by
  unfold raReadOutcome at h
  split at h
  · cases h
  · rename_i l h' p
    refine ⟨l, h', p, rfl, ?_⟩
    split at h
    · by_cases hp : pec8 (readCovered s.cfg.busAddress reg l h') = p
      · simp only [hp, if_true, Prod.mk.injEq, ReadOutcome.ok.injEq] at h
        exact ⟨h.1.symm, fun _ => hp⟩
      · simp [hp] at h
    · rename_i hc
      simp only [Prod.mk.injEq, ReadOutcome.ok.injEq] at h
      exact ⟨h.1.symm, fun hc' => absurd hc' hc⟩
  · cases h

/-- The accepting step of every command answers a next state. -/
theorem exec_answers (i : Instr) (s : State) : ∃ t, exec i s = .next t := by
  cases i <;>
    simp only [exec, execComputePec, execVerifyPec, execReadWord, execWriteWord, execEepromWrite, accept] <;>
    (repeat' split) <;> exact ⟨_, rfl⟩

/-- What the host's step can do. -/
theorem hostTurn_next {s s' : State} (h : hostTurn s = .next s') :
    (s.hostIn = [] ∧ s' = s) ∨
    ∃ a rest, s.hostIn = a :: rest ∧ hostAct a { s with hostIn := rest } = .next s' := by
  unfold hostTurn at h
  split at h
  · rename_i hh
    cases h
    exact .inl ⟨hh, rfl⟩
  · rename_i a rest hh
    exact .inr ⟨a, rest, hh, h⟩

/-- What issuing a command word can do. -/
theorem issueCommand_cases (w : CmdWord) (data : List Byte) (s : State) :
    (∃ i, decode w data = .ok i ∧ issueCommand w data s = exec i s) ∨
    (∃ e, decode w data = .error e ∧ issueCommand w data s = .next s.markRefused) := by
  unfold issueCommand
  cases h : decode w data with
  | ok i => exact .inl ⟨i, rfl, rfl⟩
  | error e => exact .inr ⟨e, rfl, rfl⟩

end Sys2Proof.Machine
end

