-- ==== Sys2Proof/Laws/Pec.lean ====
section
/-! SUPPORT. The small laws of the CRC step (40_pec.md rule R111), from which the laws of `pec8` follow. -/

namespace Sys2Proof.Machine

/-- A shift is linear. -/
theorem pecShift_xor (x y : Byte) : pecShift (x ^^^ y) = pecShift x ^^^ pecShift y := by
  unfold pecShift
  cases hx : x.getLsbD 7 <;> cases hy : y.getLsbD 7 <;>
    simp only [BitVec.getLsbD_xor, hx, hy, Bool.xor_false, Bool.xor_true, Bool.not_true, Bool.not_false, if_true,
      Bool.false_eq_true, if_false, BitVec.shiftLeft_xor_distrib]
  · rw [BitVec.xor_assoc]
  · rw [BitVec.xor_assoc, BitVec.xor_comm (y <<< 1), ← BitVec.xor_assoc]
  · rw [BitVec.xor_assoc, ← BitVec.xor_assoc Config.pecPoly, BitVec.xor_comm Config.pecPoly, BitVec.xor_assoc,
      BitVec.xor_self, BitVec.xor_zero]

/-- So are `n` shifts. -/
theorem pecShifts_xor (n : Nat) (x y : Byte) : pecShifts n (x ^^^ y) = pecShifts n x ^^^ pecShifts n y := by
  induction n generalizing x y with
  | zero => rfl
  | succ n ih => rw [pecShifts, pecShift_xor, ih]; rfl

@[simp] theorem pecShifts_zero (n : Nat) : pecShifts n 0#8 = 0#8 := by
  induction n with
  | zero => rfl
  | succ n ih => rw [pecShifts, show pecShift 0#8 = 0#8 from by decide, ih]

@[simp] theorem pecStep_self (c : Byte) : pecStep c c = 0 := by
  simp [pecStep]

/-- One step from the exclusive-or of two accumulators and two bytes. -/
theorem pecStep_xor (c d a b : Byte) : pecStep (c ^^^ d) (a ^^^ b) = pecStep c a ^^^ pecStep d b := by
  rw [pecStep, pecStep, pecStep, ← pecShifts_xor]
  congr 1
  simp only [BitVec.xor_assoc]
  congr 1
  rw [← BitVec.xor_assoc, BitVec.xor_comm d a, BitVec.xor_assoc]

@[simp] theorem pecFrom_nil (c : Byte) : pecFrom c [] = c := rfl

@[simp] theorem pecFrom_cons (c b : Byte) (bs : List Byte) : pecFrom c (b :: bs) = pecFrom (pecStep c b) bs := rfl

theorem pecFrom_append (c : Byte) (as bs : List Byte) : pecFrom c (as ++ bs) = pecFrom (pecFrom c as) bs := by
  simp [pecFrom, List.foldl_append]

theorem pec8_eq_pecFrom (bs : List Byte) : pec8 bs = pecFrom 0 bs := by
  simp [pec8, Config.pecInit, Config.pecXorOut]

end Sys2Proof.Machine
end

