-- ==== Sys2Proof/Laws/PerInstr.lean ====
section
/-! SUPPORT. The per-instruction statements, one lemma per constructor of `Instr`. -/

/-- Every command's record of rule R80 is well formed and spells the command again. -/
def Sys2Proof.Laws.RecordForm.Statement (i : Sys2Proof.Instr) : Prop :=
  i.toCommand.op = i.op ∧ i.toCommand.wellFormed = true ∧ i.toCommand.toInstr = some i

theorem Sys2Proof.Laws.RecordForm.computePec (data : List Sys2Proof.Byte) :
    Sys2Proof.Laws.RecordForm.Statement (.computePec data) := ⟨rfl, rfl, rfl⟩

theorem Sys2Proof.Laws.RecordForm.verifyPec (data : List Sys2Proof.Byte) (rcv : Sys2Proof.Byte) :
    Sys2Proof.Laws.RecordForm.Statement (.verifyPec data rcv) := ⟨rfl, rfl, rfl⟩

theorem Sys2Proof.Laws.RecordForm.readWord (reg : Sys2Proof.Byte) (checkPec : Bool) :
    Sys2Proof.Laws.RecordForm.Statement (.readWord reg checkPec) := ⟨rfl, rfl, rfl⟩

theorem Sys2Proof.Laws.RecordForm.writeWord (reg : Sys2Proof.Byte) (val : Sys2Proof.Word) (checkPec : Bool) :
    Sys2Proof.Laws.RecordForm.Statement (.writeWord reg val checkPec) := ⟨rfl, rfl, rfl⟩

theorem Sys2Proof.Laws.RecordForm.eepromWrite (reg : Sys2Proof.Byte) (val : Sys2Proof.Word) (verify : Bool) :
    Sys2Proof.Laws.RecordForm.Statement (.eepromWrite reg val verify) := ⟨rfl, rfl, rfl⟩

/-- Every command's word has its operation's code in bits 2:0 and zeros in bits 7:4 (rule R81). -/
def Sys2Proof.Laws.WordForm.Statement (i : Sys2Proof.Instr) : Prop :=
  Sys2Proof.opField (Sys2Proof.encode i).1 = i.op.code ∧ Sys2Proof.reservedField (Sys2Proof.encode i).1 = 0 ∧
    (Sys2Proof.encode i).2 = i.toCommand.data

theorem Sys2Proof.Laws.WordForm.computePec (data : List Sys2Proof.Byte) :
    Sys2Proof.Laws.WordForm.Statement (.computePec data) :=
  ⟨Sys2Proof.opField_packWord _ _ _ _, Sys2Proof.reservedField_packWord _ _ _ _, rfl⟩

theorem Sys2Proof.Laws.WordForm.verifyPec (data : List Sys2Proof.Byte) (rcv : Sys2Proof.Byte) :
    Sys2Proof.Laws.WordForm.Statement (.verifyPec data rcv) :=
  ⟨Sys2Proof.opField_packWord _ _ _ _, Sys2Proof.reservedField_packWord _ _ _ _, rfl⟩

theorem Sys2Proof.Laws.WordForm.readWord (reg : Sys2Proof.Byte) (checkPec : Bool) :
    Sys2Proof.Laws.WordForm.Statement (.readWord reg checkPec) :=
  ⟨Sys2Proof.opField_packWord _ _ _ _, Sys2Proof.reservedField_packWord _ _ _ _, rfl⟩

theorem Sys2Proof.Laws.WordForm.writeWord (reg : Sys2Proof.Byte) (val : Sys2Proof.Word) (checkPec : Bool) :
    Sys2Proof.Laws.WordForm.Statement (.writeWord reg val checkPec) :=
  ⟨Sys2Proof.opField_packWord _ _ _ _, Sys2Proof.reservedField_packWord _ _ _ _, rfl⟩

theorem Sys2Proof.Laws.WordForm.eepromWrite (reg : Sys2Proof.Byte) (val : Sys2Proof.Word) (verify : Bool) :
    Sys2Proof.Laws.WordForm.Statement (.eepromWrite reg val verify) :=
  ⟨Sys2Proof.opField_packWord _ _ _ _, Sys2Proof.reservedField_packWord _ _ _ _, rfl⟩
end

