-- ==== Sys2Proof/Laws/Step.lean ====
section
/-! SUPPORT. What a step can do, said once: the turn taken, and each agent's cases. -/

namespace Sys2Proof.Machine

/-- A step is the machine waiting unchanged, or one agent's turn from the same state with some schedule left. -/
theorem step_cases (s : State) :
    step s = .next s ∨
    ∃ t tt, step s = agentTurn t { s with turns := tt } ∧
      (s.turns = t :: tt ∨ (s.turns = [] ∧ tt = [] ∧ s.defaultTurn = some t)) := by
  unfold step
  split
  · rename_i t rest ht
    exact .inr ⟨t, rest, rfl, .inl ht⟩
  · rename_i ht
    split
    · rename_i t hd
      refine .inr ⟨t, [], ?_, .inr ⟨ht, rfl, hd⟩⟩
      congr 1
      cases s
      simp_all
    · exact .inl rfl

/-- What the block's own step can do: nothing, or issue the one request of its state. -/
theorem blockTurn_next {s s' : State} (h : blockTurn s = .next s') :
    s' = s ∨
    (s.pending = none ∧
      ((∃ reg chk, s.st = .regAccess ∧ s.cmd = some (.readWord reg chk) ∧ s' = raReadIssue reg s) ∨
       (∃ reg val chk, s.st = .regAccess ∧ s.cmd = some (.writeWord reg val chk) ∧ s' = raWriteIssue reg val s) ∨
       (∃ d, s.st = .erasing ∧ s.desc = some d ∧ s' = raWriteIssue d.reg eraseValue s) ∨
       (∃ d, s.st = .writing ∧ s.desc = some d ∧ s' = raWriteIssue d.reg d.newVal s) ∨
       (∃ d, s.st = .verifying ∧ s.desc = some d ∧ s' = raReadIssue d.reg s))) := by
  unfold blockTurn at h
  split at h
  · cases h
    exact .inl rfl
  · rename_i hp
    split at h
    · rename_i hs
      refine .inr ⟨hp, ?_⟩
      cases hc : s.cmd with
      | none => simp [regAccessIssue, hc] at h
      | some i =>
        cases i <;> simp [regAccessIssue, hc] at h
        · exact .inl ⟨_, _, hs, rfl, h.symm⟩
        · exact .inr (.inl ⟨_, _, _, hs, rfl, h.symm⟩)
    · rename_i hs
      refine .inr ⟨hp, .inr (.inr (.inl ?_))⟩
      cases hd : s.desc with
      | none => simp [erasingIssue, withDesc, hd] at h
      | some d =>
        simp [erasingIssue, withDesc, hd] at h
        exact ⟨d, hs, rfl, h.symm⟩
    · rename_i hs
      refine .inr ⟨hp, .inr (.inr (.inr (.inl ?_)))⟩
      cases hd : s.desc with
      | none => simp [writingIssue, withDesc, hd] at h
      | some d =>
        simp [writingIssue, withDesc, hd] at h
        exact ⟨d, hs, rfl, h.symm⟩
    · rename_i hs
      refine .inr ⟨hp, .inr (.inr (.inr (.inr ?_)))⟩
      cases hd : s.desc with
      | none => simp [verifyingIssue, withDesc, hd] at h
      | some d =>
        simp [verifyingIssue, withDesc, hd] at h
        exact ⟨d, hs, rfl, h.symm⟩
    all_goals
      cases h
      exact .inl rfl

/-- What the transport's step can do: nothing, or deliver its next reply to the outstanding request. -/
theorem transportTurn_cases (s : State) :
    (transportTurn s = .next s ∧ (s.pending = none ∨ s.replies = [])) ∨
    ∃ q rep rest, s.pending = some q ∧ s.replies = rep :: rest ∧
      transportTurn s = blockAnswer (rep.answer q s.sim).1
        (({ s with replies := rest, sim := (rep.answer q s.sim).2 } : State).receive q (rep.answer q s.sim).1) := by
  unfold transportTurn
  split
  · rename_i q rep rest hp hr
    exact .inr ⟨q, rep, rest, hp, hr, rfl⟩
  · rename_i hr
    exact .inl ⟨rfl, .inr hr⟩
  · rename_i hp
    exact .inl ⟨rfl, .inl hp⟩

/-- The states in which the block waits for the answer to a write of the EEPROM sequence, with the delay state after each. -/
def WriteStates (S T : CtrlState) : Prop :=
  (S = .erasing ∧ T = .awaitEraseDelay) ∨ (S = .writing ∧ T = .awaitWriteDelay)

/-- What a write's answer does in the EEPROM sequence: on `Ok` the delay begins, on an error the command ends. -/
theorem sequenceWriteAnswer_next {T : CtrlState} {r : BusAnswer} {s s' : State} (h : sequenceWriteAnswer T r s = .next s') :
    (∃ d, s.desc = some d ∧ raWriteOutcome r = .ok ∧ s' = s.startWait T d.delayMs) ∨
    (∃ e, raWriteOutcome r = .bus e ∧ s' = s.raise (.busError e)) := by
  unfold sequenceWriteAnswer at h
  split at h <;> rename_i ho
  · rcases Option.eq_none_or_eq_some s.desc with hd | ⟨d, hd⟩ <;> simp only [withDesc, hd] at h <;> cases h
    exact .inl ⟨d, hd, ho, rfl⟩
  · cases h
    exact .inr ⟨_, ho, rfl⟩

/-- What the verify read's answer does: the command ends well or with an error; beside that only `crc` and `rx` can change. -/
theorem verifyingAnswer_next {r : BusAnswer} {s s' : State} (h : verifyingAnswer r s = .next s') :
    ∃ c x, (s' = ({ s with crc := c, rx := x } : State).finish .success) ∨
      ∃ E, s' = ({ s with crc := c, rx := x } : State).raise E := by
  unfold verifyingAnswer at h
  split at h
  · cases h
    exact ⟨s.crc, s.rx, .inr ⟨_, rfl⟩⟩
  · rcases Option.eq_none_or_eq_some s.desc with hd | ⟨d, hd⟩ <;> simp only [withDesc, hd] at h
    · cases h
    · unfold verifyingCompare at h
      split at h <;> rename_i ho <;> obtain ⟨c, x, rfl, -⟩ := raReadOutcome_state ho
      · split at h <;> cases h
        · exact ⟨c, x, .inl rfl⟩
        · exact ⟨c, x, .inr ⟨_, rfl⟩⟩
      · cases h
        exact ⟨c, x, .inr ⟨_, rfl⟩⟩
      · cases h
        exact ⟨c, x, .inr ⟨_, rfl⟩⟩

/-- What the block does with an answer: it begins a delay, ends the command well, or raises an error; beside that only `crc`
and `rx` can change. -/
theorem blockAnswer_next {r : BusAnswer} {s s' : State} (h : blockAnswer r s = .next s') :
    (∃ T d, WriteStates s.st T ∧ s.desc = some d ∧ raWriteOutcome r = .ok ∧ s' = s.startWait T d.delayMs) ∨
    (∃ c x res, s' = ({ s with crc := c, rx := x } : State).finish res ∧
      (s.st = .regAccess ∨ (s.st = .verifying ∧ res = .success))) ∨
    (∃ c x E, s' = ({ s with crc := c, rx := x } : State).raise E ∧ (s.st = .regAccess ∨ s.st.isEepromRequest = true)) := by
  unfold blockAnswer at h
  split at h
  · rename_i hs
    rcases Option.eq_none_or_eq_some s.cmd with hc | ⟨i, hc⟩
    · simp [regAccessAnswer, hc] at h
    · cases i <;> simp only [regAccessAnswer, hc, readWordAnswer, writeWordAnswer] at h <;> try (cases h; done)
      · split at h <;> cases h <;> rename_i ho <;> obtain ⟨c, x, rfl, -⟩ := raReadOutcome_state ho
        · exact .inr (.inl ⟨c, x, _, rfl, .inl hs⟩)
        · exact .inr (.inr ⟨c, x, _, rfl, .inl hs⟩)
        · exact .inr (.inr ⟨c, x, _, rfl, .inl hs⟩)
      · split at h <;> cases h
        · exact .inr (.inl ⟨s.crc, s.rx, _, rfl, .inl hs⟩)
        · exact .inr (.inr ⟨s.crc, s.rx, _, rfl, .inl hs⟩)
  · rename_i hs
    rcases sequenceWriteAnswer_next h with ⟨d, hd, ho, rfl⟩ | ⟨e, -, rfl⟩
    · exact .inl ⟨_, d, .inl ⟨hs, rfl⟩, hd, ho, rfl⟩
    · exact .inr (.inr ⟨s.crc, s.rx, _, rfl, .inr (by rw [hs]; rfl)⟩)
  · rename_i hs
    rcases sequenceWriteAnswer_next h with ⟨d, hd, ho, rfl⟩ | ⟨e, -, rfl⟩
    · exact .inl ⟨_, d, .inr ⟨hs, rfl⟩, hd, ho, rfl⟩
    · exact .inr (.inr ⟨s.crc, s.rx, _, rfl, .inr (by rw [hs]; rfl)⟩)
  · rename_i hs
    obtain ⟨c, x, rfl | ⟨E, rfl⟩⟩ := verifyingAnswer_next h
    · exact .inr (.inl ⟨c, x, _, rfl, .inr ⟨hs, rfl⟩⟩)
    · exact .inr (.inr ⟨c, x, _, rfl, .inr (by rw [hs]; rfl)⟩)
  all_goals cases h

/-- The time an `Elapsed` shows is the timer's duration. -/
theorem State.elapsedMs_of_some {s : State} {t : Millis} (h : s.tmrMs = some t) : s.elapsedMs = t.toNat := by
  simp [State.elapsedMs, h]

/-- What the timer's step can do: nothing when unarmed; otherwise one `Elapsed`, and the delay state is left. -/
theorem timerTurn_next {s s' : State} (h : timerTurn s = .next s') :
    (s.tmrArmed = false ∧ s' = s) ∨
    (s.tmrArmed = true ∧ ∃ dev, dev = s.sim.map (fun d => d.advance s.elapsedMs) ∧
      ((s.st = .awaitEraseDelay ∧ s' = { ({ s with sim := dev } : State).endWait with st := .writing }) ∨
       (∃ d, s.st = .awaitWriteDelay ∧ s.desc = some d ∧
         ((d.verify = true ∧ s' = { ({ s with sim := dev } : State).endWait with st := .verifying }) ∨
          (d.verify = false ∧ s' = finishOk ({ s with sim := dev } : State).endWait))))) := by
  unfold timerTurn at h
  split at h
  · rename_i ha
    refine .inr ⟨ha, _, rfl, ?_⟩
    cases hs : s.st <;> simp only [blockElapsed, State.endWait_st, hs] at h <;> try (cases h; done)
    · simp only [eraseDelayElapsed] at h
      cases h
      exact .inl ⟨rfl, rfl⟩
    · cases hd : s.desc with
      | none => simp [writeDelayElapsed, withDesc, hd] at h
      | some d =>
        refine .inr ⟨d, rfl, rfl, ?_⟩
        simp only [writeDelayElapsed, withDesc, State.endWait_desc, hd] at h
        split at h <;> rename_i hv <;> cases h
        · exact .inl ⟨hv, by simp [State.endWait]⟩
        · exact .inr ⟨by simpa using hv, by simp [finishOk, State.finish, State.endWait]⟩
  · rename_i ha
    cases h
    exact .inl ⟨by simpa using ha, rfl⟩

end Sys2Proof.Machine
end

