-- ==== Sys2Proof/Machine/Assembler.lean ====
section
/-! DEFINITION. The assembler syntax of 30_encoding.md rules R94 and R95, a host-side convenience for test programs: one line
is one command or one macro (DESIGN CHOICE, log entry 27). The block never sees it. -/

namespace Sys2Proof.Machine

/-- A token of an assembly line. -/
inductive AsmToken where
  | name (cs : List Char)
  | openBracket
  | closeBracket
  | comma
  | equals
  deriving DecidableEq, Repr

/-- An assembly line: a command of rule R94 or a macro of rule R95. -/
inductive AsmLine where
  | command (i : Instr)
  | readBlock (checkPec : Bool)
  | rmwField (reg : Byte) (mask bits : Word) (verify : Bool)
  deriving DecidableEq, Repr

/-- Letters, digits and `_` make names and numbers. -/
def isNameChar (c : Char) : Bool := c.isAlphanum || c == '_'

/-- The token of a punctuation character; a space separates. -/
def punctuation (c : Char) : Option (List AsmToken) :=
  if c == ' ' then some []
  else if c == '[' then some [.openBracket]
  else if c == ']' then some [.closeBracket]
  else if c == ',' then some [.comma]
  else if c == '=' then some [.equals]
  else none

/-- The name read so far (kept in reverse), as a token. -/
def nameSoFar (acc : List Char) : List AsmToken := if acc.isEmpty then [] else [.name acc.reverse]

/-- The tokens of a line; `none` on a character the syntax does not use. -/
def asmTokens : List Char → List Char → Option (List AsmToken)
  | acc, [] => some (nameSoFar acc)
  | acc, c :: cs =>
    if isNameChar c then asmTokens (c :: acc) cs
    else
      match punctuation c, asmTokens [] cs with
      | some p, some ts => some (nameSoFar acc ++ p ++ ts)
      | some _, none => none
      | none, _ => none

/-- The sixteen digits of rule R10's hexadecimal numbers, each at the place of its value; the first ten are the decimal ones. -/
def digitNames : List Char := "0123456789abcdef".toList

/-- The value of a digit, hexadecimal letters in either case (DESIGN CHOICE, log entry 27). -/
def digitValue (c : Char) : Option Nat := digitNames.findIdx? (· == c.toLower)

/-- Digits in a base, most significant first; `acc` is the value so far. -/
def digitsValue (base acc : Nat) : List Char → Option Nat
  | [] => some acc
  | c :: cs =>
    match digitValue c with
    | none => none
    | some d => if d < base then digitsValue base (base * acc + d) cs else none

/-- "Operands are hexadecimal or decimal" (rule R94), `0x` marking hexadecimal (rule R10). -/
def numberOf (cs : List Char) : Option Nat :=
  match cs with
  | '0' :: 'x' :: d :: ds => digitsValue 16 0 (d :: ds)
  | [] => none
  | d :: ds => digitsValue 10 0 (d :: ds)

/-- A number that fits `w` bits. -/
def bitsOf (w : Nat) (cs : List Char) : Option (BitVec w) :=
  match numberOf cs with
  | none => none
  | some n => if n < 2 ^ w then some (BitVec.ofNat w n) else none

/-- "`pec=`, `verify=` take 0 or 1" (rule R94). -/
def flagOf (cs : List Char) : Option Bool :=
  match cs with
  | ['0'] => some false
  | ['1'] => some true
  | _ => none

/-- The bytes after the first one of a bracketed list, and the tokens after the list. -/
def bytesAfterFirst : List AsmToken → Option (List Byte × List AsmToken)
  | .closeBracket :: rest => some ([], rest)
  | .comma :: .name n :: rest =>
    match bitsOf 8 n, bytesAfterFirst rest with
    | some b, some (bs, rest) => some (b :: bs, rest)
    | _, _ => none
  | _ => none

/-- A bracketed byte list, its opening bracket already read, and the tokens after it. -/
def bytesInBrackets : List AsmToken → Option (List Byte × List AsmToken)
  | .closeBracket :: rest => some ([], rest)
  | .name n :: rest =>
    match bitsOf 8 n, bytesAfterFirst rest with
    | some b, some (bs, rest) => some (b :: bs, rest)
    | _, _ => none
  | _ => none

/-- The line a token list spells (rules R94 and R95). -/
def lineOfTokens (ts : List AsmToken) : Option AsmLine :=
  match ts with
  | .name m :: .openBracket :: rest =>
    match bytesInBrackets rest with
    | some (bs, []) => if m = "COMPUTE_PEC".toList then some (.command (.computePec bs)) else none
    | some (bs, [.comma, .name n]) =>
      if m = "VERIFY_PEC".toList then (bitsOf 8 n).map fun rcv => .command (.verifyPec bs rcv) else none
    | _ => none
  | [.name m, .name r, .comma, .name k, .equals, .name f] =>
    if m = "READ_WORD".toList ∧ k = "pec".toList then
      match bitsOf 8 r, flagOf f with
      | some reg, some chk => some (.command (.readWord reg chk))
      | _, _ => none
    else none
  | [.name m, .name r, .comma, .name v, .comma, .name k, .equals, .name f] =>
    match bitsOf 8 r, bitsOf 16 v, flagOf f with
    | some reg, some val, some b =>
      if m = "WRITE_WORD".toList ∧ k = "pec".toList then some (.command (.writeWord reg val b))
      else if m = "EEPROM_WRITE".toList ∧ k = "verify".toList then some (.command (.eepromWrite reg val b))
      else none
    | _, _, _ => none
  | [.name m, .name k, .equals, .name f] =>
    if m = "READ_BLOCK".toList ∧ k = "pec".toList then (flagOf f).map .readBlock else none
  | [.name m, .name r, .comma, .name mk, .comma, .name bt, .comma, .name k, .equals, .name f] =>
    if m = "RMW_FIELD".toList ∧ k = "verify".toList then
      match bitsOf 8 r, bitsOf 16 mk, bitsOf 16 bt, flagOf f with
      | some reg, some mask, some bits, some y => some (.rmwField reg mask bits y)
      | _, _, _, _ => none
    else none
  | _ => none

/-- The line a text spells. -/
def parseLine (text : String) : Option AsmLine :=
  match asmTokens [] text.toList with
  | none => none
  | some ts => lineOfTokens ts

/-- The command words a line assembles to, those of a macro known before it runs (rules R94 and R95): the whole of
READ_BLOCK, and the READ_WORD of RMW_FIELD. -/
def assemble (text : String) : Option (List (CmdWord × List Byte)) :=
  match parseLine text with
  | none => none
  | some (.command i) => some [encode i]
  | some (.readBlock chk) => some ((readBlock chk).map encode)
  | some (.rmwField reg _ _ _) => some [encode (rmwRead reg)]

end Sys2Proof.Machine
end

