-- ==== Sys2Proof/Tests/Slice0.lean ====
section
/-! SUPPORT. The model's own tests, their expected values from spec/95_test_vectors.md, the well-formedness smoke tests, and
a witness for the hypotheses of every statement. -/

namespace Sys2Proof.Tests

open Sys2Proof.Machine Sys2Proof.Safety

/-! ### Helpers -/

/-- The state an outcome goes to. -/
def got : Out → Option State
  | .next s => some s
  | .fault _ => none
  | .refused _ => none

/-- A field of the state an outcome goes to. -/
def field {α : Type} (f : State → α) (o : Out) : Option α := (got o).map f

/-- A register command in progress, with answers coming. -/
def accessing (i : Instr) (replies : List Reply) : State :=
  { State.reset with st := .regAccess, cmd := some i, replies := replies }

/-- The descriptor of `EEPROM_WRITE 0x13, 0xFFFF, verify=` at 50 ms. -/
def job (verify : Bool) : EepromDescriptor := ⟨0x13, none, 0xFFFF, 50, verify⟩

/-- `EEPROM_WRITE 0x13, 0xFFFF, verify=` in progress in state `S`. -/
def writingIn (S : CtrlState) (verify : Bool) (replies : List Reply) : State :=
  { State.reset with st := S, cmd := some (.eepromWrite 0x13 0xFFFF verify), desc := some (job verify), replies := replies }

/-- A command has ended. -/
def ended (S : CtrlState) (r : Result) : State :=
  { State.reset with st := S, cmd := some (.computePec []), res := some r }

/-- A device with every word at `w` and no write cycle. -/
def deviceAt (w : Word) (minMs : Nat) : Device := ⟨Vector.replicate 16 w, Vector.replicate 16 none, 0, 0, minMs⟩

/-- A draw with no error and no instability. -/
def calmDraw : DeviceDraw := ⟨Vector.replicate 16 0xDEAD, 0xBEEF, none, (1, 2, 3), none, 0x1234, none⟩

/-! ### Decoding and well-formedness -/

-- The words below are written out bit by bit from 30_encoding.md rule R96.
theorem test_decode_compute_pec :
    decode 0b0000000000000000_00000000_0000_0_000#32 [0x31] = .ok (.computePec [0x31]) := rfl

theorem test_decode_verify_pec :
    decode 0b0000000000000000_11110100_0000_0_001#32 [0x31] = .ok (.verifyPec [0x31] 0xF4) := rfl

theorem test_decode_read_word :
    decode 0b0000000000000000_00100111_0000_1_010#32 [] = .ok (.readWord 0x27 true) := rfl

theorem test_decode_write_word :
    decode 0b0001001000110100_00100101_0000_1_011#32 [] = .ok (.writeWord 0x25 0x1234 true) := rfl

theorem test_decode_eeprom_write :
    decode 0b0011000000000000_00010010_0000_1_100#32 [] = .ok (.eepromWrite 0x12 0x3000 true) := rfl

theorem test_encode_words :
    encode (.readWord 0x26 false) = (0x00002602#32, []) ∧ encode (.writeWord 0x10 0x355A false) = (0x355A1003#32, []) ∧
      encode (.eepromWrite 0x13 0x0000 false) = (0x00001304#32, []) ∧
      encode (.verifyPec [1] 0xBE) = (0x0000BE01#32, [1]) ∧ encode (.computePec [1]) = (0x00000000#32, [1]) := by decide

/-- Why a word is refused. -/
def refusal (w : CmdWord) (data : List Byte) : Option DecodeError :=
  match decode w data with
  | .ok _ => none
  | .error e => some e

-- 95_test_vectors.md L2.2, words that spell no command.
theorem test_refused_words :
    [0x00000005#32, 0x00000006#32, 0x00000007#32].map (refusal · []) = List.replicate 3 (some .reservedOp) ∧
      [0x00000010#32, 0x0000268A#32, 0x00001343#32, 0x000013F4#32].map (refusal · []) =
        List.replicate 4 (some .reservedBits) ∧
      [0x00000008#32, 0x0000F409#32].map (refusal · []) = List.replicate 2 (some .flagNotZero) ∧
      [0x00010000#32, 0x0001F401#32, 0x00010002#32].map (refusal · []) = List.replicate 3 (some .valNotZero) ∧
      refusal 0x00000100#32 [] = some .regNotZero ∧ refusal 0x0000260A#32 [0x00] = some .dataNotEmpty := by decide

theorem test_table_word : decodeTableWord 32 0x0000120A = some (.readWord 0x12 true) ∧ decodeTableWord 32 5 = none := by
  decide

-- Ill-formed terms, one for each check of WellFormed.
theorem test_ill_formed_data :
    (Instr.computePec [1, 2, 3]).wellFormedWithin (some 2) = false ∧
      (Instr.verifyPec [1, 2, 3] 0).wellFormedWithin (some 2) = false ∧
      (Instr.verifyPec [1, 2] 0).wellFormedWithin (some 2) = true ∧ (Instr.computePec [1, 2, 3]).wellFormed = true := by decide

theorem test_ill_formed_pec_records :
    (⟨.computePec, true, 0, 0, 0, []⟩ : Command).toInstr = none ∧ (⟨.computePec, false, 1, 0, 0, []⟩ : Command).toInstr = none ∧
      (⟨.computePec, false, 0, 1, 0, []⟩ : Command).toInstr = none ∧
      (⟨.computePec, false, 0, 0, 1, []⟩ : Command).toInstr = none ∧
      (⟨.verifyPec, true, 0, 0, 0, []⟩ : Command).toInstr = none ∧ (⟨.verifyPec, false, 1, 0, 0, []⟩ : Command).toInstr = none ∧
      (⟨.verifyPec, false, 0, 0, 1, []⟩ : Command).toInstr = none := by decide

theorem test_ill_formed_register_records :
    (⟨.readWord, true, 0x26, 1, 0, []⟩ : Command).toInstr = none ∧ (⟨.readWord, true, 0x26, 0, 1, []⟩ : Command).toInstr = none ∧
      (⟨.readWord, true, 0x26, 0, 0, [0]⟩ : Command).toInstr = none ∧
      (⟨.writeWord, true, 0x26, 1, 0, []⟩ : Command).toInstr = none ∧
      (⟨.writeWord, true, 0x26, 0, 0, [0]⟩ : Command).toInstr = none ∧
      (⟨.eepromWrite, true, 0x13, 1, 0, []⟩ : Command).toInstr = none ∧
      (⟨.eepromWrite, true, 0x13, 0, 0, [0]⟩ : Command).toInstr = none := by decide

-- 95_test_vectors.md L2.2.
theorem test_assemble :
    assemble "READ_WORD 0x26, pec=0" = some [(0x00002602#32, [])] ∧
      assemble "EEPROM_WRITE 0x10, 0x355A, verify=1" = some [(0x355A100C#32, [])] ∧
      assemble "VERIFY_PEC [0xB6, 19], 0xF4" = some [(0x0000F401#32, [0xB6, 0x13])] ∧
      assemble "WRITE_WORD 0x113, 0, pec=0" = none := by decide

theorem test_read_block_words :
    (assemble "READ_BLOCK pec=1").map (fun l => (l.length, l.head?, l.getLast?)) =
      some (16, some (0x0000100A#32, []), some (0x00001F0A#32, [])) := by decide

/-! ### The PEC generator -/

-- 95_test_vectors.md L2.1.
theorem test_pec_vectors :
    pec8 [] = 0x00 ∧ pec8 [0x01] = 0x07 ∧ pec8 [0x80] = 0x89 ∧ pec8 [0xFF] = 0xF3 ∧ pec8 [0x01, 0x00] = 0x15 ∧
      pec8 [0xB6, 0x13] = 0x48 ∧ pec8 [0xB6, 0x13, 0x00, 0x00] = 0xF3 ∧ pec8 [0xB6, 0x26, 0xB7, 0xEB, 0x3A] = 0xBE := by
  decide +kernel

theorem test_pec_check_value : pec8 [0x31, 0x32, 0x33, 0x34, 0x35, 0x36, 0x37, 0x38, 0x39] = 0xF4 := by decide +kernel

-- 95_test_vectors.md L2.3.
theorem test_compute_pec :
    field State.res (exec (.computePec [0xB6, 0x13, 0x00, 0x00]) State.reset) = some (some (.ofPec 0xF3)) := by decide +kernel

theorem test_verify_pec_false :
    field (fun s => (s.st, s.res)) (exec (.verifyPec [0xB6, 0x26, 0xB7, 0xEA, 0x3A] 0xBE) State.reset) =
      some (.done, some (.ofMatch false)) := by decide +kernel

/-! ### Register access -/

-- 95_test_vectors.md L2.4.
theorem test_read_word_boundaries :
    [0x10, 0x1F, 0x25, 0x27].map (fun r => field State.st (exec (.readWord r true) State.reset)) =
        List.replicate 4 (some .regAccess) ∧
      [0x0F, 0x20, 0x24, 0x28].map (fun r => field State.res (exec (.readWord r true) State.reset)) =
        List.replicate 4 (some (some (.plain .invalidRegister))) := by decide

/-- The transport's answer to READ_WORD 0x26 with its request outstanding. -/
def readAnswered (chk : Bool) (bs : List Byte) : Option (CtrlState × Option Result) :=
  field (fun s => (s.st, s.res))
    (step { accessing (.readWord 0x26 chk) [.given (.ok bs)] with pending := some (.writeRead 0x5B [0x26] 3) })

theorem test_read_word_answers :
    readAnswered true [0xEB, 0x3A, 0xBE] = some (.done, some (.ofValue 0x3AEB)) ∧
      readAnswered true [0xEB, 0x3A, 0xBF] = some (.error, some (.plain .pecMismatch)) ∧
      readAnswered false [0xEB, 0x3A, 0xBF] = some (.done, some (.ofValue 0x3AEB)) ∧
      readAnswered true [0xEB, 0x3A] =
        some (.error, some { Result.plain .busError with busInfo := some .shortRead }) := by decide +kernel

-- 95_test_vectors.md L2.5.
theorem test_write_word_request :
    field State.pending (step (accessing (.writeWord 0x25 0x1234 true) [])) =
        some (some (.write 0x5B [0x25, 0x34, 0x12, 0xBC])) ∧
      field State.pending (step { accessing (.writeWord 0x10 0x355A false) [] with cfg := ⟨0x00, 50⟩ }) =
        some (some (.write 0x00 [0x10, 0x5A, 0x35, 0xA7])) := by decide +kernel

theorem test_write_word_bus_error :
    field State.res (step { accessing (.writeWord 0x10 0x355A false) [.given (.busError ⟨7⟩)] with
        pending := some (.write 0x5B [0x10, 0x5A, 0x35, 0x4B]) }) =
      some (some { Result.plain .busError with busInfo := some (.transport ⟨7⟩) }) := by decide

/-! ### The EEPROM write controller -/

-- 95_test_vectors.md L2.6.
theorem test_eeprom_write_requests :
    field State.pending (step (writingIn .erasing true [])) = some (some (.write 0x5B [0x13, 0x00, 0x00, 0xF3])) ∧
      field State.pending (step (writingIn .writing true [])) = some (some (.write 0x5B [0x13, 0xFF, 0xFF, 0xD7])) ∧
      field State.pending (step (writingIn .verifying true [])) = some (some (.writeRead 0x5B [0x13] 3)) := by
  decide +kernel

theorem test_eeprom_write_verify_mismatch :
    field State.res (step { writingIn .verifying true [.given (.ok [0xFE, 0xFF, 0x1A])] with
        pending := some (.writeRead 0x5B [0x13] 3) }) =
      some (some { Result.plain .eepromVerify with
        value := some 0xFFFE, failedState := some .verifying, indeterminate := true }) := by decide +kernel

-- 95_test_vectors.md L2.7.
theorem test_reset_read_faults : step { State.reset with hostIn := [.readResult] } = .fault .resAbsent := rfl

theorem test_take_returns_to_idle :
    field (fun s => (s.st, s.res)) (step { ended .done (.ofPec 5) with hostIn := [.takeResult] }) =
      some (.idle, some (.ofPec 5)) := by decide

-- 95_test_vectors.md L3 P3 and P5.
theorem test_rmw_merge : rmwMerge 0x1000 0x7000 0x3000 = 0x3000 ∧ rmwMerge 0x355B 0x007F 0x005A = 0x355A := by decide

-- 70_reset_and_hazards.md rule R261.
theorem test_bit_periods :
    bitPeriods ((writeRequest 0x5B 0x13 0).wire []) = 47 ∧ bitPeriods ((readRequest 0x5B 0x13).wire [1, 2, 3]) = 57 := by
  decide +kernel

/-! ### Witnesses: for each statement, concrete values that meet its hypotheses together -/

theorem witness_EncodedCommandDecodesBack :
    (Instr.computePec []).wellFormed = true ∧ (Instr.eepromWrite 0xFF 0xFFFF true).wellFormed = true := by decide

theorem witness_DecodedWordHasOneSpelling : decode 0xFFFFFF0C#32 [] = .ok (.eepromWrite 0xFF 0xFFFF true) := rfl

theorem witness_WordSpellsCommandExactlyWhenItsRowMatches :
    ⟨.readWord, 0x00000002#32, 0xFFFF00F7#32, false⟩ ∈ opcodeRows ∧
      OpcodeRow.accepts ⟨.readWord, 0x00000002#32, 0xFFFF00F7#32, false⟩ 0x0000FF0A#32 [] = true := by decide

theorem witness_StepRunsTheDecodedCommand :
    decode 0x0000270A#32 [] = .ok (.readWord 0x27 true) ∧ decodeTableWord 32 0x0000270A = some (.readWord 0x27 true) ∧
      TakesTurn { State.reset with turns := [.host], hostIn := [.command 0x0000270A#32 []] } .host ∧
      TakesTurn { State.reset with hostIn := [.command 0x0000270A#32 []] } .host :=
  ⟨rfl, rfl, .inl rfl, .inr ⟨rfl, by decide⟩⟩

theorem not_reconstructs_of_empty {s : State} (h : s.hostIn = []) : ¬ Reconstructs s := by
  rintro ⟨-, a, t, hh⟩
  simp [h] at hh

theorem witness_WordThatSpellsNoCommandOnlySetsTheMark :
    decode 0x00000007#32 [] = .error .reservedOp ∧
      TakesTurn { State.reset with turns := [.host], hostIn := [.command 0x00000007#32 []] } .host ∧
      TakesTurn { State.reset with hostIn := [.command 0x00000007#32 []] } .host ∧
      (∃ s', step { State.reset with refused := true } = .next s') ∧
      ¬ Reconstructs { State.reset with refused := true } :=
  ⟨rfl, .inl rfl, .inr ⟨rfl, by decide⟩, ⟨_, rfl⟩, not_reconstructs_of_empty rfl⟩

theorem witness_CommandWhileBusyIsRefused : (writingIn .awaitEraseDelay true []).st ≠ .idle := by decide

theorem witness_AcceptingStepFrame :
    (∃ t, exec (.computePec [1]) State.reset = .next t) ∧ (∃ t, exec (.verifyPec [1] 7) State.reset = .next t) ∧
      (∃ t, exec (.readWord 0x27 true) State.reset = .next t) ∧ (∃ t, exec (.writeWord 0x28 1 true) State.reset = .next t) ∧
      ∃ t, exec (.eepromWrite 0x1F 1 true) State.reset = .next t :=
  ⟨⟨_, rfl⟩, ⟨_, rfl⟩, ⟨_, rfl⟩, ⟨_, rfl⟩, ⟨_, rfl⟩⟩

theorem witness_ConstructionLeavesTheResetValues :
    (0x7F : Nat) ≤ 0x7F ∧ (65535 : Nat) ≤ 65535 ∧ (0x7F : Nat) < 0x80 := by decide

theorem witness_ConstructingAgainReplacesTheBlockState :
    configOfArgs (some 0x7F) (some 65535) = some ⟨0x7F, 0xFFFF⟩ ∧ (ended .done .success).st = .done ∧
      (ended .error (.plain .busError)).st = .error ∧ State.reset.st = .idle ∧
      (writingIn .writing true []).st ≠ .idle ∧ (writingIn .writing true []).st ≠ .done ∧
      (writingIn .writing true []).st ≠ .error := by decide

theorem witness_IllegalConstructionIsRefused :
    (∃ n, (some 0x80 : Option Nat) = some n ∧ 0x7F < n) ∧ (∃ n, (some 65536 : Option Nat) = some n ∧ 65535 < n) ∧
      ∃ u, hostAct (.construct none none) State.reset = .next u :=
  ⟨⟨_, rfl, by decide⟩, ⟨_, rfl, by decide⟩, ⟨_, rfl⟩⟩

theorem witness_ConfigurationChangesOnlyAtConstruction :
    (∃ s', step (accessing (.readWord 0x26 true) []) = .next s' ∧ s'.pending = some (.writeRead 0x5B [0x26] 3)) ∧
      (∃ s' bs, step (writingIn .erasing true []) = .next s' ∧ s'.pending = some (.write 0x5B bs)) ∧
      ¬ Reconstructs (accessing (.readWord 0x26 true) []) :=
  ⟨⟨_, rfl, rfl⟩, ⟨_, _, rfl, rfl⟩, not_reconstructs_of_empty rfl⟩

theorem witness_ComputePecReturnsThePec : State.reset.st = .idle := by decide

theorem witness_VerifyPecComparesThePec :
    State.reset.st = .idle ∧ pec8 [] = 0x00 ∧ pec8 ([] ++ [0x00]) = 0x00 ∧ pec8 ([] ++ [0x01]) ≠ 0x00 := by decide +kernel

theorem witness_PecIsLinear : ([0x12, 0x34] : List Byte).length = ([0xAB, 0xCD] : List Byte).length := by decide

theorem witness_VerifyPecComparesThePec_flip :
    ([0xB6, 0x26, 0xB7, 0xEB, 0x3A] : List Byte)[3]? = some 0xEB ∧ (0 : Nat) < 8 ∧ (7 : Nat) < 8 ∧
      pec8 [0xB6, 0x26, 0xB7, 0xEB, 0x3A] = 0xBE ∧ pec8 [0xB6, 0x26, 0xB7, 0xEA, 0x3A] = 0xAB := by decide +kernel

theorem witness_FramesOnTheWire :
    (accessing (.writeWord 0x27 1 true) []).pending = none ∧ (accessing (.writeWord 0x27 1 true) []).st = .regAccess ∧
      (accessing (.writeWord 0x27 1 true) []).cmd = some (.writeWord 0x27 1 true) ∧
      (accessing (.readWord 0x27 true) []).cmd = some (.readWord 0x27 true) ∧
      (writingIn .erasing true []).desc = some (job true) ∧ (writingIn .erasing true []).st = .erasing ∧
      (writingIn .writing true []).st = .writing ∧ (writingIn .verifying true []).st = .verifying ∧
      (writingIn .verifying true []).pending = none := by decide

theorem witness_OnlyLegalRegistersAreAccepted :
    RegisterLegal (.readWord 0x10 true) ∧ RegisterLegal (.readWord 0x1F true) ∧ RegisterLegal (.writeWord 0x25 0 true) ∧
      RegisterLegal (.writeWord 0x27 0 true) ∧ RegisterLegal (.eepromWrite 0x1F 0 true) ∧
      ¬ RegisterLegal (.readWord 0x0F true) ∧ ¬ RegisterLegal (.readWord 0x20 true) ∧
      ¬ RegisterLegal (.writeWord 0x24 0 true) ∧ ¬ RegisterLegal (.writeWord 0x28 0 true) ∧
      ¬ RegisterLegal (.eepromWrite 0x25 0 true) := by
  simp [RegisterLegal]

theorem witness_ReadWordReadsOneWord :
    State.reset.st = .idle ∧ State.reset.pending = none ∧ State.reset.tmrArmed = false ∧
      (accessing (.readWord 0x27 true) [.given (.ok [0xEB, 0x3A, 0xBE])]).replies =
        .given (.ok [0xEB, 0x3A, 0xBE]) :: [] ∧
      (0x25 ≤ (0x27 : Byte).toNat ∧ (0x27 : Byte).toNat ≤ 0x27) ∧ (0x00 : BusAddr) ≠ 0x40 ∧
      ¬ (0x10 ≤ (0x24 : Byte).toNat ∧ (0x24 : Byte).toNat ≤ 0x1F ∨ 0x25 ≤ (0x24 : Byte).toNat ∧ (0x24 : Byte).toNat ≤ 0x27) := by
  decide

theorem witness_WriteWordWritesOneWord :
    ({ State.reset with replies := [.given (.busError ⟨0⟩)] } : State).st = .idle ∧
      ({ State.reset with replies := [.given (.busError ⟨0⟩)] } : State).replies = .given (.busError ⟨0⟩) :: [] ∧
      (0x10 ≤ (0x10 : Byte).toNat ∧ (0x10 : Byte).toNat ≤ 0x1F) := by decide

theorem witness_EepromWriteIsAccepted :
    State.reset.st = .idle ∧ 0x10 ≤ (0x1F : Byte).toNat ∧ (0x1F : Byte).toNat ≤ 0x1F := by decide

theorem witness_ErasingAndWritingIssueTheirFrame :
    (writingIn .erasing true []).st = .erasing ∧ (writingIn .writing true []).st = .writing ∧
      (writingIn .writing true []).desc = some (job true) ∧
      (writingIn .writing true []).cmd = some (.eepromWrite (job true).reg (job true).newVal (job true).verify) ∧
      (writingIn .writing true []).pending = none := by decide

/-- The state in which the write of the new value is outstanding. -/
def writeOutstanding (r : BusAnswer) : State :=
  { writingIn .writing true [.given r] with pending := some (.write 0x5B [0x13, 0xFF, 0xFF, 0xD7]) }

theorem witness_ErasingAndWriting_answers :
    (writeOutstanding (.ok [])).pending = some (writeRequest 0x5B 0x13 0xFFFF) ∧
      (writeOutstanding (.ok [])).replies = .given (.ok []) :: [] ∧
      (writeOutstanding (.busError ⟨1⟩)).replies = .given (.busError ⟨1⟩) :: [] := by decide +kernel

/-- A delay state with its timer armed. -/
def waitingIn (S : CtrlState) (verify : Bool) : State := { writingIn S verify [] with tmrArmed := true, tmrMs := some 50 }

theorem witness_ElapsedEndsTheDelays :
    (waitingIn .awaitEraseDelay true).st = .awaitEraseDelay ∧ (waitingIn .awaitWriteDelay true).st = .awaitWriteDelay ∧
      (waitingIn .awaitWriteDelay true).desc = some (job true) ∧ (job true).verify = true ∧
      (waitingIn .awaitWriteDelay false).desc = some (job false) ∧ (job false).verify = false ∧
      (waitingIn .awaitWriteDelay false).pending = none ∧ (waitingIn .awaitWriteDelay false).tmrMs = some 50 ∧
      (waitingIn .awaitWriteDelay false).tmrArmed = true := by decide

/-- A command, a tick and a disturbance in a delay state: steps whose turn is not the timer's. -/
theorem witness_ElapsedEndsTheDelays_other :
    (∃ s', step { waitingIn .awaitEraseDelay true with turns := [.host], hostIn := [.command 0#32 []] } = .next s') ∧
      (∃ s', step { waitingIn .awaitWriteDelay true with turns := [.disturb 0x13 0 true] } = .next s') ∧
      ¬ TakesTurn { waitingIn .awaitEraseDelay true with turns := [.host], hostIn := [.command 0#32 []] } .timer ∧
      ¬ TakesTurn { waitingIn .awaitWriteDelay true with turns := [.disturb 0x13 0 true] } .timer :=
  ⟨⟨_, rfl⟩, ⟨_, rfl⟩, by simp [TakesTurn], by simp [TakesTurn]⟩

theorem witness_VerifyingComparesTheWord :
    (writingIn .verifying true []).st = .verifying ∧ (writingIn .verifying true []).pending = none ∧
      (writingIn .verifying true []).tmrArmed = false ∧
      ({ writingIn .verifying true [.given (.ok [0xFF, 0xFF, 0x0F])] with
        pending := some (.writeRead 0x5B [0x13] 3) } : State).pending = some (.writeRead 0x5B [0x13] 3) := by decide

/-- Reset with the turns of an EEPROM_WRITE and good answers. -/
def goodRun (verify : Bool) : State :=
  { State.reset with
    turns := eepromTurns verify
    replies := [.given (.ok []), .given (.ok [])] ++ if verify then [.given (.ok [0xFF, 0xFF, 0x0F])] else [] }

theorem witness_EepromWriteSucceedsWithItsHistory :
    (goodRun true).st = .idle ∧ (goodRun true).turns = eepromTurns true ++ [] ∧
      (goodRun true).replies = [.given (.ok []), .given (.ok []),
        .given (.ok [lo8 0xFFFF, hi8 0xFFFF, pec8 [addrW 0x5B, 0x13, addrR 0x5B, lo8 0xFFFF, hi8 0xFFFF]])] ∧
      (goodRun false).turns = eepromTurns false ++ [] ∧
      (goodRun false).replies = [.given (.ok []), .given (.ok [])] := by decide +kernel

/-- READ_WORD 0x26 just accepted, nothing issued yet, meets the invariant. -/
theorem reading_inv : Inv (accessing (.readWord 0x26 true) []) where
  ctrl := ⟨rfl, .readWord 0x26 true, readRequest 0x5B 0x26, rfl, rfl, .inl rfl⟩
  res := by simp [accessing, State.reset, State.constructed]
  log := by simp [accessing, State.reset, State.constructed]
  rx := by simp [accessing, State.reset, State.constructed]
  hist := rfl
  bus := by simp [accessing, State.reset, State.constructed]

theorem witness_EveryStepKeepsTheInvariant :
    Inv (accessing (.readWord 0x26 true) []) ∧ ∃ s', step (accessing (.readWord 0x26 true) []) = .next s' :=
  ⟨reading_inv, _, rfl⟩

theorem witness_EveryStepKeepsTheCommandTrace :
    Inv (accessing (.readWord 0x26 true) []) ∧ TraceInv (accessing (.readWord 0x26 true) []) ∧
      ∃ s', step (accessing (.readWord 0x26 true) []) = .next s' :=
  ⟨reading_inv, List.suffix_refl [], _, rfl⟩

theorem witness_OnlyAnAbsentResultReadFaults : Inv (accessing (.readWord 0x26 true) []) := reading_inv

theorem witness_EndedCommandDoesNothingMore :
    NoLiveEvent (ended .done .success) ∧ (ended .done .success).st = .done ∧
      (∃ s', step { ended .done .success with hostIn := [.takeResult] } = .next s' ∧ s'.st = .idle) ∧
      ¬ Reconstructs (ended .done .success) :=
  ⟨⟨rfl, rfl⟩, rfl, ⟨_, rfl, rfl⟩, not_reconstructs_of_empty rfl⟩

theorem witness_RaisingAnErrorWritesTheWholeResult :
    (writingIn .writing true []).cmd = some (.eepromWrite 0x13 0xFFFF true) ∧
      (accessing (.readWord 0x26 true) []).cmd = some (.readWord 0x26 true) := by decide

theorem success_legal : ResultLegal Result.success := by
  constructor <;> simp [Result.success, Result.plain, writtenStatuses]

theorem witness_TakingTheResultReturnsToIdle :
    (ended .done .success).st = .done ∧ (ended .done .success).res = some .success ∧ ResultLegal Result.success ∧
      NoLiveEvent (ended .error .success) ∧ (ended .error .success).st = .error ∧
      (∃ t', step { State.reset with hostIn := [.command 0#32 []] } = .next t' ∧ t'.res ≠ State.reset.res) ∧
      ¬ Reconstructs { State.reset with hostIn := [.command 0#32 []] } :=
  ⟨rfl, rfl, success_legal, ⟨rfl, rfl⟩, rfl, ⟨_, rfl, by decide⟩, by rintro ⟨-, a, t, h⟩; cases h⟩

theorem witness_ResIsAbsentUntilACommandEnds :
    State.reset.res = none ∧
      ∃ s', step { State.reset with hostIn := [.command 0x0000270A#32 []] } = .next s' ∧ s'.st ≠ .done ∧ s'.st ≠ .error :=
  ⟨rfl, _, rfl, by decide, by decide⟩

theorem witness_ResultLogGainsTheTakenResult :
    (ended .done .success).res = some .success ∧ ResultLegal Result.success ∧ (ended .done .success).st = .done ∧
      (ended .error .success).st = .error ∧ (ended .idle .success).st ≠ .done ∧ (ended .idle .success).st ≠ .error ∧
      ∃ s', step { ended .done .success with hostIn := [.takeResult] } = .next s' ∧
        s'.resultLog ≠ (ended .done .success).resultLog :=
  ⟨rfl, success_legal, rfl, rfl, by decide, by decide, _, rfl, by decide⟩

theorem witness_ReadingAnAbsentElementFaults :
    ({ State.reset with st := .done } : State).res = none ∧
      ({ waitingIn .awaitWriteDelay true with desc := none } : State).tmrArmed = true ∧
      ({ writeOutstanding (.busError ⟨1⟩) with desc := none } : State).pending ≠ none ∧
      (writeOutstanding (.busError ⟨1⟩)).replies = .given (.busError ⟨1⟩) :: [] ∧
      (writeOutstanding (.busError ⟨1⟩)).st.isEepromRequest = true ∧ (ended .done (.plain (.reserved 248))).res = some (.plain (.reserved 248)) ∧
      (Result.plain (.reserved 248)).status = .reserved 248 ∧
      ({ State.reset with st := .regAccess } : State).cmd = none ∧ ({ State.reset with st := .verifying } : State).desc = none ∧
      State.reset.pending = none := by decide

theorem witness_TimerDeliversOneElapsedPerArming :
    State.reset.tmrArmed = false ∧
      ∃ s', ({ waitingIn .awaitEraseDelay true with sim := some (deviceAt 0 50) } : State).tmrArmed = true ∧
        agentTurn .timer { waitingIn .awaitEraseDelay true with sim := some (deviceAt 0 50) } = .next s' :=
  ⟨rfl, _, rfl, rfl⟩

theorem witness_HistoryIsOnlyAppendedTo :
    (∃ s', step (writeOutstanding (.ok [])) = .next s') ∧ ¬ Reconstructs (writeOutstanding (.ok [])) ∧
      (writeOutstanding (.ok [])).pending = some (.write 0x5B [0x13, 0xFF, 0xFF, 0xD7]) :=
  ⟨⟨_, rfl⟩, not_reconstructs_of_empty rfl, rfl⟩

theorem witness_BlockDoesNotReadTheDeviceModel :
    (∀ draw, (writeOutstanding (.ok [])).replies.head? ≠ some (.device draw)) ∧
      ∃ t, step (writeOutstanding (.ok [])) = .next t :=
  ⟨by simp [writeOutstanding, writingIn], _, rfl⟩

theorem witness_WriteWordFlagHasNoEffect :
    (∃ t, exec (.writeWord 0x25 0x1234 true) State.reset = .next t) ∧
      (accessing (.writeWord 0x25 0x1234 true) []).st = .regAccess ∧
      ∃ t, agentTurn .block (accessing (.writeWord 0x25 0x1234 true) []) = .next t :=
  ⟨⟨_, rfl⟩, rfl, _, rfl⟩

theorem witness_EepromWriteStoresTheWord :
    ({ State.reset with
        sim := some (deviceAt 0xF5C3 50), turns := eepromTurns true,
        replies := [.device calmDraw, .device calmDraw, .device calmDraw] } : State).st = .idle ∧
      (deviceAt 0xF5C3 50).minMs ≤ State.reset.cfg.writeTimeMs.toNat ∧ (deviceAt 0xF5C3 50).anyYoung = false ∧
      (deviceAt 0xF5C3 50).settle = deviceAt 0xF5C3 50 ∧ calmDraw.busError = none ∧ calmDraw.unstable = none := by
  decide +kernel

theorem witness_QuietDeviceAnswersItsWord :
    (deviceAt 0xF5C3 50).anyYoung = false ∧ (deviceAt 0xF5C3 50).settle = deviceAt 0xF5C3 50 ∧ inEeprom 0x10 = true ∧
      inEeprom 0x1F = true ∧ (0x00 : Byte) ≠ pec8 [addrW 0x5B, 0x13, 0x00, 0x00] := by decide +kernel

/-- A device whose word 0x13 began a write cycle at time 0. -/
def busyDevice : Device := { deviceAt 0xF5C3 50 with cycles := (Vector.replicate 16 none).set 3 (some ⟨0, 0, 0, true⟩) }

theorem witness_DisturbedWordIsAnyValue :
    busyDevice.cycles[(3 : Fin 16)] = some ⟨0, 0, 0, true⟩ ∧ cellIndex 0x13 = 3 ∧ cellIndex 0x12 ≠ 3 ∧
      busyDevice.now < 0 + busyDevice.minMs ∧ busyDevice.now < busyDevice.askedAt + busyDevice.minMs ∧
      inEeprom 0x13 = true ∧ busyDevice.askedAt + busyDevice.minMs ≤ busyDevice.now + 50 ∧
      (deviceAt 0xF5C3 50).anyYoung = false ∧ (deviceAt 0xF5C3 50).settle = deviceAt 0xF5C3 50 ∧
      (deviceAt 0xF5C3 50).word 0x13 ≠ 0 ∧ calmDraw.unstable = none := by decide +kernel

/-- WRITE_WORD 0x13 just accepted, with a device attached and its answer coming. -/
def writingToDevice : State :=
  { accessing (.writeWord 0x13 0x1234 false) [.device calmDraw] with sim := some (deviceAt 0 50) }

theorem witness_WriteCycleCountsFromItsIssue :
    writingToDevice.sim = some (deviceAt 0 50) ∧ writingToDevice.pending = none ∧ inEeprom 0x13 = true ∧
      ∃ t, agentTurn .block writingToDevice = .next t ∧ t.pending = some (writeRequest 0x5B 0x13 0x1234) ∧
        t.replies = .device calmDraw :: [] := ⟨rfl, rfl, rfl, _, rfl, rfl, rfl⟩

-- 20_memory.md rules R69 and R71: with 50 ms between Issue and the answer the cycle is over when the write arrives.
theorem test_write_cycle_counts_from_issue :
    field (fun s => s.sim.map fun d => d.word 0x13)
      (match agentTurn .block writingToDevice with
       | .next t => (match agentTurn (.tick 50) t with | .next u => agentTurn .transport u | o => o)
       | o => o) = some (some 0x1234) := by decide +kernel

theorem witness_RmwFieldMergesUnderTheMask : (15 : Nat) < 16 ∧ (Result.plain .pecMismatch).status ≠ .ok := by decide

end Sys2Proof.Tests
end

section
/-! SUPPORT. How `res` can change (10_state.md rule R35): a step that does not end a command leaves it as it was, unless it
constructs the block again, which empties it. -/

namespace Sys2Proof.Machine

open Sys2Proof.Safety

/-- From `s` to `s'` the value of `res` is kept, or a command has ended. -/
def ResKeptUntilEnd (s s' : State) : Prop := s'.res = s.res ∨ s'.st = .done ∨ s'.st = .error

theorem ResKeptUntilEnd.finish (s t : State) (r : Result) : ResKeptUntilEnd s (t.finish r) := .inr (.inl rfl)

theorem ResKeptUntilEnd.raise (s t : State) (E : BlockError) : ResKeptUntilEnd s (t.raise E) := .inr (.inr rfl)

/-- An accepting step keeps `res` or ends the command where what follows the acceptance does. -/
theorem accept_resKept {i : Instr} {s s' : State} {go : State → Out}
    (hgo : ∀ t, t.res = s.res → go t = .next s' → ResKeptUntilEnd s s') (h : accept i s go = .next s') :
    ResKeptUntilEnd s s' := by
  rcases accept_cases i s go with ⟨-, ha⟩ | ⟨-, ha⟩ <;> rw [ha] at h
  · exact hgo { s with cmd := some i } rfl h
  · cases h
    exact .inl rfl

theorem exec_resKept {i : Instr} {s s' : State} (h : exec i s = .next s') : ResKeptUntilEnd s s' := by
  cases i with
  | computePec data | verifyPec data rcv =>
    simp only [exec, execComputePec, execVerifyPec] at h
    refine accept_resKept (fun t _ ht => ?_) h
    cases ht
    exact .finish ..
  | readWord reg chk | writeWord reg val chk | eepromWrite reg val verify =>
    simp only [exec, execReadWord, execWriteWord, execEepromWrite] at h
    refine accept_resKept (fun t hres ht => ?_) h
    split at ht <;> cases ht
    · exact .inl hres
    · exact .raise ..

theorem issueCommand_resKept {w : CmdWord} {data : List Byte} {s s' : State} (h : issueCommand w data s = .next s') :
    ResKeptUntilEnd s s' := by
  rcases issueCommand_cases w data s with ⟨i, -, hi⟩ | ⟨e, -, hi⟩ <;> rw [hi] at h
  · exact exec_resKept h
  · cases h
    exact .inl rfl

theorem reconstruct_res {a t : Option Nat} {s s' : State} (h : reconstruct a t s = .next s') :
    s'.res = s.res ∨ s'.res = none := by
  rcases reconstruct_cases a t s with ⟨cfg, -, -, hr⟩ | hr <;> rw [hr] at h <;> cases h
  · exact .inr rfl
  · exact .inl rfl

/-- Of the host's acts only a construction takes `res` back to no value. -/
theorem hostAct_res {a : HostInput} {s s' : State} (h : hostAct a s = .next s') :
    ResKeptUntilEnd s s' ∨ ((∃ addr ms, a = .construct addr ms) ∧ s'.res = none) := by
  cases a with
  | command w data => exact .inl (issueCommand_resKept h)
  | readResult =>
    obtain ⟨rfl, -⟩ := hostRead_next h
    exact .inl (.inl rfl)
  | takeResult =>
    rcases takeResult_next h with ⟨-, r, -, rfl⟩ | ⟨-, rfl⟩ <;> exact .inl (.inl rfl)
  | construct addr ms =>
    rcases reconstruct_res h with hres | hres
    · exact .inl (.inl hres)
    · exact .inr ⟨⟨addr, ms, rfl⟩, hres⟩

theorem blockTurn_res {s s' : State} (h : blockTurn s = .next s') : s'.res = s.res := by
  rcases blockTurn_next h with rfl | ⟨-, ⟨_, _, -, -, rfl⟩ | ⟨_, _, _, -, -, rfl⟩ | ⟨_, -, -, rfl⟩ | ⟨_, -, -, rfl⟩ |
    ⟨_, -, -, rfl⟩⟩ <;> rfl

theorem blockAnswer_resKept {r : BusAnswer} {s s' : State} (h : blockAnswer r s = .next s') : ResKeptUntilEnd s s' := by
  rcases blockAnswer_next h with ⟨T, d, -, -, -, rfl⟩ | ⟨c, x, res, rfl, -⟩ | ⟨c, x, E, rfl, -⟩
  · exact .inl rfl
  · exact .finish ..
  · exact .raise ..

theorem transportTurn_resKept {s s' : State} (h : transportTurn s = .next s') : ResKeptUntilEnd s s' := by
  rcases transportTurn_cases s with ⟨ht, -⟩ | ⟨q, rep, rest, -, -, ht⟩ <;> rw [ht] at h
  · cases h
    exact .inl rfl
  · simpa [ResKeptUntilEnd] using blockAnswer_resKept h

theorem timerTurn_resKept {s s' : State} (h : timerTurn s = .next s') : ResKeptUntilEnd s s' := by
  rcases timerTurn_next h with ⟨-, rfl⟩ | ⟨-, dev, -, ⟨-, rfl⟩ | ⟨d, -, -, ⟨-, rfl⟩ | ⟨-, rfl⟩⟩⟩
  · exact .inl rfl
  · exact .inl rfl
  · exact .inl rfl
  · exact .finish ..

/-- The one way to lose `res` without the end of a command is the host's construction at the head of its acts. -/
theorem agentTurn_res {turn : Turn} {s s' : State} (h : agentTurn turn s = .next s') :
    ResKeptUntilEnd s s' ∨
      (turn = .host ∧ (∃ addr ms, s.hostIn.head? = some (.construct addr ms)) ∧ s'.res = none) := by
  cases turn with
  | host =>
    rcases hostTurn_next h with ⟨-, rfl⟩ | ⟨a, rest, hin, ha⟩
    · exact .inl (.inl rfl)
    · rcases hostAct_res ha with hkept | ⟨⟨addr, ms, rfl⟩, hnone⟩
      · exact .inl hkept
      · exact .inr ⟨rfl, ⟨addr, ms, by rw [hin]; rfl⟩, hnone⟩
  | block => exact .inl (.inl (blockTurn_res h))
  | transport => exact .inl (transportTurn_resKept h)
  | timer => exact .inl (timerTurn_resKept h)
  | tick ms | disturb r w stops =>
    cases h
    exact .inl (.inl rfl)

/-- A step that goes on is the machine waiting, or the turn of the agent the schedule (or its default) names. -/
theorem step_next_turn {s s' : State} (h : step s = .next s') :
    s' = s ∨ ∃ turn rest, TakesTurn s turn ∧ agentTurn turn { s with turns := rest } = .next s' := by
  rcases step_cases s with hs | ⟨turn, rest, hs, hturn⟩ <;> rw [hs] at h
  · cases h
    exact .inl rfl
  · refine .inr ⟨turn, rest, ?_, h⟩
    rcases hturn with hsched | ⟨hempty, -, hdefault⟩
    · exact .inl (by rw [hsched]; rfl)
    · exact .inr ⟨hempty, hdefault⟩

/-- A step keeps `res` or ends a command, unless it constructs the block again, which empties `res`. -/
theorem step_res {s s' : State} (h : step s = .next s') :
    ResKeptUntilEnd s s' ∨ (Reconstructs s ∧ s'.res = none) := by
  rcases step_next_turn h with rfl | ⟨turn, rest, htakes, hturn⟩
  · exact .inl (.inl rfl)
  · rcases agentTurn_res hturn with hkept | ⟨rfl, hin, hnone⟩
    · exact .inl hkept
    · exact .inr ⟨⟨htakes, hin⟩, hnone⟩

theorem hostRead_of_res_absent {s : State} (h : s.res = none) : hostRead s = .fault .resAbsent := by
  simp [hostRead, readableResult, h]

/-- Settles O33: of the ways `step_res` lists, only the end of a command can give `res` a value it did not hold. -/
theorem resIsAbsentUntilACommandEnds : Obligations.ResIsAbsentUntilACommandEnds := by
  refine ⟨fun _ => rfl, fun s s' habsent h hdone herror => ?_, fun _ => hostRead_of_res_absent⟩
  rcases step_res h with (hkept | hend | hend) | ⟨-, hnone⟩
  · exact hkept.trans habsent
  · exact absurd hend hdone
  · exact absurd hend herror
  · exact hnone

end Sys2Proof.Machine
end

section
/-! SUPPORT. The decoder and the opcode rows of 30_encoding.md rule R82, both read field by field. -/

namespace Sys2Proof

/-- The bits that rule R91 requires to be zero beside the reserved ones, and the data list that it requires to be empty. -/
def Op.RequiredZeros (w : CmdWord) (data : List Byte) : Op → Prop
  | .computePec => flagField w = false ∧ regField w = 0 ∧ valField w = 0
  | .verifyPec => flagField w = false ∧ valField w = 0
  | .readWord => valField w = 0 ∧ data = []
  | .writeWord => data = []
  | .eepromWrite => data = []

/-- The command of an operation whose operands are the fields of the word and the data beside it. -/
def Op.readFields (w : CmdWord) (data : List Byte) : Op → Instr
  | .computePec => .computePec data
  | .verifyPec => .verifyPec data (regField w)
  | .readWord => .readWord (regField w) (flagField w)
  | .writeWord => .writeWord (regField w) (valField w) (flagField w)
  | .eepromWrite => .eepromWrite (regField w) (valField w) (flagField w)

/-- An operation's row of rule R82's table. -/
def Op.row : Op → OpcodeRow
  | .computePec => ⟨.computePec, 0x00000000#32, 0xFFFFFFFF#32, true⟩
  | .verifyPec => ⟨.verifyPec, 0x00000001#32, 0xFFFF00FF#32, true⟩
  | .readWord => ⟨.readWord, 0x00000002#32, 0xFFFF00F7#32, false⟩
  | .writeWord => ⟨.writeWord, 0x00000003#32, 0x000000F7#32, false⟩
  | .eepromWrite => ⟨.eepromWrite, 0x00000004#32, 0x000000F7#32, false⟩

@[simp] theorem Op.readFields_op (w : CmdWord) (data : List Byte) (op : Op) : (op.readFields w data).op = op := by
  cases op <;> rfl

@[simp] theorem Op.row_op (op : Op) : op.row.op = op := by cases op <;> rfl

theorem Op.row_mem_opcodeRows (op : Op) : op.row ∈ opcodeRows := by cases op <;> decide

/-- The table has no second row for an operation. -/
theorem eq_row_of_mem_opcodeRows {row : OpcodeRow} (h : row ∈ opcodeRows) : row = row.op.row := by
  simp only [opcodeRows, List.mem_cons, List.not_mem_nil, or_false] at h
  rcases h with rfl | rfl | rfl | rfl | rfl <;> rfl

/-! ### The decoder -/

/-- The decoder's chain of refusals answers a command exactly when no test in it fires. -/
theorem ite_error_eq_ok_iff {c : Prop} [Decidable c] {e : DecodeError} {x : Except DecodeError Instr} {i : Instr} :
    (if c then .error e else x) = .ok i ↔ ¬ c ∧ x = .ok i := by
  by_cases hc : c <;> simp [hc]

/-- A word decodes exactly when its reserved bits and its operation's required zeros are zero, and then to the command that its
fields spell. -/
theorem decode_eq_ok_iff_of_opField {w : CmdWord} {data : List Byte} {op : Op} {i : Instr} (hop : opField w = op.code) :
    decode w data = .ok i ↔ reservedField w = 0 ∧ op.RequiredZeros w data ∧ op.readFields w data = i := by
  rw [decode, hop, decodeOp_code]
  cases op <;>
    simp only [ite_error_eq_ok_iff, Op.RequiredZeros, Op.readFields, Except.ok.injEq, ne_eq, not_not,
      Bool.not_eq_true, and_assoc]

/-- A word decodes exactly to the command its fields spell, for the operation its code names. -/
theorem decode_eq_ok_iff {w : CmdWord} {data : List Byte} {i : Instr} :
    decode w data = .ok i ↔
      opField w = i.op.code ∧ reservedField w = 0 ∧ i.op.RequiredZeros w data ∧ i.op.readFields w data = i := by
  constructor
  · intro h
    cases hop : decodeOp (opField w) with
    | none => simp [decode, hop] at h
    | some op =>
      have hcode := decodeOp_eq_some hop
      obtain ⟨hres, hzero, rfl⟩ := (decode_eq_ok_iff_of_opField hcode).1 h
      simpa using ⟨hcode, hres, hzero⟩
  · rintro ⟨hop, h⟩
    exact (decode_eq_ok_iff_of_opField hop).2 h

/-! ### Match and mask -/

/-- Words that agree on a field agree on each of its bits. -/
theorem getLsbD_eq_of_extractLsb'_eq {w u : CmdWord} {start len k : Nat}
    (h : w.extractLsb' start len = u.extractLsb' start len) (hs : start ≤ k) (hl : k < start + len) :
    w.getLsbD k = u.getLsbD k := by
  have hbit := congrArg (·.getLsbD (k - start)) h
  have hlen : k - start < len := by omega
  simpa [BitVec.getLsbD_extractLsb', hlen, Nat.add_sub_cancel' hs] using hbit

/-- A word is its five fields. -/
theorem cmdWord_eq_iff_fields {w u : CmdWord} :
    w = u ↔ opField w = opField u ∧ flagField w = flagField u ∧ reservedField w = reservedField u ∧
      regField w = regField u ∧ valField w = valField u := by
  constructor
  · rintro rfl
    exact ⟨rfl, rfl, rfl, rfl, rfl⟩
  · rintro ⟨hop, hflag, hres, hreg, hval⟩
    apply BitVec.eq_of_getLsbD_eq
    intro k hk
    rcases (by omega : k < 3 ∨ k = 3 ∨ 4 ≤ k ∧ k < 8 ∨ 8 ≤ k ∧ k < 16 ∨ 16 ≤ k) with h | rfl | h | h | h
    · exact getLsbD_eq_of_extractLsb'_eq hop (by omega) (by omega)
    · exact hflag
    · exact getLsbD_eq_of_extractLsb'_eq hres (by omega) (by omega)
    · exact getLsbD_eq_of_extractLsb'_eq hreg (by omega) (by omega)
    · exact getLsbD_eq_of_extractLsb'_eq hval (by omega) (by omega)

/-- A mask masks each field on its own. -/
theorem and_mask_eq_iff_fields {w mask pattern : CmdWord} :
    w &&& mask = pattern ↔
      opField w &&& opField mask = opField pattern ∧ (flagField w && flagField mask) = flagField pattern ∧
        reservedField w &&& reservedField mask = reservedField pattern ∧
        regField w &&& regField mask = regField pattern ∧ valField w &&& valField mask = valField pattern := by
  rw [cmdWord_eq_iff_fields]
  simp only [opField, flagField, reservedField, regField, valField, BitVec.extractLsb'_and, BitVec.getLsbD_and]

/-- Each row accepts the words with its operation's code, the reserved bits and the required zeros zero, and nothing else. -/
theorem Op.row_accepts_iff {op : Op} {w : CmdWord} {data : List Byte} :
    op.row.accepts w data = true ↔ opField w = op.code ∧ reservedField w = 0 ∧ op.RequiredZeros w data := by
  have ones3 (x : BitVec 3) : x &&& 7#3 = x := BitVec.and_allOnes
  have ones4 (x : BitVec 4) : x &&& 15#4 = x := BitVec.and_allOnes
  have ones8 (x : BitVec 8) : x &&& 255#8 = x := BitVec.and_allOnes
  have ones16 (x : BitVec 16) : x &&& 65535#16 = x := BitVec.and_allOnes
  simp only [OpcodeRow.accepts, Bool.and_eq_true, beq_iff_eq, and_mask_eq_iff_fields]
  cases op <;>
    simp [Op.row, Op.code, Op.RequiredZeros, opField, flagField, reservedField, regField, valField, ones3, ones4, ones8,
      ones16, and_assoc, and_left_comm]

/-- A word decodes to an operation's command exactly when the operation's row accepts it. -/
theorem decode_op_iff_row_accepts {w : CmdWord} {data : List Byte} {op : Op} :
    (∃ i, decode w data = .ok i ∧ i.op = op) ↔ op.row.accepts w data = true := by
  rw [Op.row_accepts_iff]
  constructor
  · rintro ⟨i, hi, rfl⟩
    obtain ⟨hop, hres, hzero, -⟩ := decode_eq_ok_iff.1 hi
    exact ⟨hop, hres, hzero⟩
  · rintro ⟨hop, hres, hzero⟩
    exact ⟨op.readFields w data, (decode_eq_ok_iff_of_opField hop).2 ⟨hres, hzero, rfl⟩, Op.readFields_op w data op⟩

/-- The row that accepts a word is that of the one operation the word decodes to. -/
theorem opcodeRow_unique {w : CmdWord} {data : List Byte} {row row' : OpcodeRow} (hrow : row ∈ opcodeRows)
    (hrow' : row' ∈ opcodeRows) (h : row.accepts w data = true) (h' : row'.accepts w data = true) : row = row' := by
  rw [eq_row_of_mem_opcodeRows hrow] at h ⊢
  rw [eq_row_of_mem_opcodeRows hrow'] at h' ⊢
  obtain ⟨i, hi, hop⟩ := decode_op_iff_row_accepts.2 h
  obtain ⟨i', hi', hop'⟩ := decode_op_iff_row_accepts.2 h'
  have hii : i = i' := Except.ok.inj (hi.symm.trans hi')
  rw [← hop, ← hop', hii]

/-! ### The operands as numbers -/

theorem regField_toNat (w : CmdWord) : (regField w).toNat = w.toNat / 256 % 256 := by
  simp [regField, BitVec.extractLsb'_toNat, Nat.shiftRight_eq_div_pow]

theorem valField_toNat (w : CmdWord) : (valField w).toNat = w.toNat / 65536 := by
  have := w.isLt
  simp only [valField, BitVec.extractLsb'_toNat, Nat.shiftRight_eq_div_pow]
  omega

theorem flagField_eq_testBit (w : CmdWord) : flagField w = w.toNat.testBit 3 := BitVec.testBit_toNat w |>.symm

/-- Settles O3: decoding and match and mask ask the same of each field, so the decoder, which answers at most one command, also
makes the rows disjoint; the command it answers is read from the fields. -/
theorem wordSpellsCommandExactlyWhenItsRowMatches : Obligations.WordSpellsCommandExactlyWhenItsRowMatches := by
  refine ⟨fun w data op => ?_, fun w data row row' => opcodeRow_unique, fun w data i hi => ?_⟩
  · rw [decode_op_iff_row_accepts]
    constructor
    · exact fun h => ⟨op.row, op.row_mem_opcodeRows, op.row_op, h⟩
    · rintro ⟨row, hrow, rfl, h⟩
      rwa [← eq_row_of_mem_opcodeRows hrow]
  · obtain ⟨-, -, hzero, hi⟩ := decode_eq_ok_iff.1 hi
    cases i with
    | computePec d =>
      cases hi
      rfl
    | verifyPec d rcv =>
      cases hi
      exact ⟨rfl, regField_toNat w⟩
    | readWord reg f =>
      cases hi
      exact ⟨hzero.2, regField_toNat w, flagField_eq_testBit w⟩
    | writeWord reg val f | eepromWrite reg val f =>
      cases hi
      exact ⟨hzero, regField_toNat w, valField_toNat w, flagField_eq_testBit w⟩

end Sys2Proof
end

section
/-! SUPPORT. The register check (30_encoding.md rules R88 and R89): which registers are legal, and the accepting step that ends on
an illegal one. -/

namespace Sys2Proof.Machine

open Sys2Proof.Safety

theorem inEeprom_iff (r : Byte) : inEeprom r = true ↔ 0x10 ≤ r.toNat ∧ r.toNat ≤ 0x1F := by
  simp [inEeprom, Config.eepromLo, Config.eepromHi, BitVec.le_def]

theorem inRam_iff (r : Byte) : inRam r = true ↔ 0x25 ≤ r.toNat ∧ r.toNat ≤ 0x27 := by
  simp [inRam, Config.ramLo, Config.ramHi, BitVec.le_def]

theorem registerLegal_readWord_iff (reg : Byte) (chk : Bool) :
    RegisterLegal (.readWord reg chk) ↔ validReg .readWord reg = true := by
  simp only [RegisterLegal, validReg, Bool.or_eq_true, inEeprom_iff, inRam_iff]

theorem registerLegal_writeWord_iff (reg : Byte) (val : Word) (chk : Bool) :
    RegisterLegal (.writeWord reg val chk) ↔ validReg .writeWord reg = true := by
  simp only [RegisterLegal, validReg, Bool.or_eq_true, inEeprom_iff, inRam_iff]

theorem registerLegal_eepromWrite_iff (reg : Byte) (val : Word) (verify : Bool) :
    RegisterLegal (.eepromWrite reg val verify) ↔ validReg .eepromWrite reg = true :=
  (inEeprom_iff reg).symm

theorem accept_of_idle {i : Instr} {s : State} {go : State → Out} (hs : s.st = .idle) :
    accept i s go = go { s with cmd := some i } := if_pos hs

/-- An error raised outside the requests of EEPROM_WRITE names no failed state (rule R210). -/
theorem Result.ofError_of_not_eepromRequest {E : BlockError} {op : Option Op} {S : CtrlState}
    (hS : S.isEepromRequest = false) :
    Result.ofError E op S = { Result.plain E.status with value := E.value, busInfo := E.busInfo } := by
  simp [Result.ofError, Result.plain, failedStateOf, hS]

/-- The state after a command accepted in `Idle` whose register is illegal: nothing but the error's own entry is written. -/
def State.withInvalidRegister (s : State) (i : Instr) : State :=
  { s with cmd := some i, pending := none, tmrArmed := false, st := .error, res := some (.plain .invalidRegister) }

theorem raise_invalidRegister_of_idle {i : Instr} {reg : Byte} {s : State} (hs : s.st = .idle) :
    ({ s with cmd := some i } : State).raise (.invalidRegister reg) = s.withInvalidRegister i := by
  simp only [State.raise, Result.ofError_of_not_eepromRequest (show s.st.isEepromRequest = false by rw [hs]; rfl)]
  rfl

/-- The accepting step of a register command goes on when its register is valid, and ends with `InvalidRegisterError` when it is
not. -/
theorem accept_checked_of_idle {i : Instr} {op : Op} {reg : Byte} {s : State} {go : State → State} (hs : s.st = .idle) :
    accept i s (fun s => if validReg op reg then .next (go s) else .next (s.raise (.invalidRegister reg))) =
      .next (if validReg op reg then go { s with cmd := some i } else s.withInvalidRegister i) := by
  rw [accept_of_idle hs]
  split
  · rfl
  · rw [raise_invalidRegister_of_idle hs]

theorem exec_readWord_of_idle {reg : Byte} {chk : Bool} {s : State} (hs : s.st = .idle) :
    exec (.readWord reg chk) s =
      .next (if validReg .readWord reg then { s with cmd := some (.readWord reg chk), st := .regAccess }
        else s.withInvalidRegister (.readWord reg chk)) :=
  accept_checked_of_idle (go := fun s => { s with st := .regAccess }) hs

theorem exec_writeWord_of_idle {reg : Byte} {val : Word} {chk : Bool} {s : State} (hs : s.st = .idle) :
    exec (.writeWord reg val chk) s =
      .next (if validReg .writeWord reg then { s with cmd := some (.writeWord reg val chk), st := .regAccess }
        else s.withInvalidRegister (.writeWord reg val chk)) :=
  accept_checked_of_idle (go := fun s => { s with st := .regAccess }) hs

theorem exec_eepromWrite_of_idle {reg : Byte} {val : Word} {verify : Bool} {s : State} (hs : s.st = .idle) :
    exec (.eepromWrite reg val verify) s =
      .next (if validReg .eepromWrite reg then
        { s with
          cmd := some (.eepromWrite reg val verify)
          desc := some { reg := reg, prev := none, newVal := val, delayMs := s.cfg.writeTimeMs, verify := verify }
          st := .erasing }
        else s.withInvalidRegister (.eepromWrite reg val verify)) :=
  accept_checked_of_idle
    (go := fun s => { s with
      desc := some { reg := reg, prev := none, newVal := val, delayMs := s.cfg.writeTimeMs, verify := verify }
      st := .erasing }) hs

/-- Settles O21: the legal registers are those that the register check of the accepting step lets pass. -/
theorem onlyLegalRegistersAreAccepted : Obligations.OnlyLegalRegistersAreAccepted := by
  intro i s hs hcompute hverify
  cases i with
  | computePec data => exact absurd rfl hcompute
  | verifyPec data rcv => exact absurd rfl hverify
  | readWord reg chk =>
    rw [registerLegal_readWord_iff, exec_readWord_of_idle hs]
    exact ⟨fun h => ⟨_, congrArg _ (if_pos h), .inl rfl, rfl⟩, fun h => congrArg _ (if_neg h)⟩
  | writeWord reg val chk =>
    rw [registerLegal_writeWord_iff, exec_writeWord_of_idle hs]
    exact ⟨fun h => ⟨_, congrArg _ (if_pos h), .inl rfl, rfl⟩, fun h => congrArg _ (if_neg h)⟩
  | eepromWrite reg val verify =>
    rw [registerLegal_eepromWrite_iff, exec_eepromWrite_of_idle hs]
    exact ⟨fun h => ⟨_, congrArg _ (if_pos h), .inr rfl, rfl⟩, fun h => congrArg _ (if_neg h)⟩

end Sys2Proof.Machine
end

section
/-! SUPPORT. The block's turn in each state that issues a request, and the frames on the wire (30_encoding.md rules R84 and
R85). -/

namespace Sys2Proof.Machine

@[simp] theorem raWriteIssue_pending (r : Byte) (v : Word) (s : State) :
    (raWriteIssue r v s).pending = some (writeRequest s.cfg.busAddress r v) := rfl

@[simp] theorem raReadIssue_pending (r : Byte) (s : State) :
    (raReadIssue r s).pending = some (readRequest s.cfg.busAddress r) := rfl

theorem withDesc_of_some {s : State} {d : EepromDescriptor} {go : EepromDescriptor → Out} (hd : s.desc = some d) :
    withDesc s go = go d := by
  rw [withDesc, hd]

theorem blockTurn_regAccess_writeWord {s : State} {r : Byte} {v : Word} {chk : Bool} (hp : s.pending = none)
    (hs : s.st = .regAccess) (hc : s.cmd = some (.writeWord r v chk)) : blockTurn s = .next (raWriteIssue r v s) := by
  simp [blockTurn, regAccessIssue, hp, hs, hc]

theorem blockTurn_regAccess_readWord {s : State} {r : Byte} {chk : Bool} (hp : s.pending = none)
    (hs : s.st = .regAccess) (hc : s.cmd = some (.readWord r chk)) : blockTurn s = .next (raReadIssue r s) := by
  simp [blockTurn, regAccessIssue, hp, hs, hc]

theorem blockTurn_erasing {s : State} {d : EepromDescriptor} (hp : s.pending = none) (hs : s.st = .erasing)
    (hd : s.desc = some d) : blockTurn s = .next (raWriteIssue d.reg eraseValue s) := by
  simp [blockTurn, erasingIssue, hp, hs, withDesc_of_some hd]

theorem blockTurn_writing {s : State} {d : EepromDescriptor} (hp : s.pending = none) (hs : s.st = .writing)
    (hd : s.desc = some d) : blockTurn s = .next (raWriteIssue d.reg d.newVal s) := by
  simp [blockTurn, writingIssue, hp, hs, withDesc_of_some hd]

theorem blockTurn_verifying {s : State} {d : EepromDescriptor} (hp : s.pending = none) (hs : s.st = .verifying)
    (hd : s.desc = some d) : blockTurn s = .next (raReadIssue d.reg s) := by
  simp [blockTurn, verifyingIssue, hp, hs, withDesc_of_some hd]

/-- The outcome of a checked read of three bytes turns on the PEC alone (rule R132). -/
theorem raReadOutcome_checked (r l h p : Byte) (s : State) :
    (raReadOutcome r true (.ok [l, h, p]) s).1 =
      if pec8 (readCovered s.cfg.busAddress r l h) = p then .ok (word l h) else .pec := rfl

theorem raReadOutcome_checked_eq_ok_iff {r l h p : Byte} {s : State} :
    (raReadOutcome r true (.ok [l, h, p]) s).1 = .ok (word l h) ↔ p = pec8 (readCovered s.cfg.busAddress r l h) := by
  rw [raReadOutcome_checked, eq_comm (a := p)]
  split <;> simp [*]

theorem raReadOutcome_checked_eq_pec_iff {r l h p : Byte} {s : State} :
    (raReadOutcome r true (.ok [l, h, p]) s).1 = .pec ↔ p ≠ pec8 (readCovered s.cfg.busAddress r l h) := by
  rw [raReadOutcome_checked, ne_comm]
  split <;> simp [*]

/-- Settles O19: by the state that issues the frame; the wire order and the lengths are those of `BusRequest.wire`. -/
theorem framesOnTheWire : Obligations.FramesOnTheWire := by
  refine ⟨fun s r v hp hissues => ?_, fun s r l h p hp hissues => ?_⟩
  · refine ⟨?_, rfl, rfl⟩
    have hturn : blockTurn s = .next (raWriteIssue r v s) := by
      rcases hissues with ⟨hs, chk, hc⟩ | ⟨d, hd, rfl, ⟨hs, rfl⟩ | ⟨hs, rfl⟩⟩
      · exact blockTurn_regAccess_writeWord hp hs hc
      · exact blockTurn_erasing hp hs hd
      · exact blockTurn_writing hp hs hd
    exact ⟨_, hturn, raWriteIssue_pending r v s⟩
  · have hturn : blockTurn s = .next (raReadIssue r s) := by
      rcases hissues with ⟨hs, chk, hc⟩ | ⟨d, hd, rfl, hs⟩
      · exact blockTurn_regAccess_readWord hp hs hc
      · exact blockTurn_verifying hp hs hd
    exact ⟨⟨_, hturn, raReadIssue_pending r s⟩, rfl, rfl, raReadOutcome_checked_eq_ok_iff,
      raReadOutcome_checked_eq_pec_iff⟩

end Sys2Proof.Machine
end

section
/-! SUPPORT. The CRC step loses nothing (40_pec.md rule R111): it is injective in the accumulator and in the byte, so a PEC tells
lists that differ in one byte apart. -/

namespace Sys2Proof.Machine

open Function

/-- A shift that drops a set top bit leaves the polynomial's lowest bit set, so only zero shifts to zero. -/
theorem pecShift_eq_zero {x : Byte} (h : pecShift x = 0#8) : x = 0#8 := by
  unfold pecShift at h
  split at h
  next => simpa [Config.pecPoly] using congrArg (·.getLsbD 0) h
  next htop =>
    ext i hi
    rcases (by omega : i < 7 ∨ i = 7) with hlow | rfl
    · have hnext : i + 1 < 8 := by omega
      simpa [hnext] using congrArg (·.getLsbD (i + 1)) h
    · simpa using htop

theorem pecShift_injective : Injective pecShift := fun x y h => by
  refine BitVec.xor_eq_zero_iff.1 (pecShift_eq_zero ?_)
  rw [pecShift_xor, h, BitVec.xor_self]

theorem pecShifts_injective (n : Nat) : Injective (pecShifts n) := by
  induction n with
  | zero => exact injective_id
  | succ n ih => exact ih.comp pecShift_injective

theorem pecStep_left_injective (b : Byte) : Injective (pecStep · b) := fun _ _ h =>
  BitVec.xor_left_inj b |>.1 (pecShifts_injective 8 h)

theorem pecStep_right_injective (c : Byte) : Injective (pecStep c) := fun _ _ h =>
  BitVec.xor_right_inj c |>.1 (pecShifts_injective 8 h)

/-- The CRC over the same bytes tells its start values apart. -/
theorem pecFrom_injective (bs : List Byte) : Injective (pecFrom · bs) := by
  induction bs with
  | nil => exact injective_id
  | cons b bs ih => exact ih.comp (pecStep_left_injective b)

/-- Writing another byte into a list changes its CRC. -/
theorem pecFrom_set_eq_iff {c x b : Byte} {bs : List Byte} {k : Nat} (hb : bs[k]? = some b) :
    pecFrom c (bs.set k x) = pecFrom c bs ↔ x = b := by
  induction bs generalizing c k with
  | nil => simp at hb
  | cons b' bs ih =>
    cases k with
    | zero =>
      obtain rfl : b' = b := by simpa using hb
      exact (pecFrom_injective bs).eq_iff.trans (pecStep_right_injective c).eq_iff
    | succ k => exact ih hb

theorem pec8_set_eq_iff {x b : Byte} {bs : List Byte} {k : Nat} (hb : bs[k]? = some b) :
    pec8 (bs.set k x) = pec8 bs ↔ x = b := by
  rw [pec8_eq_pecFrom, pec8_eq_pecFrom, pecFrom_set_eq_iff hb]

theorem xor_bit_ne_self {b : Byte} {j : Nat} (hj : j < 8) : b ^^^ (1#8 <<< j) ≠ b := by
  intro h
  have hbit : 1#8 <<< j = 0#8 := (BitVec.xor_right_inj b).1 (h.trans BitVec.xor_zero.symm)
  simpa [hj] using congrArg (·.getLsbD j) hbit

@[simp] theorem pec8_nil : pec8 [] = 0 := rfl

theorem pec8_append_singleton (bs : List Byte) (b : Byte) : pec8 (bs ++ [b]) = pecStep (pec8 bs) b := by
  rw [pec8_eq_pecFrom, pec8_eq_pecFrom, pecFrom_append]
  rfl

theorem pecStep_eq_zero_iff {c b : Byte} : pecStep c b = 0 ↔ c = b := by
  rw [← pecStep_self b, (pecStep_left_injective b).eq_iff]

@[simp] theorem pec8_replicate_zero (n : Nat) : pec8 (List.replicate n 0) = 0 := by
  induction n with
  | zero => rfl
  | succ n ih => rw [List.replicate_succ', pec8_append_singleton, ih, pecStep_self]

/-- Rule R115's table is eight shifts of its index, checked entry by entry. -/
theorem pecShifts_eight_eq_pecTableAt (b : Byte) : pecShifts 8 b = pecTableAt b := by
  revert b
  decide

theorem pecStep_eq_pecTableAt (c b : Byte) : pecStep c b = pecTableAt (c ^^^ b) :=
  pecShifts_eight_eq_pecTableAt (c ^^^ b)

theorem pec8_singleton (b : Byte) : pec8 [b] = pecTableAt b := by
  rw [pec8_eq_pecFrom, pecFrom_cons, pecFrom_nil, pecStep_eq_pecTableAt]
  exact congrArg pecTableAt BitVec.zero_xor

/-- The check value of rule R113, one table look-up per byte. -/
theorem pec8_check_value : pec8 [0x31, 0x32, 0x33, 0x34, 0x35, 0x36, 0x37, 0x38, 0x39] = 0xF4 := by
  simp only [pec8_eq_pecFrom, pecFrom_cons, pecFrom_nil, pecStep_eq_pecTableAt]
  decide

end Sys2Proof.Machine
end

section
/-! SUPPORT. COMPUTE_PEC and VERIFY_PEC (40_pec.md rules R113 and R114): the words that spell them and their one step from
`Idle`. -/

namespace Sys2Proof.Machine

theorem exec_computePec_of_idle {data : List Byte} {s : State} (hs : s.st = .idle) :
    exec (.computePec data) s =
      .next { s with cmd := some (.computePec data), crc := pec8 data, st := .done, res := some (.ofPec (pec8 data)) } := by
  rw [exec, execComputePec, accept_of_idle hs]
  rfl

theorem exec_verifyPec_of_idle {data : List Byte} {rcv : Byte} {s : State} (hs : s.st = .idle) :
    exec (.verifyPec data rcv) s =
      .next { s with
        cmd := some (.verifyPec data rcv)
        crc := pec8 data
        st := .done
        res := some (.ofMatch (decide (pec8 data = rcv))) } := by
  rw [exec, execVerifyPec, accept_of_idle hs]
  rfl

/-- The word `0x0000rr01` of rule R114 is VERIFY_PEC's word with `rcv = rr`. -/
theorem verifyPec_word_eq_packWord (rcv : Byte) :
    BitVec.ofNat 32 (rcv.toNat * 256 + 1) = packWord 0 rcv false .verifyPec := by
  revert rcv
  decide

theorem decode_verifyPec_word (data : List Byte) (rcv : Byte) :
    decode (BitVec.ofNat 32 (rcv.toNat * 256 + 1)) data = .ok (.verifyPec data rcv) := by
  rw [verifyPec_word_eq_packWord, decode_eq_ok_iff]
  simp [Instr.op, Op.RequiredZeros, Op.readFields]

/-- Settles O13: the accepting step computes the PEC of the data; the PECs named are the table's and a run of the generator. -/
theorem computePecReturnsThePec : Obligations.ComputePecReturnsThePec := by
  refine ⟨fun _ => rfl, pec8_replicate_zero, pec8_singleton, pec8_check_value, fun data s hs => ?_⟩
  exact ⟨pec8 data, exec_computePec_of_idle hs⟩

/-- Settles O14: the step compares; that a flipped bit shows is the injectivity of the CRC step in the byte that changed and,
over the bytes after it, in the accumulator. -/
theorem verifyPecComparesThePec : Obligations.VerifyPecComparesThePec := by
  refine ⟨decode_verifyPec_word, fun data rcv s hs => ⟨pec8 data, exec_verifyPec_of_idle hs⟩, fun data rcv => ?_,
    fun data k b j hb hj => ?_, fun data rcv j hmatch hj => ?_, fun rcv => ?_⟩
  · rw [pec8_append_singleton]
    exact pecStep_eq_zero_iff.symm
  · rw [ne_eq, pec8_set_eq_iff hb]
    exact xor_bit_ne_self hj
  · rw [hmatch]
    exact (xor_bit_ne_self hj).symm
  · rw [pec8_nil]
    exact eq_comm

end Sys2Proof.Machine
end

section
/-! SUPPORT. The command word as a number: rule R81's layout of 30_encoding.md. -/

namespace Sys2Proof

/-- The fields of rule R81 do not overlap, so the word is their weighted sum. -/
theorem packWord_eq_ofNat (val : Word) (reg : Byte) (f : Bool) (op : Op) :
    packWord val reg f op =
      BitVec.ofNat 32 (val.toNat * 65536 + reg.toNat * 256 + (if f then 8 else 0) + op.code.toNat) := by
  have hval := val.isLt
  have hreg := reg.isLt
  have hop := op.code.isLt
  have hf : (if f then 8 else 0) = f.toNat * 8 ∧ f.toNat < 2 := by cases f <;> decide
  have hword : (BitVec.ofNat 32 (val.toNat * 65536 + reg.toNat * 256 + (if f then 8 else 0) + op.code.toNat)).toNat =
      val.toNat * 65536 + reg.toNat * 256 + f.toNat * 8 + op.code.toNat := by
    rw [BitVec.toNat_ofNat]
    omega
  rw [cmdWord_eq_iff_fields, opField_packWord, flagField_packWord, reservedField_packWord, regField_packWord,
    valField_packWord]
  refine ⟨?_, ?_, ?_, ?_, ?_⟩
  · apply BitVec.eq_of_toNat_eq
    rw [opField, BitVec.extractLsb'_toNat, hword, Nat.shiftRight_eq_div_pow]
    omega
  · rw [flagField_eq_testBit, hword, Nat.testBit_eq_decide_div_mod_eq]
    cases f <;> simp <;> omega
  · apply BitVec.eq_of_toNat_eq
    rw [reservedField, BitVec.extractLsb'_toNat, hword, Nat.shiftRight_eq_div_pow, BitVec.ofNat_eq_ofNat,
      BitVec.toNat_zero]
    omega
  · apply BitVec.eq_of_toNat_eq
    rw [regField_toNat, hword]
    omega
  · apply BitVec.eq_of_toNat_eq
    rw [valField_toNat, hword]
    omega

theorem decode_readWord_word (reg : Byte) (chk : Bool) :
    decode (BitVec.ofNat 32 (reg.toNat * 256 + (if chk then 8 else 0) + 2)) [] = .ok (.readWord reg chk) := by
  have hword : BitVec.ofNat 32 (reg.toNat * 256 + (if chk then 8 else 0) + 2) = packWord 0 reg chk .readWord := by
    simp [packWord_eq_ofNat, Op.code]
  rw [hword, decode_eq_ok_iff]
  simp [Instr.op, Op.RequiredZeros, Op.readFields]

theorem decode_writeWord_word (reg : Byte) (val : Word) (chk : Bool) :
    decode (BitVec.ofNat 32 (val.toNat * 65536 + reg.toNat * 256 + (if chk then 8 else 0) + 3)) [] =
      .ok (.writeWord reg val chk) := by
  have hword : BitVec.ofNat 32 (val.toNat * 65536 + reg.toNat * 256 + (if chk then 8 else 0) + 3) =
      packWord val reg chk .writeWord := by
    simp [packWord_eq_ofNat, Op.code]
  rw [hword, decode_eq_ok_iff]
  simp [Instr.op, Op.RequiredZeros, Op.readFields]

end Sys2Proof
end

section
/-! SUPPORT. The PEC of a read frame tells bus addresses apart (30_encoding.md rule R85): an address stands in both address bytes,
and what changing the first one does to the CRC, changing the second one cannot undo. -/

namespace Sys2Proof.Machine

theorem addrW_xor (a b : BusAddr) : addrW a ^^^ addrW b = addrW (a ^^^ b) := by
  simp only [addrW, BitVec.or_zero, BitVec.setWidth_xor, BitVec.shiftLeft_xor_distrib]

/-- The direction bits cancel: two read addresses differ by what the write address of their difference says. -/
theorem addrR_xor (a b : BusAddr) : addrR a ^^^ addrR b = addrW (a ^^^ b) := by
  ext i hi
  by_cases hlow : i = 0 <;> simp [addrR, addrW, hlow]

/-- One difference in both address bytes cancels only when it is zero, checked on every address by table look-up. -/
theorem eq_zero_of_pecFrom_addrW_pair {a : BusAddr} : pecFrom 0 [addrW a, 0, addrW a] = 0 → a = 0 := by
  simp only [pecFrom_cons, pecFrom_nil, pecStep_eq_pecTableAt]
  revert a
  decide

/-- By linearity, the CRCs over the address and register bytes differ by the CRC over the difference of the addresses. -/
theorem pecFrom_readHeader_injective (r : Byte) :
    Function.Injective fun a : BusAddr => pecFrom 0 [addrW a, r, addrR a] := by
  intro a b h
  refine BitVec.xor_eq_zero_iff.1 (eq_zero_of_pecFrom_addrW_pair ?_)
  calc pecFrom 0 [addrW (a ^^^ b), 0, addrW (a ^^^ b)]
      = pecFrom 0 [addrW a, r, addrR a] ^^^ pecFrom 0 [addrW b, r, addrR b] := by
        simp only [pecFrom_cons, pecFrom_nil, ← pecStep_xor, addrW_xor, addrR_xor, BitVec.xor_self]
        rfl
    _ = 0 := BitVec.xor_eq_zero_iff.2 h

theorem pec8_readCovered_injective (r l h : Byte) : Function.Injective fun a : BusAddr => pec8 (readCovered a r l h) := by
  intro a b hab
  simp only [pec8_eq_pecFrom] at hab
  exact pecFrom_readHeader_injective r (pecFrom_injective [l, h] hab)

end Sys2Proof.Machine
end

section
/-! SUPPORT. One register access from its request to its end (41_register_access.md rules R130, R133 and R136): the transport's
answer to the request just issued, and how READ_WORD and WRITE_WORD end on it. -/

namespace Sys2Proof.Machine

/-- `s` after a request was issued and answered: both events stand in the history, and none is outstanding if none was before. -/
def State.exchange (s : State) (q : BusRequest) (r : BusAnswer) (rest : List Reply) : State :=
  { s with
    hist := s.hist ++ [.issue q, .answer q r]
    replies := rest
    sim := s.sim.map fun d => { d with askedAt := d.now } }

/-- A given reply answers the request just issued, in the shape the request admits, and leaves an attached device alone. -/
theorem transportTurn_issue_given {s : State} {q : BusRequest} {r : BusAnswer} {rest : List Reply} (hp : s.pending = none)
    (hr : s.replies = .given r :: rest) :
    transportTurn (s.issue q) = blockAnswer (r.fit q) (s.exchange q (r.fit q) rest) := by
  simp [transportTurn, State.issue, State.receive, State.exchange, Reply.answer, hp, hr]

/-- An error in `RegAccess` with no event live writes `res` and `st` only (rule R210). -/
theorem raise_of_regAccess {s : State} {E : BlockError} (hs : s.st = .regAccess) (hp : s.pending = none)
    (ht : s.tmrArmed = false) :
    s.raise E =
      { s with st := .error, res := some { Result.plain E.status with value := E.value, busInfo := E.busInfo } } := by
  rw [State.raise, Result.ofError_of_not_eepromRequest (by rw [hs]; rfl), ← hp, ← ht]

theorem readWordAnswer_failure {reg : Byte} {chk : Bool} {r : BusAnswer} {e : BusErrorInfo} {s : State}
    (hs : s.st = .regAccess) (hp : s.pending = none) (ht : s.tmrArmed = false) (hfail : readFailure r = some e) :
    readWordAnswer reg chk r s =
      .next { s with st := .error, res := some { Result.plain .busError with busInfo := some e } } := by
  rcases readFailure_cases r with ⟨e', he', hread⟩ | ⟨hnone, -⟩
  · obtain rfl : e' = e := Option.some.inj (he'.symm.trans hfail)
    rw [readWordAnswer, hread]
    exact congrArg _ (raise_of_regAccess hs hp ht)
  · simp [hnone] at hfail

theorem readWordAnswer_pecMismatch {reg l h p : Byte} {chk : Bool} {s : State} (hs : s.st = .regAccess)
    (hp : s.pending = none) (ht : s.tmrArmed = false)
    (hbad : chk = true ∧ pec8 (readCovered s.cfg.busAddress reg l h) ≠ p) :
    ∃ c, readWordAnswer reg chk (.ok [l, h, p]) s =
      .next { s with st := .error, crc := c, rx := some [l, h, p], res := some (.plain .pecMismatch) } := by
  obtain ⟨rfl, hpec⟩ := hbad
  simp only [readWordAnswer, raReadOutcome, if_pos, if_neg hpec]
  exact ⟨_, congrArg _ (raise_of_regAccess hs hp ht)⟩

theorem readWordAnswer_value {reg l h p : Byte} {chk : Bool} {s : State}
    (hgood : ¬ (chk = true ∧ pec8 (readCovered s.cfg.busAddress reg l h) ≠ p)) :
    ∃ c, readWordAnswer reg chk (.ok [l, h, p]) s =
      .next { s with st := .done, crc := c, rx := some [l, h, p], res := some (.ofValue (word l h)) } := by
  cases chk with
  | false => exact ⟨s.crc, rfl⟩
  | true =>
    have hpec : pec8 (readCovered s.cfg.busAddress reg l h) = p := by simpa using hgood
    simp only [readWordAnswer, raReadOutcome, if_pos, if_pos hpec]
    exact ⟨_, rfl⟩

theorem writeWordAnswer_busError {e : TransportInfo} {s : State} (hs : s.st = .regAccess) (hp : s.pending = none)
    (ht : s.tmrArmed = false) :
    writeWordAnswer (.busError e) s =
      .next { s with st := .error, res := some { Result.plain .busError with busInfo := some (.transport e) } } :=
  congrArg _ (raise_of_regAccess hs hp ht)

/-- Settles O22: acceptance, issue and answer, and the end by the shape of the answer; the PECs of two addresses differ because
the CRC is linear. -/
theorem readWordReadsOneWord : Obligations.ReadWordReadsOneWord := by
  refine ⟨decode_readWord_word, fun a b r l h hab => (pec8_readCovered_injective r l h).ne hab,
    fun reg chk s hs hillegal => ?_, fun reg chk s ans rest hs hp ht hr hlegal => ?_⟩
  · exact (exec_readWord_of_idle hs).trans (congrArg _ (if_neg (mt (registerLegal_readWord_iff reg chk).2 hillegal)))
  intro q t
  have hexec : exec (.readWord reg chk) s = .next t :=
    (exec_readWord_of_idle hs).trans (congrArg _ (if_pos ((registerLegal_readWord_iff reg chk).1 hlegal)))
  have hanswer : transportTurn (t.issue q) = readWordAnswer reg chk ans (t.exchange q ans rest) :=
    transportTurn_issue_given hp hr
  refine ⟨hexec, (t.issue q).sim, blockTurn_regAccess_readWord hp rfl rfl, ?_⟩
  match ans with
  | .busError e => exact ⟨_, _, _, _, _, hanswer.trans (readWordAnswer_failure rfl hp ht rfl), rfl, rfl, rfl⟩
  | .ok [l, h, p] =>
    by_cases hbad : chk = true ∧ pec8 (readCovered s.cfg.busAddress reg l h) ≠ p
    · obtain ⟨c, hend⟩ := readWordAnswer_pecMismatch (s := t.exchange q (.ok [l, h, p]) rest) rfl hp ht hbad
      exact ⟨c, _, _, _, _, hanswer.trans hend, rfl, (if_pos hbad).mpr ⟨rfl, rfl⟩⟩
    · obtain ⟨c, hend⟩ := readWordAnswer_value (s := t.exchange q (.ok [l, h, p]) rest) hbad
      exact ⟨c, _, _, _, _, hanswer.trans hend, rfl, (if_neg hbad).mpr ⟨rfl, rfl⟩⟩
  | .ok [] | .ok [_] | .ok [_, _] | .ok (_ :: _ :: _ :: _ :: _) =>
    exact ⟨_, _, _, _, _, hanswer.trans (readWordAnswer_failure rfl hp ht rfl), rfl, rfl, rfl⟩

/-- Settles O23: the check flag enters neither the frame nor its end, which the answer alone decides. -/
theorem writeWordWritesOneWord : Obligations.WriteWordWritesOneWord := by
  refine ⟨decode_writeWord_word, fun reg val chk s hs hillegal => ?_,
    fun reg val chk s ans rest hs hp ht hr hlegal => ?_⟩
  · exact (exec_writeWord_of_idle hs).trans
      (congrArg _ (if_neg (mt (registerLegal_writeWord_iff reg val chk).2 hillegal)))
  intro a q t
  have hexec : exec (.writeWord reg val chk) s = .next t :=
    (exec_writeWord_of_idle hs).trans (congrArg _ (if_pos ((registerLegal_writeWord_iff reg val chk).1 hlegal)))
  let t' := t.runPec (writeCovered a reg val)
  have hanswer : transportTurn (t'.issue q) = writeWordAnswer (ans.fit q) (t'.exchange q (ans.fit q) rest) :=
    transportTurn_issue_given hp hr
  refine ⟨hexec, t'.crc, (t'.issue q).sim, blockTurn_regAccess_writeWord hp rfl rfl, ?_⟩
  cases ans with
  | busError e => exact ⟨_, _, _, _, hanswer.trans (writeWordAnswer_busError rfl hp ht), rfl, rfl, rfl⟩
  | ok bs => exact ⟨_, _, _, _, hanswer, rfl, rfl, rfl⟩

end Sys2Proof.Machine
end

section
/-! SUPPORT. The steps of an EEPROM write sequence (42_eeprom_writer.md rules R162 to R169): its requests, the answers to them,
and what a delay state lets happen before `Elapsed`. -/

namespace Sys2Proof.Machine

open Sys2Proof.Safety

/-! ### Acceptance -/

/-- Settles O24: in the accepting step from `Idle` a valid register takes the branch that writes the descriptor. -/
theorem eepromWriteIsAccepted : Obligations.EepromWriteIsAccepted := by
  intro reg val verify s hs hreg
  have hvalid : validReg .eepromWrite reg = true := (registerLegal_eepromWrite_iff reg val verify).1 hreg
  exact ⟨_, (exec_eepromWrite_of_idle hs).trans (congrArg _ (if_pos hvalid)), rfl, rfl, rfl, rfl⟩

/-! ### Answers and errors of the sequence -/

/-- `s` after its outstanding request `q` was answered with `r`, and `rest` are the replies left. -/
def State.answered (s : State) (q : BusRequest) (r : BusAnswer) (rest : List Reply) : State :=
  ({ s with replies := rest } : State).receive q r

/-- A given reply answers the outstanding request, in the shape the request admits, and leaves an attached device alone. -/
theorem transportTurn_given {s : State} {q : BusRequest} {r : BusAnswer} {rest : List Reply} (hp : s.pending = some q)
    (hr : s.replies = .given r :: rest) :
    transportTurn s = blockAnswer (r.fit q) (s.answered q (r.fit q) rest) := by
  simp [transportTurn, State.answered, Reply.answer, hp, hr]

/-- An error raised in a request state of EEPROM_WRITE records that state and leaves the word indeterminate (rules R173 and
R210). -/
theorem raise_of_eepromRequest {s : State} {E : BlockError} {reg : Byte} {val : Word} {verify : Bool} {S : CtrlState}
    (hc : s.cmd = some (.eepromWrite reg val verify)) (hs : s.st = S) (hS : S.isEepromRequest = true) :
    s.raise E = { s with
      pending := none, tmrArmed := false, st := .error
      res := some { Result.plain E.status with
        value := E.value, failedState := some S, indeterminate := true, busInfo := E.busInfo } } := by
  simp [State.raise, Result.ofError, Result.plain, failedStateOf, Instr.op, hc, hs, hS]

/-! ### The two writes -/

theorem WriteStates.isEepromRequest {S T : CtrlState} (h : WriteStates S T) : S.isEepromRequest = true := by
  rcases h with ⟨rfl, -⟩ | ⟨rfl, -⟩ <;> rfl

/-- A given reply to either write of the sequence goes to `sequenceWriteAnswer` with the delay state that follows it. -/
theorem transportTurn_of_writeStates {s : State} {T : CtrlState} {q : BusRequest} {r : BusAnswer} {rest : List Reply}
    (h : WriteStates s.st T) (hp : s.pending = some q) (hr : s.replies = .given r :: rest) :
    transportTurn s = sequenceWriteAnswer T (r.fit q) (s.answered q (r.fit q) rest) := by
  rw [transportTurn_given hp hr]
  rcases h with ⟨hs, rfl⟩ | ⟨hs, rfl⟩ <;> simp [blockAnswer, State.answered, hs]

theorem sequenceWriteAnswer_ok {s : State} {d : EepromDescriptor} {T : CtrlState} (hd : s.desc = some d) (bs : List Byte) :
    sequenceWriteAnswer T (.ok bs) s = .next (s.startWait T d.delayMs) :=
  withDesc_of_some hd

/-- Settles O25: both states issue by `raWriteIssue`, and both treat the answer by `sequenceWriteAnswer`. -/
theorem erasingAndWritingIssueTheirFrame : Obligations.ErasingAndWritingIssueTheirFrame := by
  intro s d S T v hcase hs hd hc a q
  have hstates : WriteStates s.st T := by
    rcases hcase with ⟨rfl, -, rfl⟩ | ⟨rfl, -, rfl⟩
    · exact .inl ⟨hs, rfl⟩
    · exact .inr ⟨hs, rfl⟩
  refine ⟨fun hp => ?_, fun bs rest hp hr => ?_, fun e rest hp hr => ?_⟩
  · have hturn : blockTurn s = .next (raWriteIssue d.reg v s) := by
      rcases hcase with ⟨rfl, rfl, -⟩ | ⟨rfl, rfl, -⟩
      · exact blockTurn_erasing hp hs hd
      · exact blockTurn_writing hp hs hd
    exact ⟨_, _, hturn⟩
  · have hwait := sequenceWriteAnswer_ok (s := s.answered q (.ok []) rest) (T := T) hd []
    refine ⟨s.sim, (transportTurn_of_writeStates hstates hp hr).trans (hwait.trans (congrArg _ ?_))⟩
    simp [State.startWait, State.answered, State.receive]
  · have hraise := raise_of_eepromRequest (s := s.answered q (.busError e) rest) (E := .busError (.transport e)) hc hs
      (hs ▸ hstates.isEepromRequest)
    exact ⟨s.sim, (transportTurn_of_writeStates hstates hp hr).trans (congrArg _ hraise)⟩

/-! ### The two delays -/

/-- From `s` to `s'` nothing of the block changes but the refused mark; the inputs and the device may. -/
def BlockKept (s s' : State) : Prop :=
  ∃ turns acts replies mark dev,
    s' = { s with turns := turns, hostIn := acts, replies := replies, refused := mark, sim := dev }

theorem BlockKept.refl (s : State) : BlockKept s s := ⟨_, _, _, _, _, rfl⟩

theorem exec_of_not_idle {i : Instr} {s : State} (hs : s.st ≠ .idle) : exec i s = .next s.markRefused := by
  cases i <;> exact if_neg hs

/-- With a command in progress every act of the host is a read of `res` or is refused (rules R212, R227 and R243). -/
theorem hostAct_of_not_quiet {a : HostInput} {s s' : State} (hq : s.st.quiet = false) (h : hostAct a s = .next s') :
    s' = s ∨ s' = s.markRefused := by
  cases a with
  | command w data =>
    have hidle : s.st ≠ .idle := fun hs => by simp [CtrlState.quiet, hs] at hq
    rcases issueCommand_cases w data s with ⟨i, -, hi⟩ | ⟨e, -, hi⟩
    · exact .inr (Host.Outcome.next.inj (h.symm.trans (hi.trans (exec_of_not_idle hidle))))
    · exact .inr (Host.Outcome.next.inj (h.symm.trans hi))
  | readResult => exact .inl (hostRead_next h).1
  | takeResult =>
    rcases takeResult_next h with ⟨hended, -⟩ | ⟨-, hmark⟩
    · simp [CtrlState.quiet, hended] at hq
    · exact .inr hmark
  | construct addr ms =>
    rcases reconstruct_cases addr ms s with ⟨cfg, -, hquiet, -⟩ | hr
    · simp [hq] at hquiet
    · exact .inr (Host.Outcome.next.inj (h.symm.trans hr))

theorem hostTurn_blockKept {s s' : State} (hq : s.st.quiet = false) (h : hostTurn s = .next s') : BlockKept s s' := by
  rcases hostTurn_next h with ⟨-, rfl⟩ | ⟨a, rest, -, ha⟩
  · exact .refl _
  · rcases hostAct_of_not_quiet (s := { s with hostIn := rest }) hq ha with rfl | rfl <;> exact ⟨_, _, _, _, _, rfl⟩

/-- The two states in which the sequence waits for `Elapsed`. -/
def InDelay (s : State) : Prop := s.st = .awaitEraseDelay ∨ s.st = .awaitWriteDelay

theorem InDelay.not_quiet {s : State} (h : InDelay s) : s.st.quiet = false := by
  rcases h with hs | hs <;> rw [hs] <;> rfl

theorem blockTurn_of_inDelay {s : State} (h : InDelay s) : blockTurn s = .next s := by
  rcases h with hs | hs <;> cases hp : s.pending <;> simp [blockTurn, hs, hp]

theorem transportTurn_of_not_pending {s : State} (hp : s.pending = none) : transportTurn s = .next s := by
  simp [transportTurn, hp]

/-- In a delay no turn but the timer's moves the block. -/
theorem agentTurn_blockKept_of_inDelay {t : Turn} {s s' : State} (hdelay : InDelay s) (hp : s.pending = none)
    (ht : t ≠ .timer) (h : agentTurn t s = .next s') : BlockKept s s' := by
  cases t with
  | host => exact hostTurn_blockKept hdelay.not_quiet h
  | block =>
    obtain rfl : s = s' := Host.Outcome.next.inj ((blockTurn_of_inDelay hdelay).symm.trans h)
    exact .refl s
  | transport =>
    obtain rfl : s = s' := Host.Outcome.next.inj ((transportTurn_of_not_pending hp).symm.trans h)
    exact .refl s
  | timer => exact absurd rfl ht
  | tick ms | disturb r w stops =>
    cases h
    exact ⟨_, _, _, _, _, rfl⟩

theorem step_blockKept_of_inDelay {s s' : State} (hdelay : InDelay s) (hp : s.pending = none)
    (ht : ¬ TakesTurn s .timer) (h : step s = .next s') : BlockKept s s' := by
  rcases step_next_turn h with rfl | ⟨t, rest, htakes, hturn⟩
  · exact .refl _
  · have hne : t ≠ .timer := fun htimer => ht (htimer ▸ htakes)
    obtain ⟨turns, acts, replies, mark, dev, rfl⟩ :=
      agentTurn_blockKept_of_inDelay (s := { s with turns := rest }) hdelay hp hne hturn
    exact ⟨turns, acts, replies, mark, dev, rfl⟩

/-- `s` when its `Elapsed` has arrived: the timer is unarmed, the end of the wait recorded, and the time gone by at an attached
device. -/
def State.elapsed (s : State) : State := ({ s with sim := s.sim.map fun d => d.advance s.elapsedMs } : State).endWait

theorem timerTurn_awaitEraseDelay {s : State} (hs : s.st = .awaitEraseDelay) (ha : s.tmrArmed = true) :
    timerTurn s = .next { s.elapsed with st := .writing } := by
  simp [timerTurn, ha, blockElapsed, hs, eraseDelayElapsed, State.elapsed]

theorem timerTurn_awaitWriteDelay {s : State} {d : EepromDescriptor} (hs : s.st = .awaitWriteDelay)
    (ha : s.tmrArmed = true) (hd : s.desc = some d) :
    timerTurn s = .next (if d.verify then { s.elapsed with st := .verifying } else finishOk s.elapsed) := by
  have hturn : timerTurn s = writeDelayElapsed s.elapsed := by simp [timerTurn, ha, blockElapsed, hs, State.elapsed]
  rw [hturn, writeDelayElapsed, withDesc_of_some (show s.elapsed.desc = some d from hd)]
  split <;> rfl

/-- Settles O26: what a step may change in a delay by whose turn it is, then `Elapsed` in each of the two delays. -/
theorem elapsedEndsTheDelays : Obligations.ElapsedEndsTheDelays := by
  intro s d hd hp
  refine ⟨fun hdelay => ⟨blockTurn_of_inDelay hdelay, transportTurn_of_not_pending hp,
    fun s' hstep ht => step_blockKept_of_inDelay hdelay hp ht hstep⟩,
    fun hs ha => ⟨_, timerTurn_awaitEraseDelay hs ha⟩,
    fun hs ha hv => ⟨_, (timerTurn_awaitWriteDelay hs ha hd).trans (congrArg _ (if_pos hv))⟩,
    fun hs ha hv => ⟨_, (timerTurn_awaitWriteDelay hs ha hd).trans (congrArg _ (if_neg (by simp [hv])))⟩⟩

/-! ### The verify read -/

theorem transportTurn_verifying {s : State} {q : BusRequest} {r : BusAnswer} {rest : List Reply} (hs : s.st = .verifying)
    (hp : s.pending = some q) (hr : s.replies = .given r :: rest) :
    transportTurn s = verifyingAnswer (r.fit q) (s.answered q (r.fit q) rest) := by
  simp [transportTurn_given hp hr, blockAnswer, State.answered, hs]

/-- `s` with three received bytes in `rx` and the PEC of their read frame in `crc` (rule R135). -/
def State.withRead (s : State) (reg l h p : Byte) : State :=
  ({ s with rx := some [l, h, p] } : State).runPec (readCovered s.cfg.busAddress reg l h)

/-- On three bytes the PEC is looked at first, then the word (rules R169 and R204). -/
theorem verifyingAnswer_threeBytes {s : State} {d : EepromDescriptor} (hd : s.desc = some d) (l h p : Byte) :
    verifyingAnswer (.ok [l, h, p]) s = .next
      (if pec8 (readCovered s.cfg.busAddress d.reg l h) ≠ p then (s.withRead d.reg l h p).raise .pecMismatch
      else if word l h = d.newVal then finishOk (s.withRead d.reg l h p)
      else (s.withRead d.reg l h p).raise (.eepromVerify (word l h))) := by
  simp only [verifyingAnswer, readFailure, withDesc_of_some hd, verifyingCompare, raReadOutcome, if_true]
  by_cases hpec : pec8 (readCovered s.cfg.busAddress d.reg l h) = p
  · by_cases hword : word l h = d.newVal <;> simp [hpec, hword, State.withRead]
  · simp [hpec, State.withRead]

/-- An error of the verify read with no event live writes `res` and `st` only (rule R210). -/
theorem raise_of_verifying {s : State} {E : BlockError} {reg : Byte} {val : Word} {verify : Bool}
    (hc : s.cmd = some (.eepromWrite reg val verify)) (hs : s.st = .verifying) (hp : s.pending = none)
    (ht : s.tmrArmed = false) :
    s.raise E = { s with
      st := .error
      res := some { Result.plain E.status with
        value := E.value, failedState := some .verifying, indeterminate := true, busInfo := E.busInfo } } := by
  rw [raise_of_eepromRequest hc hs rfl, ← hp, ← ht]

theorem verifyingAnswer_failure {s : State} {r : BusAnswer} {e : BusErrorInfo} {reg : Byte} {val : Word} {verify : Bool}
    (hc : s.cmd = some (.eepromWrite reg val verify)) (hs : s.st = .verifying) (hp : s.pending = none)
    (ht : s.tmrArmed = false) (hfail : readFailure r = some e) :
    verifyingAnswer r s = .next { s with
      st := .error
      res := some { Result.plain .busError with
        failedState := some .verifying, indeterminate := true, busInfo := some e } } := by
  rw [verifyingAnswer, hfail]
  exact congrArg _ (raise_of_verifying hc hs hp ht)

/-- Settles O27: the read frame, then the end by the shape of the answer, the PEC and the word. -/
theorem verifyingComparesTheWord : Obligations.VerifyingComparesTheWord := by
  intro s d hs hd hc a q
  refine ⟨fun hp => ⟨_, blockTurn_verifying hp hs hd⟩, fun ans rest hp hr ht => ?_⟩
  have hanswer : transportTurn s = verifyingAnswer ans (s.answered q ans rest) := transportTurn_verifying hs hp hr
  match ans with
  | .busError e => exact ⟨_, _, _, _, _, hanswer.trans (verifyingAnswer_failure hc hs rfl ht rfl), rfl, rfl, rfl⟩
  | .ok [] | .ok [_] | .ok [_, _] | .ok (_ :: _ :: _ :: _ :: _) =>
    exact ⟨_, _, _, _, _, hanswer.trans (verifyingAnswer_failure hc hs rfl ht rfl), rfl, rfl, rfl⟩
  | .ok [l, h, p] =>
    let t := (s.answered q (.ok [l, h, p]) rest).withRead d.reg l h p
    have hend := hanswer.trans (verifyingAnswer_threeBytes (s := s.answered q (.ok [l, h, p]) rest) hd l h p)
    have hraise (E : BlockError) := raise_of_verifying (s := t) (E := E) hc hs rfl ht
    by_cases hpec : pec8 (readCovered a d.reg l h) ≠ p
    · exact ⟨_, _, _, _, _, hend.trans (congrArg _ ((if_pos hpec).trans (hraise _))), rfl, (if_pos hpec).mpr ⟨rfl, rfl⟩⟩
    by_cases hword : word l h = d.newVal
    · exact ⟨_, _, _, _, _, hend.trans (congrArg _ ((if_neg hpec).trans (if_pos hword))), rfl,
        (if_neg hpec).mpr ((if_pos hword).mpr ⟨rfl, rfl⟩)⟩
    · exact ⟨_, _, _, _, _, hend.trans (congrArg _ ((if_neg hpec).trans ((if_neg hword).trans (hraise _)))), rfl,
        (if_neg hpec).mpr ((if_neg hword).mpr ⟨rfl, rfl⟩)⟩

end Sys2Proof.Machine
end

section
/-! SUPPORT. A command refused while another is in progress (60_exceptions.md rule R227), and error entry (rule R210): what the raised
result says, and that nothing moves after it. -/

namespace Sys2Proof.Machine

open Sys2Proof.Safety

/-- Settles O7: every command begins with `accept`, which goes on in `Idle` only. -/
theorem commandWhileBusyIsRefused : Obligations.CommandWhileBusyIsRefused := fun _ _ hs => exec_of_not_idle hs

/-! ### Nothing moves when no event is live -/

theorem blockTurn_of_quiet {s : State} (hq : s.st.quiet = true) (hp : s.pending = none) : blockTurn s = .next s := by
  unfold blockTurn
  rw [hp]
  cases hs : s.st with
  | idle | awaitEraseDelay | awaitWriteDelay | done | error => rfl
  | regAccess | erasing | writing | verifying => simp [hs, CtrlState.quiet, CtrlState.ended] at hq

theorem timerTurn_of_unarmed {s : State} (ht : s.tmrArmed = false) : timerTurn s = .next s := by
  simp [timerTurn, ht]

/-- With no command in progress and no event live, neither the block nor its two event sources do anything (rule R26). -/
theorem agentTurn_of_quiet {s : State} (hq : s.st.quiet = true) (hlive : NoLiveEvent s) {turn : Turn}
    (hturn : turn = .block ∨ turn = .transport ∨ turn = .timer) : agentTurn turn s = .next s := by
  obtain ⟨hp, ht⟩ := hlive
  rcases hturn with rfl | rfl | rfl
  · exact blockTurn_of_quiet hq hp
  · exact transportTurn_of_not_pending hp
  · exact timerTurn_of_unarmed ht

/-! ### The result an error writes -/

theorem CtrlState.isEepromRequest_iff {S : CtrlState} :
    S.isEepromRequest = true ↔ S = .erasing ∨ S = .writing ∨ S = .verifying := by
  cases S <;> simp [CtrlState.isEepromRequest]

theorem op_eq_eepromWrite_iff {i : Instr} : i.op = .eepromWrite ↔ ∃ reg v f, i = .eepromWrite reg v f := by
  cases i <;> simp [Instr.op]

/-- Rule R210's condition on `failed_state`, as `failedStateOf` tests it and in the command's operands. -/
theorem failedStateOf_condition_iff {i : Instr} {S : CtrlState} :
    (some i.op = some .eepromWrite ∧ S.isEepromRequest = true) ↔
      (∃ reg v f, i = .eepromWrite reg v f) ∧ (S = .erasing ∨ S = .writing ∨ S = .verifying) := by
  rw [Option.some.injEq, op_eq_eepromWrite_iff, CtrlState.isEepromRequest_iff]

/-- Settles O31: the result is `Result.ofError`'s, its `failed_state` by rule R210's condition, and `Error` holds no live event. -/
theorem raisingAnErrorWritesTheWholeResult : Obligations.RaisingAnErrorWritesTheWholeResult := by
  intro s E i hc
  refine ⟨Result.ofError E (some i.op) s.st, by simp [State.raise, hc], rfl, rfl, ?fields, fun hfail => ?failed,
    fun hfail => ?notFailed, fun turn => agentTurn_of_quiet rfl ⟨rfl, rfl⟩⟩
  case fields => cases E <;> exact ⟨rfl, rfl, rfl⟩
  case failed =>
    have hstate : failedStateOf (some i.op) s.st = some s.st := if_pos (failedStateOf_condition_iff.2 hfail)
    exact ⟨hstate, congrArg Option.isSome hstate⟩
  case notFailed =>
    have hstate : failedStateOf (some i.op) s.st = none := if_neg (mt failedStateOf_condition_iff.1 hfail)
    exact ⟨hstate, congrArg Option.isSome hstate⟩

end Sys2Proof.Machine
end

section
/-! SUPPORT. Construction (70_reset_and_hazards.md rule R240): which arguments give a configuration, and what a construction
without one does. -/

namespace Sys2Proof.Machine

theorem configOfArgs_of_legal {a t : Option Nat} (ha : a.getD Config.defaultBusAddress ≤ Config.maxBusAddress)
    (ht : t.getD Config.defaultWriteTimeMs ≤ Config.maxWriteTimeMs) :
    configOfArgs a t = some ⟨BitVec.ofNat 7 (a.getD Config.defaultBusAddress),
      BitVec.ofNat 16 (t.getD Config.defaultWriteTimeMs)⟩ :=
  if_pos ⟨ha, ht⟩

theorem configOfArgs_eq_none_iff {a t : Option Nat} :
    configOfArgs a t = none ↔
      Config.maxBusAddress < a.getD Config.defaultBusAddress ∨ Config.maxWriteTimeMs < t.getD Config.defaultWriteTimeMs := by
  simp only [configOfArgs, ite_eq_right_iff, reduceCtorEq, imp_false, not_and_or, not_le]

/-- Arguments that give no configuration construct nothing, whatever the block is doing. -/
theorem reconstruct_of_config_none {a t : Option Nat} {s : State} (h : configOfArgs a t = none) :
    reconstruct a t s = .next s.markRefused := by
  rw [reconstruct, h]

theorem defaultBusAddress_legal : Config.defaultBusAddress ≤ Config.maxBusAddress := by decide

theorem defaultWriteTimeMs_legal : Config.defaultWriteTimeMs ≤ Config.maxWriteTimeMs := by decide

/-- Settles O9: the elements are those of `State.constructed`, and an argument counts as its default when it is omitted. -/
theorem constructionLeavesTheResetValues : Obligations.ConstructionLeavesTheResetValues := by
  refine ⟨fun cfg => ?elements, rfl, fun a t ha ht => ?arguments, fun s a t ha => ?illegal⟩
  case elements =>
    have hread : hostRead (State.constructed cfg) = .fault .resAbsent := hostRead_of_res_absent rfl
    exact ⟨rfl, rfl, rfl, rfl, rfl, rfl, rfl, rfl, rfl, rfl, rfl, rfl, hread⟩
  case arguments =>
    exact ⟨configOfArgs_of_legal ha ht, configOfArgs_of_legal defaultBusAddress_legal ht,
      configOfArgs_of_legal ha defaultWriteTimeMs_legal,
      configOfArgs_of_legal defaultBusAddress_legal defaultWriteTimeMs_legal⟩
  case illegal =>
    have hnone : configOfArgs (some a) t = none := configOfArgs_eq_none_iff.2 (.inl ha)
    exact ⟨hnone, true, reconstruct_of_config_none hnone⟩

end Sys2Proof.Machine
end

section
/-! SUPPORT. Decode and encode undo one another (30_encoding.md section 1), field by field; the worked encodings, the address bytes and
the byte order of a word. -/

namespace Sys2Proof

/-- Settles O1: the fields of an assembled word are the operands it was assembled from, and the required zeros are zero. -/
theorem encodedCommandDecodesBack : Obligations.EncodedCommandDecodesBack := by
  intro i _
  rw [decode_eq_ok_iff]
  cases i <;> simp [encode, Instr.op, Op.RequiredZeros, Op.readFields]

/-- A word with zeros in bits 7:4 is assembled from its own fields. -/
theorem packWord_of_fields {w : CmdWord} {op : Op} (hop : opField w = op.code) (hres : reservedField w = 0) :
    packWord (valField w) (regField w) (flagField w) op = w :=
  cmdWord_eq_iff_fields.2 ⟨by rw [opField_packWord, hop], flagField_packWord .., by rw [reservedField_packWord, hres],
    regField_packWord .., valField_packWord ..⟩

/-- Encoding the command that the fields of a word spell gives the word back, when its required zeros are zero. -/
theorem encode_readFields {w : CmdWord} {data : List Byte} {op : Op} (hop : opField w = op.code)
    (hres : reservedField w = 0) (hzero : op.RequiredZeros w data) : encode (op.readFields w data) = (w, data) := by
  have hword := packWord_of_fields hop hres
  cases op with
  | computePec =>
    obtain ⟨hflag, hreg, hval⟩ := hzero
    rw [hflag, hreg, hval] at hword
    exact congrArg (·, data) hword
  | verifyPec =>
    obtain ⟨hflag, hval⟩ := hzero
    rw [hflag, hval] at hword
    exact congrArg (·, data) hword
  | readWord =>
    obtain ⟨hval, rfl⟩ := hzero
    rw [hval] at hword
    exact congrArg (·, []) hword
  | writeWord | eepromWrite =>
    obtain rfl : data = [] := hzero
    exact congrArg (·, []) hword

/-- Settles O2: a word that decodes has its required zeros, so its command is encoded to the word's own fields. -/
theorem decodedWordHasOneSpelling : Obligations.DecodedWordHasOneSpelling := by
  intro w data i h
  obtain ⟨hop, hres, hzero, hi⟩ := decode_eq_ok_iff.1 h
  rw [← hi]
  exact encode_readFields hop hres hzero

/-- Settles O4: each word is decoded. -/
theorem workedEncodingsDecode : Obligations.WorkedEncodingsDecode :=
  ⟨rfl, rfl, rfl, fun _ => rfl, fun _ => rfl⟩

end Sys2Proof

namespace Sys2Proof.Machine

theorem addrW_toNat (a : BusAddr) : (addrW a).toNat = 2 * a.toNat := by
  revert a
  decide

theorem addrR_toNat (a : BusAddr) : (addrR a).toNat = 2 * a.toNat + 1 := by
  revert a
  decide

theorem lo8_toNat (v : Word) : (lo8 v).toNat = v.toNat % 256 := by
  simp [lo8, BitVec.extractLsb'_toNat]

theorem hi8_toNat (v : Word) : (hi8 v).toNat = v.toNat / 256 := by
  have := v.isLt
  simp only [hi8, BitVec.extractLsb'_toNat, Nat.shiftRight_eq_div_pow]
  omega

@[simp] theorem lo8_word (l h : Byte) : lo8 (word l h) = l := by
  ext i hi
  have hi' : i < 16 := by omega
  simp [lo8, word, hi, hi', BitVec.getLsbD_eq_getElem]

@[simp] theorem hi8_word (l h : Byte) : hi8 (word l h) = h := by
  ext i hi
  have hsum : 8 + i < 16 := by omega
  simp [hi8, word, hi, hsum, BitVec.getLsbD_eq_getElem]

@[simp] theorem word_lo8_hi8 (v : Word) : word (lo8 v) (hi8 v) = v := by
  ext i hi
  by_cases hlow : i < 8
  · simp [lo8, hi8, word, hlow, hi, BitVec.getLsbD_eq_getElem]
  · have hi' : i - 8 < 8 := by omega
    have hsum : 8 + (i - 8) = i := by omega
    simp [lo8, hi8, word, hlow, hi, hi', hsum, BitVec.getLsbD_eq_getElem]

theorem word_toNat (l h : Byte) : (word l h).toNat = h.toNat * 256 + l.toNat := by
  have hlo := lo8_toNat (word l h)
  have hhi := hi8_toNat (word l h)
  rw [lo8_word] at hlo
  rw [hi8_word] at hhi
  omega

/-- Settles O20: the address bytes on every address; a word by its two bytes. -/
theorem addressAndWordBytes : Obligations.AddressAndWordBytes :=
  ⟨fun a => ⟨addrW_toNat a, addrR_toNat a⟩, fun v => ⟨lo8_toNat v, hi8_toNat v⟩,
    fun l h => ⟨word_toNat l h, lo8_word l h, hi8_word l h⟩⟩

end Sys2Proof.Machine
end

section
/-! SUPPORT. The PEC as a linear map and as a polynomial remainder (40_pec.md section 1). -/

namespace Sys2Proof.Machine

/-- Settles O15: a CRC step is eight shifts of `c ^ b`, and those are the table's entry. -/
theorem pecStepIsTheByteTable : Obligations.PecStepIsTheByteTable := pecStep_eq_pecTableAt

/-- Zero bytes leave a zero accumulator at zero, wherever a list goes on. -/
theorem pec8_replicate_zero_append (n : Nat) (bs : List Byte) : pec8 (List.replicate n 0 ++ bs) = pec8 bs := by
  rw [pec8_eq_pecFrom, pecFrom_append, ← pec8_eq_pecFrom, pec8_replicate_zero, ← pec8_eq_pecFrom]

/-- Settles O16: the last step takes the PEC to `pecStep c c`, and leading zeros never move the accumulator. -/
theorem pecAppendedToItsBytesLeavesZero : Obligations.PecAppendedToItsBytesLeavesZero := fun bs =>
  ⟨(pec8_append_singleton bs (pec8 bs)).trans (pecStep_self _), fun n => pec8_replicate_zero_append n bs⟩

theorem pecFrom_zipWith_xor {as bs : List Byte} (hlen : as.length = bs.length) (c d : Byte) :
    pecFrom (c ^^^ d) (List.zipWith (· ^^^ ·) as bs) = pecFrom c as ^^^ pecFrom d bs := by
  induction as generalizing bs c d with
  | nil =>
    obtain rfl : bs = [] := List.length_eq_zero_iff.1 hlen.symm
    rfl
  | cons a as ih =>
    cases bs with
    | nil => simp at hlen
    | cons b bs =>
      rw [List.zipWith_cons_cons, pecFrom_cons, pecStep_xor, ih (Nat.succ.inj hlen), pecFrom_cons, pecFrom_cons]

/-- Settles O17: linearity of the step carries over to lists, from the accumulators `0 = 0 ^ 0`. -/
theorem pecIsLinear : Obligations.PecIsLinear := by
  intro as bs hlen
  rw [pec8_eq_pecFrom, pec8_eq_pecFrom, pec8_eq_pecFrom]
  exact pecFrom_zipWith_xor hlen 0 0

/-! ### The polynomial reading -/

open Polynomial

/-- `x^8 + x^2 + x + 1` over GF(2) (rule R111). -/
noncomputable def pecDivisor : (ZMod 2)[X] := X ^ 8 + X ^ 2 + X + 1

theorem pecDivisor_monic : pecDivisor.Monic := by
  unfold pecDivisor
  monicity!

theorem pecDivisor_degree : pecDivisor.degree = 8 := by
  unfold pecDivisor
  compute_degree!

theorem bytePolynomial_degree_lt (b : Byte) : (bytePolynomial b).degree < pecDivisor.degree := by
  rw [pecDivisor_degree]
  refine (degree_sum_le _ _).trans_lt ((Finset.sup_lt_iff (by decide)).2 fun i hi => ?_)
  split
  · exact (degree_X_pow_le i).trans_lt (by exact_mod_cast Finset.mem_range.1 hi)
  · rw [degree_zero]
    decide

theorem bytePolynomial_xor (a b : Byte) : bytePolynomial (a ^^^ b) = bytePolynomial a + bytePolynomial b := by
  simp only [bytePolynomial, ← Finset.sum_add_distrib, BitVec.getLsbD_xor]
  refine Finset.sum_congr rfl fun i _ => ?_
  cases a.getLsbD i <;> cases b.getLsbD i <;> simp [CharTwo.add_self_eq_zero]

@[simp] theorem bytePolynomial_zero : bytePolynomial 0#8 = 0 := by simp [bytePolynomial]

theorem bytePolynomial_pecPoly : bytePolynomial Config.pecPoly = X ^ 2 + X + 1 := by
  simp [bytePolynomial, Config.pecPoly, Finset.sum_range_succ]
  ring

/-- Multiplying a byte by x shifts it, and its top bit becomes the coefficient of x^8. -/
theorem bytePolynomial_mul_X (x : Byte) :
    bytePolynomial x * X = bytePolynomial (x <<< 1) + if x.getLsbD 7 then X ^ 8 else 0 := by
  simp only [bytePolynomial]
  rw [Finset.sum_range_succ, Finset.sum_range_succ' (n := 7), add_mul, Finset.sum_mul]
  have hlow (i : ℕ) (hi : i ∈ Finset.range 7) :
      (if x.getLsbD i then X ^ i else 0 : (ZMod 2)[X]) * X = if (x <<< 1).getLsbD (i + 1) then X ^ (i + 1) else 0 := by
    have hi' : i + 1 < 8 := Nat.succ_lt_succ (Finset.mem_range.1 hi)
    simp [hi', BitVec.getLsbD_eq_getElem (Nat.lt_of_succ_lt hi'), ite_mul, pow_succ]
  rw [Finset.sum_congr rfl hlow]
  simp [ite_mul, ← pow_succ]

/-- A shift multiplies by x modulo the divisor. -/
theorem pecDivisor_dvd_pecShift (x : Byte) : pecDivisor ∣ bytePolynomial x * X - bytePolynomial (pecShift x) := by
  rw [bytePolynomial_mul_X, pecShift]
  split
  · rw [bytePolynomial_xor, bytePolynomial_pecPoly, add_sub_add_left_eq_sub, CharTwo.sub_eq_add, pecDivisor]
    exact dvd_of_eq (by ring)
  · simp

theorem pecDivisor_dvd_pecShifts (n : Nat) (x : Byte) :
    pecDivisor ∣ bytePolynomial x * X ^ n - bytePolynomial (pecShifts n x) := by
  induction n generalizing x with
  | zero => simp [pecShifts]
  | succ n ih =>
    have hsplit : bytePolynomial x * X ^ (n + 1) - bytePolynomial (pecShifts (n + 1) x) =
        (bytePolynomial x * X - bytePolynomial (pecShift x)) * X ^ n +
          (bytePolynomial (pecShift x) * X ^ n - bytePolynomial (pecShifts n (pecShift x))) := by
      rw [pecShifts]
      ring
    rw [hsplit]
    exact dvd_add (Dvd.dvd.mul_right (pecDivisor_dvd_pecShift x) _) (ih (pecShift x))

theorem messagePolynomial_append_singleton (bs : List Byte) (b : Byte) :
    messagePolynomial (bs ++ [b]) = messagePolynomial bs * X ^ 8 + bytePolynomial b := by
  rw [messagePolynomial, List.foldl_append]
  rfl

/-- The PEC and `M(x) x^8` agree modulo the divisor, byte by byte from the front of the message. -/
theorem pecDivisor_dvd_message_sub_pec (bs : List Byte) :
    pecDivisor ∣ messagePolynomial bs * X ^ 8 - bytePolynomial (pec8 bs) := by
  induction bs using List.reverseRecOn with
  | nil => simp [messagePolynomial]
  | append_singleton bs b ih =>
    have hsplit : messagePolynomial (bs ++ [b]) * X ^ 8 - bytePolynomial (pec8 (bs ++ [b])) =
        (messagePolynomial bs * X ^ 8 - bytePolynomial (pec8 bs)) * X ^ 8 +
          (bytePolynomial (pec8 bs ^^^ b) * X ^ 8 - bytePolynomial (pecShifts 8 (pec8 bs ^^^ b))) := by
      rw [messagePolynomial_append_singleton, pec8_append_singleton, pecStep, bytePolynomial_xor]
      ring
    rw [hsplit]
    exact dvd_add (Dvd.dvd.mul_right ih _) (pecDivisor_dvd_pecShifts 8 _)

/-- Settles O18: the PEC has degree below eight and is congruent to `M(x) x^8`, so it is the remainder. -/
theorem pecIsThePolynomialRemainder : Obligations.PecIsThePolynomialRemainder := by
  intro bs
  calc bytePolynomial (pec8 bs) = bytePolynomial (pec8 bs) %ₘ pecDivisor :=
        ((modByMonic_eq_self_iff pecDivisor_monic).2 (bytePolynomial_degree_lt _)).symm
    _ = (messagePolynomial bs * X ^ 8) %ₘ pecDivisor :=
        (modByMonic_eq_of_dvd_sub pecDivisor_monic (pecDivisor_dvd_message_sub_pec bs)).symm

end Sys2Proof.Machine
end

section
/-! SUPPORT. The host's step (60_exceptions.md rule R226): which step is the host's, and what each of its acts does. -/

namespace Sys2Proof.Machine

open Sys2Proof.Safety

/-- The step that a turn names is that agent's, with the turn off the schedule. -/
theorem step_of_takesTurn {s : State} {turn : Turn} (h : TakesTurn s turn) :
    step s = agentTurn turn { s with turns := s.turns.tail } := by
  rcases h with hsched | ⟨hempty, hdefault⟩
  · obtain ⟨rest, hrest⟩ := List.head?_eq_some_iff.1 hsched
    simp [step, hrest]
  · have hs : { s with turns := s.turns.tail } = s := by
      cases s
      simp_all
    rw [hs, step, hempty]
    simp [hdefault]

theorem hostTurn_cons {s : State} {a : HostInput} {rest : List HostInput} (hin : s.hostIn = a :: rest) :
    hostTurn s = hostAct a { s with hostIn := rest } := by
  rw [hostTurn, hin]

theorem step_of_host_act {s : State} {a : HostInput} {rest : List HostInput} (h : TakesTurn s .host)
    (hin : s.hostIn = a :: rest) : step s = hostAct a { s with turns := s.turns.tail, hostIn := rest } :=
  (step_of_takesTurn h).trans (hostTurn_cons (s := { s with turns := s.turns.tail }) hin)

theorem issueCommand_of_ok {w : CmdWord} {data : List Byte} {i : Instr} (h : decode w data = .ok i) (s : State) :
    issueCommand w data s = exec i s := by
  rw [issueCommand, h]

theorem issueCommand_of_error {w : CmdWord} {data : List Byte} {e : DecodeError} (h : decode w data = .error e)
    (s : State) : issueCommand w data s = .next s.markRefused := by
  rw [issueCommand, h]

theorem decodeTableWord_eq_some {nbits w : Nat} {i : Instr} (h : decodeTableWord nbits w = some i) :
    decode (tableWord nbits w) [] = .ok i := by
  unfold decodeTableWord at h
  split at h
  next hdecode => rwa [← Option.some.inj h]
  next => cases h

/-- Settles O5: the host's act at the head of its queue is the command word, and `withFetchWord` puts one there. -/
theorem stepRunsTheDecodedCommand : Obligations.StepRunsTheDecodedCommand := by
  refine ⟨fun s w data rest i hturn hin hi => ?_, fun s nbits w i hi => ?_⟩
  · exact (step_of_host_act hturn hin).trans (issueCommand_of_ok hi _)
  · exact (step_of_host_act (s := s.withFetchWord nbits w) (.inl rfl) rfl).trans
      (issueCommand_of_ok (decodeTableWord_eq_some hi) s)

/-! ### Acceptance -/

/-- What the accepting step of a command can do: refuse it, end a PEC command, begin an access or a sequence, or end on an
illegal register. -/
inductive Acceptance (s : State) : Instr → State → Prop
  | refused (i : Instr) (hs : s.st ≠ .idle) : Acceptance s i s.markRefused
  | computePec (data : List Byte) (hs : s.st = .idle) :
    Acceptance s (.computePec data)
      { s with cmd := some (.computePec data), crc := pec8 data, st := .done, res := some (.ofPec (pec8 data)) }
  | verifyPec (data : List Byte) (rcv : Byte) (hs : s.st = .idle) :
    Acceptance s (.verifyPec data rcv)
      { s with
        cmd := some (.verifyPec data rcv)
        crc := pec8 data
        st := .done
        res := some (.ofMatch (decide (pec8 data = rcv))) }
  | access (i : Instr) (q : BusRequest) (hs : s.st = .idle) (hq : accessRequest s.cfg.busAddress i = some q) :
    Acceptance s i { s with cmd := some i, st := .regAccess }
  | erase (reg : Byte) (val : Word) (verify : Bool) (hs : s.st = .idle) (hreg : inEeprom reg = true) :
    Acceptance s (.eepromWrite reg val verify)
      { s with
        cmd := some (.eepromWrite reg val verify)
        desc := some { reg := reg, prev := none, newVal := val, delayMs := s.cfg.writeTimeMs, verify := verify }
        st := .erasing }
  | illegal (i : Instr) (hs : s.st = .idle) (hcompute : i.op ≠ .computePec) (hverify : i.op ≠ .verifyPec) :
    Acceptance s i (s.withInvalidRegister i)

theorem acceptance_of_exec {i : Instr} {s s' : State} (h : exec i s = .next s') : Acceptance s i s' := by
  by_cases hs : s.st = .idle
  · cases i with
    | computePec data =>
      cases (exec_computePec_of_idle hs).symm.trans h
      exact .computePec data hs
    | verifyPec data rcv =>
      cases (exec_verifyPec_of_idle hs).symm.trans h
      exact .verifyPec data rcv hs
    | readWord reg chk =>
      cases (exec_readWord_of_idle hs).symm.trans h
      split
      next hreg => exact .access _ _ hs (if_pos hreg)
      next => exact .illegal _ hs nofun nofun
    | writeWord reg val chk =>
      cases (exec_writeWord_of_idle hs).symm.trans h
      split
      next hreg => exact .access _ _ hs (if_pos hreg)
      next => exact .illegal _ hs nofun nofun
    | eepromWrite reg val verify =>
      cases (exec_eepromWrite_of_idle hs).symm.trans h
      split
      next hreg => exact .erase reg val verify hs hreg
      next => exact .illegal _ hs nofun nofun
  · cases (exec_of_not_idle hs).symm.trans h
    exact .refused i hs

/-- Settles O8: field by field in each way the accepting step can go. -/
theorem acceptingStepFrame : Obligations.AcceptingStepFrame := by
  intro i s t h
  cases acceptance_of_exec h with
  | refused _ hs =>
    exact ⟨rfl, rfl, rfl, rfl, rfl, rfl, rfl, rfl, rfl, fun _ _ => rfl, fun _ => rfl, fun _ _ => rfl, .inl rfl, id,
      fun hidle => absurd hidle hs⟩
  | computePec data =>
    exact ⟨rfl, rfl, rfl, rfl, rfl, rfl, rfl, rfl, rfl, fun hop => absurd rfl hop, fun _ => rfl,
      fun hdone => absurd rfl hdone, .inl rfl, id, fun _ => ⟨rfl, rfl⟩⟩
  | verifyPec data rcv =>
    exact ⟨rfl, rfl, rfl, rfl, rfl, rfl, rfl, rfl, rfl, fun _ hop => absurd rfl hop, fun _ => rfl,
      fun hdone => absurd rfl hdone, .inl rfl, id, fun _ => ⟨rfl, rfl⟩⟩
  | access =>
    exact ⟨rfl, rfl, rfl, rfl, rfl, rfl, rfl, rfl, rfl, fun _ _ => rfl, fun _ => rfl, fun _ _ => rfl, .inl rfl, id,
      fun _ => ⟨rfl, rfl⟩⟩
  | erase =>
    exact ⟨rfl, rfl, rfl, rfl, rfl, rfl, rfl, rfl, rfl, fun _ _ => rfl, fun hop => absurd rfl hop, fun _ _ => rfl,
      .inl rfl, id, fun _ => ⟨rfl, rfl⟩⟩
  | illegal =>
    exact ⟨rfl, rfl, rfl, rfl, rfl, rfl, rfl, rfl, rfl, fun _ _ => rfl, fun _ => rfl,
      fun _ herror => absurd rfl herror, .inr rfl, nofun, fun _ => ⟨rfl, rfl⟩⟩

/-! ### Construction -/

theorem CtrlState.quiet_iff {S : CtrlState} : S.quiet = true ↔ S = .idle ∨ S = .done ∨ S = .error := by
  cases S <;> decide

theorem CtrlState.ended_iff {S : CtrlState} : S.ended = true ↔ S = .done ∨ S = .error := by
  cases S <;> decide

theorem reconstruct_of_quiet {a t : Option Nat} {cfg : BlockConfig} {s : State} (hcfg : configOfArgs a t = some cfg)
    (hq : s.st.quiet = true) :
    reconstruct a t s = .next { State.constructed cfg with
      resultLog := s.resultLog, turns := s.turns, hostIn := s.hostIn, replies := s.replies, sim := s.sim } := by
  rw [reconstruct, hcfg]
  exact if_pos hq

theorem reconstruct_of_busy {a t : Option Nat} {s : State} (hq : s.st.quiet = false) :
    reconstruct a t s = .next s.markRefused := by
  rcases reconstruct_cases a t s with ⟨cfg, -, hquiet, -⟩ | hr
  · simp [hq] at hquiet
  · exact hr

/-- Settles O10: the controller states with no command in progress are the quiet ones. -/
theorem constructingAgainReplacesTheBlockState : Obligations.ConstructingAgainReplacesTheBlockState := by
  refine fun s a t cfg hcfg => ⟨fun hs => ?_, fun hidle hdone herror => ?_⟩
  · exact ⟨_, reconstruct_of_quiet hcfg (CtrlState.quiet_iff.2 hs), rfl, rfl, rfl, rfl, rfl, rfl, rfl, rfl, rfl, rfl, rfl,
      rfl⟩
  · refine reconstruct_of_busy (Bool.eq_false_iff.2 fun hq => ?_)
    rcases CtrlState.quiet_iff.1 hq with h | h | h
    · exact hidle h
    · exact hdone h
    · exact herror h

/-- Settles O11: arguments out of range give no configuration, and neither outcome of a construction touches what is not the
block's. -/
theorem illegalConstructionIsRefused : Obligations.IllegalConstructionIsRefused := by
  refine ⟨fun s a t hargs => reconstruct_of_config_none (configOfArgs_eq_none_iff.2 ?_), fun s u a t h => ?_⟩
  · rcases hargs with ⟨n, rfl, hn⟩ | ⟨n, rfl, hn⟩
    · exact .inl hn
    · exact .inr hn
  · rcases reconstruct_cases a t s with ⟨cfg, -, -, hr⟩ | hr
    · cases hr.symm.trans h
      exact ⟨rfl, rfl, rfl, rfl, rfl⟩
    · cases hr.symm.trans h
      exact ⟨rfl, rfl, rfl, rfl, rfl⟩

/-! ### The result -/

theorem readableResult_of_readable {s : State} {r : Result} (hr : s.res = some r) (hstatus : r.status.isReserved = false) :
    readableResult s = .ok r := by
  simp [readableResult, hr, hstatus]

theorem readableResult_of_reserved {s : State} {r : Result} {k : Fin 249} (hr : s.res = some r)
    (hstatus : r.status = .reserved k) : readableResult s = .error .reservedStatus := by
  simp [readableResult, hr, hstatus, ErrCode.isReserved]

theorem readableResult_of_res_absent {s : State} (hr : s.res = none) : readableResult s = .error .resAbsent := by
  rw [readableResult, hr]

theorem isReserved_of_legal {r : Result} (h : ResultLegal r) : r.status.isReserved = false := by
  have hstatus := h.status
  simp only [writtenStatuses, List.mem_cons, List.not_mem_nil, or_false] at hstatus
  rcases hstatus with h | h | h | h | h <;> rw [h] <;> rfl

theorem hostRead_of_fault {s : State} {f : Fault} (h : readableResult s = .error f) : hostRead s = .fault f := by
  rw [hostRead, h]

theorem hostRead_of_readable {s : State} {r : Result} (h : readableResult s = .ok r) : hostRead s = .next s := by
  rw [hostRead, h]

theorem takeResult_of_fault {s : State} {f : Fault} (hs : s.st.ended = true) (h : readableResult s = .error f) :
    takeResult s = .fault f := by
  rw [takeResult, if_pos hs, h]

theorem takeResult_of_readable {s : State} {r : Result} (hs : s.st.ended = true) (h : readableResult s = .ok r) :
    takeResult s = .next { s with st := .idle, resultLog := s.resultLog ++ [r] } := by
  rw [takeResult, if_pos hs, h]

theorem takeResult_of_legal {s : State} {r : Result} (hs : s.st = .done ∨ s.st = .error) (hr : s.res = some r)
    (hlegal : ResultLegal r) : takeResult s = .next { s with st := .idle, resultLog := s.resultLog ++ [r] } :=
  takeResult_of_readable (CtrlState.ended_iff.2 hs) (readableResult_of_readable hr (isReserved_of_legal hlegal))

theorem takeResult_of_not_ended {s : State} (hs : s.st.ended = false) : takeResult s = .next s.markRefused :=
  if_neg (by simp [hs])

/-- Settles O32: the take; quiet states move no agent of the block; `step_res` lists the ways `res` can change. -/
theorem takingTheResultReturnsToIdle : Obligations.TakingTheResultReturnsToIdle := by
  intro s r hs hr hlegal
  refine ⟨⟨_, takeResult_of_legal hs hr hlegal⟩, fun hlive turn => agentTurn_of_quiet (CtrlState.quiet_iff.2 (.inr hs)) hlive,
    fun t t' hstep hnot hne => ?_⟩
  rcases step_res hstep with (hkept | hend) | ⟨hrec, -⟩
  · exact absurd hkept hne
  · exact hend
  · exact absurd hrec hnot

end Sys2Proof.Machine
end

section
/-! SUPPORT. What every step keeps (10_state.md section 2, 20_memory.md section 2): the configuration, the refused mark and the history
so far, until a construction; and which steps can put a request on the bus, change the host's log or do anything with no event
live. -/

namespace Sys2Proof.Machine

open Sys2Proof.Safety

/-- From `s` to `s'` the block's life goes on: the configuration is kept, a set mark stays, and the history gains at most two
events, the answer to an outstanding request among them if it is outstanding no more. -/
structure GoesOn (s s' : State) : Prop where
  cfg : s'.cfg = s.cfg
  refused : s.refused = true → s'.refused = true
  hist : ∃ es, s'.hist = s.hist ++ es ∧ es.length ≤ 2 ∧
    ∀ q, s.pending = some q → s'.pending = some q ∨ (∃ r, .answer q r ∈ es) ∨ s.st = .idle

theorem GoesOn.of_hist_kept {s s' : State} (hcfg : s'.cfg = s.cfg) (hrefused : s.refused = true → s'.refused = true)
    (hhist : s'.hist = s.hist) (hpending : s'.pending = s.pending ∨ s.st = .idle) : GoesOn s s' := by
  refine ⟨hcfg, hrefused, [], by simp [hhist], Nat.zero_le 2, fun q hq => ?_⟩
  rcases hpending with hp | hs
  · exact .inl (hp.trans hq)
  · exact .inr (.inr hs)

theorem GoesOn.refl (s : State) : GoesOn s s := .of_hist_kept rfl id rfl (.inl rfl)

theorem GoesOn.markRefused (s : State) : GoesOn s s.markRefused := .of_hist_kept rfl (fun _ => rfl) rfl (.inl rfl)

theorem Acceptance.goesOn {i : Instr} {s s' : State} (h : Acceptance s i s') : GoesOn s s' := by
  cases h with
  | refused => exact .markRefused s
  | computePec | verifyPec | access | erase => exact .of_hist_kept rfl id rfl (.inl rfl)
  | illegal _ hs => exact .of_hist_kept rfl id rfl (.inr hs)

theorem hostAct_goesOn {a : HostInput} {s s' : State} (hnot : ∀ addr ms, a ≠ .construct addr ms)
    (h : hostAct a s = .next s') : GoesOn s s' := by
  cases a with
  | command w data =>
    rcases issueCommand_cases w data s with ⟨i, -, hi⟩ | ⟨e, -, hi⟩
    · exact (acceptance_of_exec (hi.symm.trans h)).goesOn
    · cases hi.symm.trans h
      exact .markRefused s
  | readResult =>
    obtain ⟨rfl, -⟩ := hostRead_next h
    exact .refl _
  | takeResult =>
    rcases takeResult_next h with ⟨-, r, -, rfl⟩ | ⟨-, rfl⟩
    · exact .of_hist_kept rfl id rfl (.inl rfl)
    · exact .markRefused s
  | construct addr ms => exact absurd rfl (hnot addr ms)

theorem blockTurn_goesOn {s s' : State} (h : blockTurn s = .next s') : GoesOn s s' := by
  have hissue {q : BusRequest} {c : Byte} (hp : s.pending = none) : GoesOn s (({ s with crc := c } : State).issue q) :=
    ⟨rfl, id, [.issue q], rfl, Nat.le_succ 1, by simp [hp]⟩
  rcases blockTurn_next h with rfl | ⟨hp, ⟨_, _, -, -, rfl⟩ | ⟨_, _, _, -, -, rfl⟩ | ⟨_, -, -, rfl⟩ | ⟨_, -, -, rfl⟩ |
    ⟨_, -, -, rfl⟩⟩
  · exact .refl _
  all_goals exact hissue hp

theorem transportTurn_goesOn {s s' : State} (h : transportTurn s = .next s') : GoesOn s s' := by
  rcases transportTurn_cases s with ⟨ht, -⟩ | ⟨q, rep, rest, hp, -, ht⟩ <;> rw [ht] at h
  · cases h
    exact .refl _
  · have hmem {es : List BusEvent} {r : BusAnswer} {t : State} (hr : .answer q r ∈ es) (q' : BusRequest)
        (hq' : s.pending = some q') : t.pending = some q' ∨ (∃ r, .answer q' r ∈ es) ∨ s.st = .idle := by
      obtain rfl : q = q' := Option.some.inj (hp.symm.trans hq')
      exact .inr (.inl ⟨r, hr⟩)
    rcases blockAnswer_next h with ⟨T, d, -, -, -, rfl⟩ | ⟨c, x, res, rfl, -⟩ | ⟨c, x, E, rfl, -⟩
    · exact ⟨rfl, id, [.answer q (rep.answer q s.sim).1, .waitStart d.delayMs], by simp, Nat.le_refl 2, hmem (.head _)⟩
    · exact ⟨rfl, id, [.answer q _], rfl, Nat.le_succ 1, hmem (.head _)⟩
    · exact ⟨rfl, id, [.answer q _], rfl, Nat.le_succ 1, hmem (.head _)⟩

/-- What an armed timer's step does, whichever delay it ends. -/
theorem timerTurn_of_armed {s s' : State} (ha : s.tmrArmed = true) (h : timerTurn s = .next s') :
    s'.tmrArmed = false ∧ s'.hist = s.hist ++ [.waitEnd] ∧ s'.tmrMs = s.tmrMs ∧
      s'.sim = (s.sim.map fun d => d.advance s.elapsedMs) ∧ s'.cfg = s.cfg ∧ s'.refused = s.refused ∧
      s'.pending = s.pending ∧ s'.resultLog = s.resultLog := by
  rcases timerTurn_next h with ⟨hunarmed, -⟩ | ⟨-, dev, rfl, ⟨-, rfl⟩ | ⟨d, -, -, ⟨-, rfl⟩ | ⟨-, rfl⟩⟩⟩
  · simp [ha] at hunarmed
  all_goals exact ⟨rfl, rfl, rfl, rfl, rfl, rfl, rfl, rfl⟩

theorem timerTurn_goesOn {s s' : State} (h : timerTurn s = .next s') : GoesOn s s' := by
  cases ha : s.tmrArmed with
  | false =>
    cases (timerTurn_of_unarmed ha).symm.trans h
    exact .refl s
  | true =>
    obtain ⟨-, hhist, -, -, hcfg, hrefused, hpending, -⟩ := timerTurn_of_armed ha h
    exact ⟨hcfg, hrefused.trans, [.waitEnd], hhist, by decide, fun q hq => .inl (hpending.trans hq)⟩

theorem agentTurn_goesOn {turn : Turn} {s s' : State}
    (hnot : turn = .host → ¬ ∃ addr ms, s.hostIn.head? = some (.construct addr ms)) (h : agentTurn turn s = .next s') :
    GoesOn s s' := by
  cases turn with
  | host =>
    rcases hostTurn_next h with ⟨-, rfl⟩ | ⟨a, rest, hin, ha⟩
    · exact .refl _
    · obtain ⟨hcfg, hrefused, hhist⟩ :=
        hostAct_goesOn (fun addr ms hact => hnot rfl ⟨addr, ms, by rw [hin, hact]; rfl⟩) ha
      exact ⟨hcfg, hrefused, hhist⟩
  | block => exact blockTurn_goesOn h
  | transport => exact transportTurn_goesOn h
  | timer => exact timerTurn_goesOn h
  | tick ms | disturb r w stops =>
    cases h
    exact .of_hist_kept rfl id rfl (.inl rfl)

theorem step_goesOn {s s' : State} (h : step s = .next s') (hnot : ¬ Reconstructs s) : GoesOn s s' := by
  rcases step_next_turn h with rfl | ⟨turn, rest, htakes, hturn⟩
  · exact .refl _
  · have hhost : turn = .host → ¬ ∃ addr ms, s.hostIn.head? = some (.construct addr ms) := fun hturn hin =>
      hnot ⟨hturn ▸ htakes, hin⟩
    obtain ⟨hcfg, hrefused, hhist⟩ := agentTurn_goesOn (s := { s with turns := rest }) hhost hturn
    exact ⟨hcfg, hrefused, hhist⟩

/-- Settles O6: the refusal is `markRefused`, and a step that goes on keeps a set mark. -/
theorem wordThatSpellsNoCommandOnlySetsTheMark : Obligations.WordThatSpellsNoCommandOnlySetsTheMark :=
  ⟨fun _ _ _ _ _ hturn hin he => (step_of_host_act hturn hin).trans (issueCommand_of_error he _),
    fun _ _ hmark h hnot => (step_goesOn h hnot).refused hmark⟩

/-- Settles O40: the history part of `step_goesOn`. -/
theorem historyIsOnlyAppendedTo : Obligations.HistoryIsOnlyAppendedTo := fun _ _ h hnot => (step_goesOn h hnot).hist

/-! ### Requests carry the configured address -/

/-- A request of the block at bus address `a`: one of the two frames (rules R84 and R85). -/
def FrameAt (a : BusAddr) (q : BusRequest) : Prop := (∃ r, q = readRequest a r) ∨ ∃ r v, q = writeRequest a r v

theorem blockTurn_pending {s s' : State} (h : blockTurn s = .next s') :
    s'.pending = s.pending ∨ ∃ q, s'.pending = some q ∧ FrameAt s.cfg.busAddress q := by
  rcases blockTurn_next h with rfl | ⟨hp, ⟨_, _, -, -, rfl⟩ | ⟨_, _, _, -, -, rfl⟩ | ⟨_, -, -, rfl⟩ | ⟨_, -, -, rfl⟩ |
    ⟨_, -, -, rfl⟩⟩
  · exact .inl rfl
  · exact .inr ⟨_, rfl, .inl ⟨_, rfl⟩⟩
  · exact .inr ⟨_, rfl, .inr ⟨_, _, rfl⟩⟩
  · exact .inr ⟨_, rfl, .inr ⟨_, _, rfl⟩⟩
  · exact .inr ⟨_, rfl, .inr ⟨_, _, rfl⟩⟩
  · exact .inr ⟨_, rfl, .inl ⟨_, rfl⟩⟩

theorem hostAct_pending {a : HostInput} {s s' : State} (hp : s.pending = none) (h : hostAct a s = .next s') :
    s'.pending = none := by
  cases a with
  | command w data =>
    rcases issueCommand_cases w data s with ⟨i, -, hi⟩ | ⟨e, -, hi⟩
    · cases acceptance_of_exec (hi.symm.trans h) with
      | refused | computePec | verifyPec | access | erase => exact hp
      | illegal => rfl
    · cases hi.symm.trans h
      exact hp
  | readResult =>
    obtain ⟨rfl, -⟩ := hostRead_next h
    exact hp
  | takeResult => rcases takeResult_next h with ⟨-, r, -, rfl⟩ | ⟨-, rfl⟩ <;> exact hp
  | construct addr ms =>
    rcases reconstruct_cases addr ms s with ⟨cfg, -, -, hr⟩ | hr
    · cases hr.symm.trans h
      rfl
    · cases hr.symm.trans h
      exact hp

/-- With nothing outstanding only the block's own turn puts a request on the bus. -/
theorem agentTurn_pending {turn : Turn} {s s' : State} (hp : s.pending = none) (h : agentTurn turn s = .next s') :
    s'.pending = none ∨ ∃ q, s'.pending = some q ∧ FrameAt s.cfg.busAddress q := by
  cases turn with
  | host =>
    rcases hostTurn_next h with ⟨-, rfl⟩ | ⟨a, rest, -, ha⟩
    · exact .inl hp
    · exact .inl (hostAct_pending (s := { s with hostIn := rest }) hp ha)
  | block => exact (blockTurn_pending h).imp_left (·.trans hp)
  | transport =>
    cases (transportTurn_of_not_pending hp).symm.trans h
    exact .inl hp
  | timer =>
    cases ha : s.tmrArmed with
    | false =>
      cases (timerTurn_of_unarmed ha).symm.trans h
      exact .inl hp
    | true =>
      obtain ⟨-, -, -, -, -, -, hpending, -⟩ := timerTurn_of_armed ha h
      exact .inl (hpending.trans hp)
  | tick ms | disturb r w stops =>
    cases h
    exact .inl hp

/-- Settles O12: a step that goes on keeps `CFG`, and a new request is one of the two frames at its address. -/
theorem configurationChangesOnlyAtConstruction : Obligations.ConfigurationChangesOnlyAtConstruction := by
  refine ⟨fun s s' h hnot => (step_goesOn h hnot).cfg, fun s s' q h hp hq => ?_⟩
  rcases step_next_turn h with rfl | ⟨turn, rest, -, hturn⟩
  · simp [hp] at hq
  · rcases agentTurn_pending (s := { s with turns := rest }) hp hturn with hnone | ⟨q', hq', hframe⟩
    · simp [hnone] at hq
    · obtain rfl : q' = q := Option.some.inj (hq'.symm.trans hq)
      rcases hframe with ⟨r, rfl⟩ | ⟨r, v, rfl⟩ <;> rfl

/-! ### Nothing happens with no event live -/

/-- With no command in progress no act of the host but a construction touches the history, and in `Done` and `Error` none but a take
or a construction moves the controller. -/
theorem hostAct_of_quiet {a : HostInput} {s s' : State} (h : hostAct a s = .next s') :
    ((∀ addr ms, a ≠ .construct addr ms) → s'.hist = s.hist) ∧
      (s.st ≠ .idle → s'.st ≠ s.st → s'.st = .idle ∧ ((∃ addr ms, a = .construct addr ms) ∨ a = .takeResult)) := by
  cases a with
  | command w data =>
    rcases issueCommand_cases w data s with ⟨i, -, hi⟩ | ⟨e, -, hi⟩
    · refine ⟨fun _ => ?_, fun hidle hst => ?_⟩
      · cases acceptance_of_exec (hi.symm.trans h) <;> rfl
      · cases (exec_of_not_idle hidle).symm.trans (hi.symm.trans h)
        exact absurd rfl hst
    · cases hi.symm.trans h
      exact ⟨fun _ => rfl, fun _ hst => absurd rfl hst⟩
  | readResult =>
    obtain ⟨rfl, -⟩ := hostRead_next h
    exact ⟨fun _ => rfl, fun _ hst => absurd rfl hst⟩
  | takeResult =>
    rcases takeResult_next h with ⟨-, r, -, rfl⟩ | ⟨-, rfl⟩
    · exact ⟨fun _ => rfl, fun _ _ => ⟨rfl, .inr rfl⟩⟩
    · exact ⟨fun _ => rfl, fun _ hst => absurd rfl hst⟩
  | construct addr ms =>
    refine ⟨fun hnot => absurd rfl (hnot addr ms), fun _ hst => ⟨?_, .inl ⟨addr, ms, rfl⟩⟩⟩
    rcases reconstruct_cases addr ms s with ⟨cfg, -, -, hr⟩ | hr
    · cases hr.symm.trans h
      rfl
    · cases hr.symm.trans h
      exact absurd rfl hst

/-- Settles O30: no agent of the block moves in a quiet state, and neither does the device's environment move the block; what is left
is the host. -/
theorem endedCommandDoesNothingMore : Obligations.EndedCommandDoesNothingMore := by
  intro s s' hlive hs h
  rcases step_next_turn h with rfl | ⟨turn, rest, htakes, hturn⟩
  · exact ⟨fun _ => rfl, fun _ hst => absurd rfl hst⟩
  have hagent (hagents : turn = .block ∨ turn = .transport ∨ turn = .timer) : s' = { s with turns := rest } :=
    Host.Outcome.next.inj (hturn.symm.trans
      (agentTurn_of_quiet (s := { s with turns := rest }) (CtrlState.quiet_iff.2 hs) hlive hagents))
  cases turn with
  | host =>
    rcases hostTurn_next hturn with ⟨-, rfl⟩ | ⟨a, acts, hin, ha⟩
    · exact ⟨fun _ => rfl, fun _ hst => absurd rfl hst⟩
    · have hhead : s.hostIn.head? = some a := congrArg List.head? hin
      obtain ⟨hhist, hst⟩ := hostAct_of_quiet ha
      refine ⟨fun hnot => hhist fun addr ms hact => hnot ⟨htakes, addr, ms, hact ▸ hhead⟩, fun hidle hne => ?_⟩
      obtain ⟨hidle', hact⟩ := hst hidle hne
      refine ⟨hidle', ?_⟩
      rcases hact with ⟨addr, ms, rfl⟩ | rfl
      · exact .inl ⟨htakes, addr, ms, hhead⟩
      · exact .inr ⟨htakes, hhead⟩
  | block =>
    obtain rfl := hagent (.inl rfl)
    exact ⟨fun _ => rfl, fun _ hst => absurd rfl hst⟩
  | transport =>
    obtain rfl := hagent (.inr (.inl rfl))
    exact ⟨fun _ => rfl, fun _ hst => absurd rfl hst⟩
  | timer =>
    obtain rfl := hagent (.inr (.inr rfl))
    exact ⟨fun _ => rfl, fun _ hst => absurd rfl hst⟩
  | tick ms | disturb r w stops =>
    cases hturn
    exact ⟨fun _ => rfl, fun _ hst => absurd rfl hst⟩

/-- Settles O36: an armed timer's step is one `Elapsed`, and the device's clock goes on by `tmr_ms`. -/
theorem timerDeliversOneElapsedPerArming : Obligations.TimerDeliversOneElapsedPerArming := by
  refine ⟨fun s => timerTurn_of_unarmed, fun s s' ha h => ?_⟩
  obtain ⟨hunarmed, hhist, hms, hsim, -⟩ := timerTurn_of_armed ha h
  refine ⟨hunarmed, hhist, hms, fun t d ht hd => ⟨d.advance s.elapsedMs, by rw [hsim, hd]; rfl, ?_⟩⟩
  rw [Device.advance_now, State.elapsedMs_of_some ht]

/-! ### The host's log -/

theorem hostAct_resultLog {a : HostInput} {s s' : State} (h : hostAct a s = .next s') :
    s'.resultLog = s.resultLog ∨
      (a = .takeResult ∧ ∃ r, s.res = some r ∧ s'.resultLog = s.resultLog ++ [r]) := by
  cases a with
  | command w data =>
    rcases issueCommand_cases w data s with ⟨i, -, hi⟩ | ⟨e, -, hi⟩
    · cases acceptance_of_exec (hi.symm.trans h) <;> exact .inl rfl
    · cases hi.symm.trans h
      exact .inl rfl
  | readResult =>
    obtain ⟨rfl, -⟩ := hostRead_next h
    exact .inl rfl
  | takeResult =>
    rcases takeResult_next h with ⟨-, r, hr, rfl⟩ | ⟨-, rfl⟩
    · exact .inr ⟨rfl, r, hr, rfl⟩
    · exact .inl rfl
  | construct addr ms =>
    rcases reconstruct_cases addr ms s with ⟨cfg, -, -, hr⟩ | hr <;> cases hr.symm.trans h <;> exact .inl rfl

/-- No agent but the host writes the host's log. -/
theorem agentTurn_resultLog {turn : Turn} {s s' : State} (h : agentTurn turn s = .next s') :
    s'.resultLog = s.resultLog ∨
      (turn = .host ∧ s.hostIn.head? = some .takeResult ∧ ∃ r, s.res = some r ∧ s'.resultLog = s.resultLog ++ [r]) := by
  cases turn with
  | host =>
    rcases hostTurn_next h with ⟨-, rfl⟩ | ⟨a, rest, hin, ha⟩
    · exact .inl rfl
    · rcases hostAct_resultLog ha with hkept | ⟨rfl, hr⟩
      · exact .inl hkept
      · exact .inr ⟨rfl, congrArg List.head? hin, hr⟩
  | block =>
    rcases blockTurn_next h with rfl | ⟨-, ⟨_, _, -, -, rfl⟩ | ⟨_, _, _, -, -, rfl⟩ | ⟨_, -, -, rfl⟩ | ⟨_, -, -, rfl⟩ |
      ⟨_, -, -, rfl⟩⟩ <;> exact .inl rfl
  | transport =>
    rcases transportTurn_cases s with ⟨ht, -⟩ | ⟨q, rep, rest, -, -, ht⟩ <;>
      replace h : _ = Host.Outcome.next s' := ht.symm.trans h
    · cases h
      exact .inl rfl
    · rcases blockAnswer_next h with ⟨_, _, -, -, -, rfl⟩ | ⟨_, _, _, rfl, -⟩ | ⟨_, _, _, rfl, -⟩ <;> exact .inl rfl
  | timer =>
    rcases timerTurn_next h with ⟨-, rfl⟩ | ⟨-, _, -, ⟨-, rfl⟩ | ⟨_, -, -, ⟨-, rfl⟩ | ⟨-, rfl⟩⟩⟩ <;> exact .inl rfl
  | tick ms | disturb r w stops =>
    cases h
    exact .inl rfl

/-- Settles O35: a legal result is readable, and `agentTurn_resultLog` says which step writes the log. -/
theorem resultLogGainsTheTakenResult : Obligations.ResultLogGainsTheTakenResult := by
  refine ⟨fun s r hr hlegal => ⟨fun hs => takeResult_of_legal hs hr hlegal,
    hostRead_of_readable (readableResult_of_readable hr (isReserved_of_legal hlegal))⟩,
    fun s hdone herror => takeResult_of_not_ended (Bool.eq_false_iff.2 fun hended => ?_), fun s s' h hne => ?_⟩
  · rcases CtrlState.ended_iff.1 hended with hs | hs
    · exact hdone hs
    · exact herror hs
  · rcases step_next_turn h with rfl | ⟨turn, rest, htakes, hturn⟩
    · exact absurd rfl hne
    · rcases agentTurn_resultLog hturn with hkept | ⟨rfl, htake⟩
      · exact absurd hkept hne
      · exact ⟨htakes, htake⟩

/-! ### Faults on absent elements -/

theorem withDesc_of_absent {s : State} {go : EepromDescriptor → Out} (hd : s.desc = none) :
    withDesc s go = .fault .descAbsent := by
  rw [withDesc, hd]

theorem blockTurn_of_cmd_absent {s : State} (hp : s.pending = none) (hs : s.st = .regAccess) (hc : s.cmd = none) :
    blockTurn s = .fault .cmdAbsent := by
  simp [blockTurn, regAccessIssue, hp, hs, hc]

theorem blockTurn_of_desc_absent {s : State} (hp : s.pending = none)
    (hs : s.st = .erasing ∨ s.st = .writing ∨ s.st = .verifying) (hd : s.desc = none) :
    blockTurn s = .fault .descAbsent := by
  rcases hs with hs | hs | hs <;>
    simp [blockTurn, erasingIssue, writingIssue, verifyingIssue, hp, hs, withDesc_of_absent hd]

theorem timerTurn_of_desc_absent {s : State} (hs : s.st = .awaitWriteDelay) (ha : s.tmrArmed = true)
    (hd : s.desc = none) : timerTurn s = .fault .descAbsent := by
  simp [timerTurn, ha, blockElapsed, hs, writeDelayElapsed, withDesc, hd]

theorem transportTurn_of_cmd_absent {s : State} {q : BusRequest} {rep : Reply} {rest : List Reply}
    (hp : s.pending = some q) (hr : s.replies = rep :: rest) (hs : s.st = .regAccess) (hc : s.cmd = none) :
    transportTurn s = .fault .cmdAbsent := by
  simp [transportTurn, hp, hr, blockAnswer, hs, regAccessAnswer, hc]

theorem BusAnswer.fit_busError (q : BusRequest) (e : TransportInfo) : BusAnswer.fit q (.busError e) = .busError e := by
  cases q <;> rfl

theorem BusAnswer.fit_ok (q : BusRequest) (bs : List Byte) : ∃ bs', BusAnswer.fit q (.ok bs) = .ok bs' := by
  cases q <;> exact ⟨_, rfl⟩

theorem writeStates_of {S : CtrlState} (hs : S = .erasing ∨ S = .writing) : ∃ T, WriteStates S T := by
  rcases hs with rfl | rfl
  · exact ⟨_, .inl ⟨rfl, rfl⟩⟩
  · exact ⟨_, .inr ⟨rfl, rfl⟩⟩

/-- A transport failure of the sequence raises its error whatever `desc` holds. -/
theorem transportTurn_of_sequence_busError {s : State} {q : BusRequest} {e : TransportInfo} {rest : List Reply}
    (hs : s.st.isEepromRequest = true) (hp : s.pending = some q) (hr : s.replies = .given (.busError e) :: rest) :
    transportTurn s = .next ((s.answered q (.busError e) rest).raise (.busError (.transport e))) := by
  have hwrite {T : CtrlState} (hT : WriteStates s.st T) :
      transportTurn s = .next ((s.answered q (.busError e) rest).raise (.busError (.transport e))) := by
    rw [transportTurn_of_writeStates hT hp hr, BusAnswer.fit_busError]
    rfl
  rcases CtrlState.isEepromRequest_iff.1 hs with hs | hs | hs
  · exact hwrite (.inl ⟨hs, rfl⟩)
  · exact hwrite (.inr ⟨hs, rfl⟩)
  · rw [transportTurn_verifying hs hp hr, BusAnswer.fit_busError]
    rfl

/-- Settles O34: each fault is where the rule's own reading of `res`, `cmd` or `desc` stands. -/
theorem readingAnAbsentElementFaults : Obligations.ReadingAnAbsentElementFaults := by
  refine ⟨fun s hr hs => takeResult_of_fault (CtrlState.ended_iff.2 hs) (readableResult_of_res_absent hr),
    fun s r k hr hk => ?reserved, fun s => blockTurn_of_cmd_absent, fun s => blockTurn_of_desc_absent,
    fun s => timerTurn_of_desc_absent, fun s q rep rest => transportTurn_of_cmd_absent,
    fun s q ans rest hp hd hr => ⟨fun hs hans => ?write, fun l h p a bs n hs hq hans => ?verify, fun e hs hans => ?failure⟩⟩
  case reserved =>
    have hfault := readableResult_of_reserved hr hk
    exact ⟨hostRead_of_fault hfault, fun hs => takeResult_of_fault (CtrlState.ended_iff.2 hs) hfault⟩
  case write =>
    obtain ⟨T, hT⟩ := writeStates_of hs
    cases ans with
    | busError e => exact absurd rfl (hans e)
    | ok bs =>
      obtain ⟨bs', hbs'⟩ := BusAnswer.fit_ok q bs
      refine (transportTurn_of_writeStates hT hp hr).trans ?_
      rw [hbs']
      exact withDesc_of_absent hd
  case verify =>
    subst hq hans
    exact (transportTurn_verifying hs hp hr).trans (withDesc_of_absent hd)
  case failure =>
    subst hans
    exact ⟨_, transportTurn_of_sequence_busError hs hp hr, rfl⟩

end Sys2Proof.Machine
end

section
/-! SUPPORT. What a step can do when the controller's promises hold (10_state.md section 3, 60_exceptions.md rule R205): each agent's
step always answers, and every outcome is one of the moves listed once in `Move`. -/

namespace Sys2Proof.Safety

open Sys2Proof.Machine

theorem jobOf_iff {s : State} {d : EepromDescriptor} :
    JobOf s d ↔ s.desc = some d ∧ s.cmd = some (.eepromWrite d.reg d.newVal d.verify) ∧ inEeprom d.reg = true ∧
      d.prev = none ∧ d.delayMs = s.cfg.writeTimeMs :=
  ⟨fun ⟨hd, hc, hr, hp, ht⟩ => ⟨hd, hc, hr, hp, ht⟩, fun ⟨hd, hc, hr, hp, ht⟩ => ⟨hd, hc, hr, hp, ht⟩⟩

theorem JobOf.of_eq {s t : State} {d : EepromDescriptor} (h : JobOf s d) (hdesc : t.desc = s.desc) (hcmd : t.cmd = s.cmd)
    (hcfg : t.cfg = s.cfg) : JobOf t d := by
  rw [jobOf_iff] at h ⊢
  rwa [hdesc, hcmd, hcfg]

theorem JobOf.eq_of_desc {s : State} {d e : EepromDescriptor} (h : JobOf s d) (he : s.desc = some e) : d = e :=
  Option.some.inj (h.desc.symm.trans he)

end Sys2Proof.Safety

namespace Sys2Proof.Machine

open Sys2Proof.Safety

/-! ### The controller's promises, state by state -/

/-- `q` is the request that the command in progress makes in the controller's state. -/
def Asks (s : State) (q : BusRequest) : Prop :=
  match s.st with
  | .regAccess => ∃ i, s.cmd = some i ∧ accessRequest s.cfg.busAddress i = some q
  | .erasing => ∃ d, JobOf s d ∧ q = writeRequest s.cfg.busAddress d.reg eraseValue
  | .writing => ∃ d, JobOf s d ∧ q = writeRequest s.cfg.busAddress d.reg d.newVal
  | .verifying => ∃ d, JobOf s d ∧ d.verify = true ∧ q = readRequest s.cfg.busAddress d.reg
  | .idle | .awaitEraseDelay | .awaitWriteDelay | .done | .error => False

/-- The controller states in which the block makes a request (rule R26). -/
def CtrlState.requesting (S : CtrlState) : Prop := S = .regAccess ∨ S = .erasing ∨ S = .writing ∨ S = .verifying

theorem asks_regAccess {s : State} {q : BusRequest} (hs : s.st = .regAccess) :
    Asks s q ↔ ∃ i, s.cmd = some i ∧ accessRequest s.cfg.busAddress i = some q := by rw [Asks, hs]

theorem asks_erasing {s : State} {q : BusRequest} (hs : s.st = .erasing) :
    Asks s q ↔ ∃ d, JobOf s d ∧ q = writeRequest s.cfg.busAddress d.reg eraseValue := by rw [Asks, hs]

theorem asks_writing {s : State} {q : BusRequest} (hs : s.st = .writing) :
    Asks s q ↔ ∃ d, JobOf s d ∧ q = writeRequest s.cfg.busAddress d.reg d.newVal := by rw [Asks, hs]

theorem asks_verifying {s : State} {q : BusRequest} (hs : s.st = .verifying) :
    Asks s q ↔ ∃ d, JobOf s d ∧ d.verify = true ∧ q = readRequest s.cfg.busAddress d.reg := by rw [Asks, hs]

theorem Asks.requesting {s : State} {q : BusRequest} (h : Asks s q) : s.st.requesting := by
  unfold Asks at h
  split at h
  case h_1 hs => exact .inl hs
  case h_2 hs => exact .inr (.inl hs)
  case h_3 hs => exact .inr (.inr (.inl hs))
  case h_4 hs => exact .inr (.inr (.inr hs))
  all_goals exact h.elim

theorem Asks.of_eq {s t : State} {q : BusRequest} (h : Asks s q) (hst : t.st = s.st) (hdesc : t.desc = s.desc)
    (hcmd : t.cmd = s.cmd) (hcfg : t.cfg = s.cfg) : Asks t q := by
  simp only [Asks, jobOf_iff] at h ⊢
  rwa [hst, hdesc, hcmd, hcfg]

/-- The requests of register access: one of the two frames, its register checked. -/
theorem accessRequest_eq_some {a : BusAddr} {i : Instr} {q : BusRequest} (h : accessRequest a i = some q) :
    (∃ reg chk, i = .readWord reg chk ∧ validReg .readWord reg = true ∧ q = readRequest a reg) ∨
      ∃ reg val chk, i = .writeWord reg val chk ∧ validReg .writeWord reg = true ∧ q = writeRequest a reg val := by
  cases i with
  | readWord reg chk =>
    obtain ⟨hreg, hq⟩ := Option.ite_none_right_eq_some.1 h
    exact .inl ⟨reg, chk, rfl, hreg, (Option.some.inj hq).symm⟩
  | writeWord reg val chk =>
    obtain ⟨hreg, hq⟩ := Option.ite_none_right_eq_some.1 h
    exact .inr ⟨reg, val, chk, rfl, hreg, (Option.some.inj hq).symm⟩
  | computePec | verifyPec | eepromWrite => cases h

theorem Asks.legalRequest {s : State} {q : BusRequest} (h : Asks s q) : LegalRequest s.cfg.busAddress q := by
  have hjob {d : EepromDescriptor} (hd : JobOf s d) : (inEeprom d.reg || inRam d.reg) = true := by simp [hd.reg]
  rcases h.requesting with hs | hs | hs | hs
  · obtain ⟨i, -, hi⟩ := (asks_regAccess hs).1 h
    rcases accessRequest_eq_some hi with ⟨reg, chk, -, hreg, rfl⟩ | ⟨reg, val, chk, -, hreg, rfl⟩
    · exact ⟨reg, hreg, .inl rfl⟩
    · exact ⟨reg, hreg, .inr ⟨val, rfl⟩⟩
  · obtain ⟨d, hd, rfl⟩ := (asks_erasing hs).1 h
    exact ⟨d.reg, hjob hd, .inr ⟨_, rfl⟩⟩
  · obtain ⟨d, hd, rfl⟩ := (asks_writing hs).1 h
    exact ⟨d.reg, hjob hd, .inr ⟨_, rfl⟩⟩
  · obtain ⟨d, hd, -, rfl⟩ := (asks_verifying hs).1 h
    exact ⟨d.reg, hjob hd, .inl rfl⟩

theorem Asks.cmd_ne_none {s : State} {q : BusRequest} (h : Asks s q) : s.cmd ≠ none := by
  have hjob {d : EepromDescriptor} (hd : JobOf s d) : s.cmd ≠ none := by simp [hd.cmd]
  rcases h.requesting with hs | hs | hs | hs
  · obtain ⟨i, hi, -⟩ := (asks_regAccess hs).1 h
    simp [hi]
  · obtain ⟨d, hd, -⟩ := (asks_erasing hs).1 h
    exact hjob hd
  · obtain ⟨d, hd, -⟩ := (asks_writing hs).1 h
    exact hjob hd
  · obtain ⟨d, hd, -⟩ := (asks_verifying hs).1 h
    exact hjob hd

/-- In a requesting state the promise is the state's own request, outstanding or not yet made. -/
theorem ctrlInv_requesting_iff {s : State} (hs : s.st.requesting) :
    CtrlInv s ↔ s.tmrArmed = false ∧ ∃ q, Asks s q ∧ (s.pending = none ∨ s.pending = some q) := by
  rcases hs with hs | hs | hs | hs
  · simp only [CtrlInv, Asks, hs]
    constructor
    · rintro ⟨ht, i, q, hi, hq, hp⟩
      exact ⟨ht, q, ⟨i, hi, hq⟩, hp⟩
    · rintro ⟨ht, q, ⟨i, hi, hq⟩, hp⟩
      exact ⟨ht, i, q, hi, hq, hp⟩
  · simp only [CtrlInv, Asks, hs, Requesting]
    constructor
    · rintro ⟨ht, d, hd, hp⟩
      exact ⟨ht, _, ⟨d, hd, rfl⟩, hp⟩
    · rintro ⟨ht, q, ⟨d, hd, rfl⟩, hp⟩
      exact ⟨ht, d, hd, hp⟩
  · simp only [CtrlInv, Asks, hs, Requesting]
    constructor
    · rintro ⟨ht, d, hd, hp⟩
      exact ⟨ht, _, ⟨d, hd, rfl⟩, hp⟩
    · rintro ⟨ht, q, ⟨d, hd, rfl⟩, hp⟩
      exact ⟨ht, d, hd, hp⟩
  · simp only [CtrlInv, Asks, hs, Requesting]
    constructor
    · rintro ⟨⟨ht, d, hd, hp⟩, hv⟩
      exact ⟨ht, _, ⟨d, hd, hv d hd.desc, rfl⟩, hp⟩
    · rintro ⟨ht, q, ⟨d, hd, hv, rfl⟩, hp⟩
      refine ⟨⟨ht, d, hd, hp⟩, fun e he => ?_⟩
      rwa [← hd.eq_of_desc he]

theorem ctrlInv_inDelay_iff {s : State} (hs : InDelay s) : CtrlInv s ↔ Waiting s := by
  rcases hs with hs | hs <;> rw [CtrlInv, hs]

theorem ctrlInv_idle_iff {s : State} (hs : s.st = .idle) : CtrlInv s ↔ NoLiveEvent s := by rw [CtrlInv, hs]

theorem ctrlInv_done_iff {s : State} (hs : s.st = .done) :
    CtrlInv s ↔ NoLiveEvent s ∧ s.cmd ≠ none ∧ ∃ r, s.res = some r ∧ r.status = .ok := by rw [CtrlInv, hs]

theorem ctrlInv_error_iff {s : State} (hs : s.st = .error) :
    CtrlInv s ↔ NoLiveEvent s ∧ s.cmd ≠ none ∧ ∃ r, s.res = some r ∧ r.status ≠ .ok := by rw [CtrlInv, hs]

theorem noLiveEvent_of_quiet {s : State} (h : CtrlInv s) (hq : s.st.quiet = true) : NoLiveEvent s := by
  rcases CtrlState.quiet_iff.1 hq with hs | hs | hs
  · exact (ctrlInv_idle_iff hs).1 h
  · exact ((ctrlInv_done_iff hs).1 h).1
  · exact ((ctrlInv_error_iff hs).1 h).1

/-- Every controller state is quiet, makes a request or waits. -/
theorem CtrlState.quiet_or_requesting_or_inDelay (s : State) : s.st.quiet = true ∨ s.st.requesting ∨ InDelay s := by
  unfold CtrlState.requesting InDelay
  cases s.st <;> decide

theorem ctrlInv_of_asks {s : State} {q : BusRequest} (h : Asks s q) (ht : s.tmrArmed = false)
    (hp : s.pending = none ∨ s.pending = some q) : CtrlInv s :=
  (ctrlInv_requesting_iff h.requesting).2 ⟨ht, q, h, hp⟩

/-- What is outstanding is the state's own request, and the timer is not armed beside it (rule R205). -/
theorem asks_of_pending {s : State} {q : BusRequest} (h : CtrlInv s) (hp : s.pending = some q) :
    Asks s q ∧ s.tmrArmed = false := by
  rcases CtrlState.quiet_or_requesting_or_inDelay s with hs | hs | hs
  · simp [(noLiveEvent_of_quiet h hs).1] at hp
  · obtain ⟨ht, q', hq', hp'⟩ := (ctrlInv_requesting_iff hs).1 h
    rcases hp' with hnone | hsome
    · simp [hnone] at hp
    · obtain rfl : q' = q := Option.some.inj (hsome.symm.trans hp)
      exact ⟨hq', ht⟩
  · simp [((ctrlInv_inDelay_iff hs).1 h).1] at hp

/-- An armed timer means a delay state. -/
theorem inDelay_of_armed {s : State} (h : CtrlInv s) (ha : s.tmrArmed = true) : InDelay s := by
  rcases CtrlState.quiet_or_requesting_or_inDelay s with hs | hs | hs
  · simp [(noLiveEvent_of_quiet h hs).2] at ha
  · simp [((ctrlInv_requesting_iff hs).1 h).1] at ha
  · exact hs

/-- The inputs, the device and the refused mark are no part of the promise. -/
theorem BlockKept.ctrlInv {s t : State} (h : BlockKept s t) (hc : CtrlInv s) : CtrlInv t := by
  obtain ⟨turns, acts, replies, mark, dev, rfl⟩ := h
  simpa only [CtrlInv, Requesting, Waiting, NoLiveEvent, jobOf_iff] using hc

/-! ### The moves -/

/-- The receive buffer `x` after an answer: as it was, or filled with `READ_LEN` bytes (rule R31). -/
def RxFilled (s : State) (x : Option (List Byte)) : Prop := x = s.rx ∨ ∃ bs, x = some bs ∧ bs.length = Config.readLen

/-- An answer on which an EEPROM sequence ends in `Error`: to a write an error, to the verify read anything but the new value with
its PEC (rules R163, R167 and R169). -/
def FailingAnswer (s : State) (r : BusAnswer) : Prop :=
  (s.st = .erasing ∨ s.st = .writing → ∃ e, r = .busError e) ∧
    (s.st = .verifying → ∀ d, s.desc = some d → r ≠ verifyingAnswerOf s.cfg.busAddress d)

/-- What a step can do to a block that keeps the controller's promises. -/
inductive Move (s : State) : State → Prop
  | stay : Move s s
  | construct (cfg : BlockConfig) (hq : s.st.quiet = true) :
    Move s { State.constructed cfg with
      resultLog := s.resultLog, turns := s.turns, hostIn := s.hostIn, replies := s.replies, sim := s.sim }
  | take (r : Result) (hs : s.st.ended = true) (hr : s.res = some r) :
    Move s { s with st := .idle, resultLog := s.resultLog ++ [r] }
  | accept (i : Instr) (s' : State) (h : Acceptance s i s') : Move s s'
  | issue (q : BusRequest) (c : Byte) (hq : Asks s q) (hp : s.pending = none) (ht : s.tmrArmed = false) :
    Move s (({ s with crc := c } : State).issue q)
  | delay (q : BusRequest) (d : EepromDescriptor) (T : CtrlState) (hT : WriteStates s.st T) (hq : Asks s q)
    (hp : s.pending = some q) (hd : JobOf s d) : Move s ((s.receive q (.ok [])).startWait T d.delayMs)
  | readWord (reg l h p c : Byte) (chk : Bool) (x : Option (List Byte)) (hs : s.st = .regAccess)
    (hc : s.cmd = some (.readWord reg chk)) (hp : s.pending = some (readRequest s.cfg.busAddress reg)) (hx : RxFilled s x)
    (hpec : chk = true → p = pec8 (readCovered s.cfg.busAddress reg l h)) :
    Move s (({ s.receive (readRequest s.cfg.busAddress reg) (.ok [l, h, p]) with crc := c, rx := x } : State).finish
      (.ofValue (word l h)))
  | writeWord (reg : Byte) (val : Word) (chk : Bool) (hs : s.st = .regAccess) (hc : s.cmd = some (.writeWord reg val chk))
    (hp : s.pending = some (writeRequest s.cfg.busAddress reg val)) :
    Move s ((s.receive (writeRequest s.cfg.busAddress reg val) (.ok [])).finish .success)
  | verified (d : EepromDescriptor) (c : Byte) (x : Option (List Byte)) (hs : s.st = .verifying) (hd : JobOf s d)
    (hv : d.verify = true) (hp : s.pending = some (readRequest s.cfg.busAddress d.reg)) (hx : RxFilled s x) :
    Move s (({ s.receive (readRequest s.cfg.busAddress d.reg) (verifyingAnswerOf s.cfg.busAddress d) with
      crc := c, rx := x } : State).finish .success)
  | failed (q : BusRequest) (r : BusAnswer) (c : Byte) (x : Option (List Byte)) (E : BlockError) (hq : Asks s q)
    (hp : s.pending = some q) (hr : FailingAnswer s r) (hx : RxFilled s x)
    (hE : ∀ w, E = .eepromVerify w → s.st = .verifying) :
    Move s (({ s.receive q r with crc := c, rx := x } : State).raise E)
  | eraseElapsed (hs : s.st = .awaitEraseDelay) (hw : Waiting s) : Move s { s.endWait with st := .writing }
  | writeElapsed (d : EepromDescriptor) (hs : s.st = .awaitWriteDelay) (hw : Waiting s) (hd : JobOf s d)
    (hv : d.verify = true) : Move s { s.endWait with st := .verifying }
  | finished (d : EepromDescriptor) (hs : s.st = .awaitWriteDelay) (hw : Waiting s) (hd : JobOf s d)
    (hv : d.verify = false) : Move s (finishOk s.endWait)

/-! ### The host -/

theorem hostAct_move {a : HostInput} {s s' : State} (h : hostAct a s = .next s') : ∃ t, BlockKept s t ∧ Move t s' := by
  have hmark : ∃ t, BlockKept s t ∧ Move t s.markRefused := ⟨_, ⟨_, _, _, _, _, rfl⟩, .stay⟩
  cases a with
  | command w data =>
    rcases issueCommand_cases w data s with ⟨i, -, hi⟩ | ⟨e, -, hi⟩
    · exact ⟨s, .refl s, .accept i s' (acceptance_of_exec (hi.symm.trans h))⟩
    · cases hi.symm.trans h
      exact hmark
  | readResult =>
    obtain ⟨rfl, -⟩ := hostRead_next h
    exact ⟨_, .refl _, .stay⟩
  | takeResult =>
    rcases takeResult_next h with ⟨hs, r, hr, rfl⟩ | ⟨-, rfl⟩
    · exact ⟨s, .refl s, .take r hs hr⟩
    · exact hmark
  | construct addr ms =>
    rcases reconstruct_cases addr ms s with ⟨cfg, -, hq, hr⟩ | hr
    · cases hr.symm.trans h
      exact ⟨s, .refl s, .construct cfg hq⟩
    · cases hr.symm.trans h
      exact hmark

/-! ### The block -/

/-- With nothing outstanding the block's turn makes the state's own request. -/
theorem blockTurn_of_asks {s : State} {q : BusRequest} (h : Asks s q) (hp : s.pending = none) :
    ∃ c, blockTurn s = .next (({ s with crc := c } : State).issue q) := by
  rcases h.requesting with hs | hs | hs | hs
  · obtain ⟨i, hc, hi⟩ := (asks_regAccess hs).1 h
    rcases accessRequest_eq_some hi with ⟨reg, chk, rfl, -, rfl⟩ | ⟨reg, val, chk, rfl, -, rfl⟩
    · exact ⟨s.crc, blockTurn_regAccess_readWord hp hs hc⟩
    · exact ⟨_, blockTurn_regAccess_writeWord hp hs hc⟩
  · obtain ⟨d, hd, rfl⟩ := (asks_erasing hs).1 h
    exact ⟨_, blockTurn_erasing hp hs hd.desc⟩
  · obtain ⟨d, hd, rfl⟩ := (asks_writing hs).1 h
    exact ⟨_, blockTurn_writing hp hs hd.desc⟩
  · obtain ⟨d, hd, -, rfl⟩ := (asks_verifying hs).1 h
    exact ⟨s.crc, blockTurn_verifying hp hs hd.desc⟩

theorem blockTurn_of_pending {s : State} {q : BusRequest} (hp : s.pending = some q) : blockTurn s = .next s := by
  rw [blockTurn, hp]

theorem blockTurn_move {s : State} (h : CtrlInv s) : ∃ s', blockTurn s = .next s' ∧ Move s s' := by
  rcases CtrlState.quiet_or_requesting_or_inDelay s with hs | hs | hs
  · exact ⟨s, blockTurn_of_quiet hs (noLiveEvent_of_quiet h hs).1, .stay⟩
  · obtain ⟨ht, q, hq, hp | hp⟩ := (ctrlInv_requesting_iff hs).1 h
    · obtain ⟨c, hturn⟩ := blockTurn_of_asks hq hp
      exact ⟨_, hturn, .issue q c hq hp ht⟩
    · exact ⟨s, blockTurn_of_pending hp, .stay⟩
  · exact ⟨s, blockTurn_of_inDelay hs, .stay⟩

/-! ### The transport -/

theorem BusAnswer.fit_write (a : BusAddr) (r : Byte) (v : Word) (ans : BusAnswer) :
    ans.fit (writeRequest a r v) = .ok [] ∨ ∃ e, ans.fit (writeRequest a r v) = .busError e := by
  cases ans with
  | ok bs => exact .inl rfl
  | busError e => exact .inr ⟨e, rfl⟩

theorem BusAnswer.fit_read (a : BusAddr) (r : Byte) (ans : BusAnswer) : ans.fit (readRequest a r) = ans := by
  cases ans <;> rfl

theorem Reply.answer_fit (rep : Reply) (q : BusRequest) (sim : Option Device) :
    ∃ ans : BusAnswer, (rep.answer q sim).1 = ans.fit q := by
  cases rep with
  | given r => exact ⟨r, rfl⟩
  | device draw => cases sim <;> exact ⟨_, rfl⟩

theorem FailingAnswer.of_regAccess {s : State} (hs : s.st = .regAccess) (r : BusAnswer) : FailingAnswer s r := by
  simp [FailingAnswer, hs]

/-- How READ_WORD ends: with the word of three bytes, whose PEC is right if the check is on, or in an error that is no verify
error. -/
theorem readWordAnswer_next {reg : Byte} {chk : Bool} {r : BusAnswer} {s s' : State}
    (h : readWordAnswer reg chk r s = .next s') :
    ∃ c x, RxFilled s x ∧
      ((∃ l h p, r = .ok [l, h, p] ∧ (chk = true → p = pec8 (readCovered s.cfg.busAddress reg l h)) ∧
          s' = ({ s with crc := c, rx := x } : State).finish (.ofValue (word l h))) ∨
        ∃ E, (∀ w, E ≠ .eepromVerify w) ∧ s' = ({ s with crc := c, rx := x } : State).raise E) := by
  unfold readWordAnswer at h
  split at h <;> cases h <;> rename_i ho <;> obtain ⟨c, x, rfl, hx⟩ := raReadOutcome_state ho
  · obtain ⟨l, h, p, rfl, rfl, hpec⟩ := raReadOutcome_ok ho
    exact ⟨c, x, hx, .inl ⟨l, h, p, rfl, fun hchk => (hpec hchk).symm, rfl⟩⟩
  · exact ⟨c, x, hx, .inr ⟨.busError _, fun _ => nofun, rfl⟩⟩
  · exact ⟨c, x, hx, .inr ⟨.pecMismatch, fun _ => nofun, rfl⟩⟩

theorem readWordAnswer_answers (reg : Byte) (chk : Bool) (r : BusAnswer) (s : State) :
    ∃ s', readWordAnswer reg chk r s = .next s' := by
  unfold readWordAnswer
  split <;> exact ⟨_, rfl⟩

theorem ok_eq_verifyingAnswerOf_iff {a : BusAddr} {d : EepromDescriptor} {l h p : Byte} :
    .ok [l, h, p] = verifyingAnswerOf a d ↔ word l h = d.newVal ∧ p = pec8 (readCovered a d.reg l h) := by
  simp only [verifyingAnswerOf, BusAnswer.ok.injEq, List.cons.injEq, and_true]
  constructor
  · rintro ⟨rfl, rfl, rfl⟩
    exact ⟨word_lo8_hi8 _, rfl⟩
  · rintro ⟨hw, rfl⟩
    rw [← hw, lo8_word, hi8_word]
    exact ⟨rfl, rfl, rfl⟩

/-- How the verify read ends: well on the one good answer, and on every other in an error. -/
theorem verifyingAnswer_move {d : EepromDescriptor} {r : BusAnswer} {s : State} (hd : s.desc = some d) :
    ∃ c x s', RxFilled s x ∧ verifyingAnswer r s = .next s' ∧
      ((r = verifyingAnswerOf s.cfg.busAddress d ∧ s' = ({ s with crc := c, rx := x } : State).finish .success) ∨
        (r ≠ verifyingAnswerOf s.cfg.busAddress d ∧ ∃ E, s' = ({ s with crc := c, rx := x } : State).raise E)) := by
  rcases readFailure_cases r with ⟨e, he, -⟩ | ⟨-, l, h, p, rfl⟩
  · refine ⟨s.crc, s.rx, s.raise (.busError e), .inl rfl, by rw [verifyingAnswer, he], .inr ⟨?_, _, rfl⟩⟩
    rintro rfl
    cases he
  · have hend := verifyingAnswer_threeBytes hd l h p
    refine ⟨pec8 (readCovered s.cfg.busAddress d.reg l h), some [l, h, p], _, .inr ⟨_, rfl, rfl⟩, hend, ?_⟩
    have hgood := ok_eq_verifyingAnswerOf_iff (a := s.cfg.busAddress) (d := d) (l := l) (h := h) (p := p)
    by_cases hpec : pec8 (readCovered s.cfg.busAddress d.reg l h) = p
    · by_cases hword : word l h = d.newVal
      · exact .inl ⟨hgood.2 ⟨hword, hpec.symm⟩, by simp [hpec, hword, State.withRead, State.runPec, finishOk]⟩
      · exact .inr ⟨fun heq => hword (hgood.1 heq).1, .eepromVerify (word l h),
          by simp [hpec, hword, State.withRead, State.runPec]⟩
    · exact .inr ⟨fun heq => hpec (hgood.1 heq).2.symm, .pecMismatch, by simp [hpec, State.withRead, State.runPec]⟩

/-- A write of the sequence is answered: the delay follows on `Ok`, the end on an error. -/
theorem sequenceWriteAnswer_move {s : State} {d : EepromDescriptor} {T : CtrlState} {q : BusRequest} {v : Word}
    {ans : BusAnswer} (hT : WriteStates s.st T) (hd : JobOf s d) (hv : q = writeRequest s.cfg.busAddress d.reg v)
    (hq : Asks s q) (hp : s.pending = some q) :
    ∃ s', sequenceWriteAnswer T (ans.fit q) (s.receive q (ans.fit q)) = .next s' ∧ Move s s' := by
  rcases BusAnswer.fit_write s.cfg.busAddress d.reg v ans with hok | ⟨e, he⟩ <;> rw [← hv] at *
  · rw [hok]
    exact ⟨_, sequenceWriteAnswer_ok (s := s.receive q (.ok [])) hd.desc [], .delay _ d T hT hq hp hd⟩
  · rw [he]
    have hnot : s.st ≠ .verifying := by rcases hT with ⟨hs, -⟩ | ⟨hs, -⟩ <;> simp [hs]
    exact ⟨_, rfl, .failed _ _ s.crc s.rx _ hq hp ⟨fun _ => ⟨e, rfl⟩, fun hs => absurd hs hnot⟩ (.inl rfl) fun _ => nofun⟩

/-- The block's reaction to the answer of its outstanding request. -/
theorem blockAnswer_move {s : State} {q : BusRequest} (h : CtrlInv s) (hp : s.pending = some q) (ans : BusAnswer) :
    ∃ s', blockAnswer (ans.fit q) (s.receive q (ans.fit q)) = .next s' ∧ Move s s' := by
  obtain ⟨hq, -⟩ := asks_of_pending h hp
  rcases hq.requesting with hs | hs | hs | hs <;> simp only [blockAnswer, State.receive_st, hs]
  · obtain ⟨i, hc, hi⟩ := (asks_regAccess hs).1 hq
    simp only [regAccessAnswer, State.receive_cmd, hc]
    rcases accessRequest_eq_some hi with ⟨reg, chk, rfl, -, rfl⟩ | ⟨reg, val, chk, rfl, -, rfl⟩
    · rw [BusAnswer.fit_read]
      obtain ⟨s', hs'⟩ := readWordAnswer_answers reg chk ans (s.receive (readRequest s.cfg.busAddress reg) ans)
      refine ⟨s', hs', ?_⟩
      obtain ⟨c, x, hx, ⟨l, h, p, rfl, hpec, rfl⟩ | ⟨E, hE, rfl⟩⟩ := readWordAnswer_next hs'
      · exact .readWord reg l h p c chk x hs hc hp hx hpec
      · exact .failed _ _ c x E hq hp (.of_regAccess hs _) hx fun w hw => absurd hw (hE w)
    · rcases BusAnswer.fit_write s.cfg.busAddress reg val ans with hok | ⟨e, he⟩
      · rw [hok]
        exact ⟨_, rfl, .writeWord reg val chk hs hc hp⟩
      · rw [he]
        exact ⟨_, rfl, .failed _ _ s.crc s.rx _ hq hp (.of_regAccess hs _) (.inl rfl) fun _ => nofun⟩
  · obtain ⟨d, hd, rfl⟩ := (asks_erasing hs).1 hq
    exact sequenceWriteAnswer_move (.inl ⟨hs, rfl⟩) hd rfl hq hp
  · obtain ⟨d, hd, rfl⟩ := (asks_writing hs).1 hq
    exact sequenceWriteAnswer_move (.inr ⟨hs, rfl⟩) hd rfl hq hp
  · obtain ⟨d, hd, hv, rfl⟩ := (asks_verifying hs).1 hq
    rw [BusAnswer.fit_read]
    obtain ⟨c, x, s', hx, hs', ⟨hgood, rfl⟩ | ⟨hne, E, rfl⟩⟩ :=
      verifyingAnswer_move (r := ans) (s := s.receive (readRequest s.cfg.busAddress d.reg) ans) hd.desc
    · obtain rfl : ans = verifyingAnswerOf s.cfg.busAddress d := hgood
      exact ⟨_, hs', .verified d c x hs hd hv hp hx⟩
    · refine ⟨_, hs', .failed _ ans c x E hq hp ⟨fun hw => ?_, fun _ e he => ?_⟩ hx fun _ _ => hs⟩
      · simp [hs] at hw
      · rwa [← hd.eq_of_desc he]

theorem transportTurn_move {s : State} (h : CtrlInv s) :
    ∃ t s', BlockKept s t ∧ transportTurn s = .next s' ∧ Move t s' := by
  rcases transportTurn_cases s with ⟨ht, -⟩ | ⟨q, rep, rest, hp, -, ht⟩
  · exact ⟨s, s, .refl s, ht, .stay⟩
  · obtain ⟨ans, hans⟩ := rep.answer_fit q s.sim
    have hkept : BlockKept s { s with replies := rest, sim := (rep.answer q s.sim).2 } := ⟨_, _, _, _, _, rfl⟩
    obtain ⟨s', hs', hmove⟩ := blockAnswer_move (hkept.ctrlInv h) hp ans
    exact ⟨_, s', hkept, by rw [ht, hans, hs'], hmove⟩

/-! ### The timer -/

theorem timerTurn_move {s : State} (h : CtrlInv s) : ∃ t s', BlockKept s t ∧ timerTurn s = .next s' ∧ Move t s' := by
  cases ha : s.tmrArmed with
  | false => exact ⟨s, s, .refl s, timerTurn_of_unarmed ha, .stay⟩
  | true =>
    have hdelay := inDelay_of_armed h ha
    have hkept : BlockKept s { s with sim := s.sim.map fun d => d.advance s.elapsedMs } := ⟨_, _, _, _, _, rfl⟩
    have hw := (ctrlInv_inDelay_iff (s := { s with sim := s.sim.map fun d => d.advance s.elapsedMs }) hdelay).1
      (hkept.ctrlInv h)
    rcases hdelay with hs | hs
    · exact ⟨_, _, hkept, timerTurn_awaitEraseDelay hs ha, .eraseElapsed hs hw⟩
    · have ⟨_, _, d, hd, _⟩ := hw
      have hturn := timerTurn_awaitWriteDelay (d := d) hs ha hd.desc
      cases hv : d.verify with
      | true => exact ⟨_, _, hkept, hturn.trans (congrArg _ (if_pos hv)), .writeElapsed d hs hw hd hv⟩
      | false => exact ⟨_, _, hkept, hturn.trans (congrArg _ (if_neg (by simp [hv]))), .finished d hs hw hd hv⟩

/-! ### Every step is a move -/

theorem BlockKept.trans {s t u : State} (h : BlockKept s t) (h' : BlockKept t u) : BlockKept s u := by
  obtain ⟨_, _, _, _, _, rfl⟩ := h
  obtain ⟨_, _, _, _, _, rfl⟩ := h'
  exact ⟨_, _, _, _, _, rfl⟩

/-- Every agent but the host always answers. -/
theorem agentTurn_move {turn : Turn} {s : State} (h : CtrlInv s) (hturn : turn ≠ .host) :
    ∃ t s', BlockKept s t ∧ agentTurn turn s = .next s' ∧ Move t s' := by
  cases turn with
  | host => exact absurd rfl hturn
  | block =>
    obtain ⟨s', hs', hmove⟩ := blockTurn_move h
    exact ⟨s, s', .refl s, hs', hmove⟩
  | transport => exact transportTurn_move h
  | timer => exact timerTurn_move h
  | tick ms | disturb r w stops => exact ⟨_, _, ⟨_, _, _, _, _, rfl⟩, rfl, .stay⟩

theorem hostTurn_move {s s' : State} (h : hostTurn s = .next s') : ∃ t, BlockKept s t ∧ Move t s' := by
  rcases hostTurn_next h with ⟨-, rfl⟩ | ⟨a, rest, -, ha⟩
  · exact ⟨_, .refl _, .stay⟩
  · obtain ⟨t, hkept, hmove⟩ := hostAct_move ha
    exact ⟨t, .trans ⟨_, _, _, _, _, rfl⟩ hkept, hmove⟩

/-- A step of a block that keeps the controller's promises is a move, after the inputs, the device and the mark have changed. -/
theorem step_move {s s' : State} (hctrl : CtrlInv s) (h : step s = .next s') : ∃ t, BlockKept s t ∧ Move t s' := by
  rcases step_next_turn h with rfl | ⟨turn, rest, -, hturn⟩
  · exact ⟨_, .refl _, .stay⟩
  · have hrest : BlockKept s { s with turns := rest } := ⟨_, _, _, _, _, rfl⟩
    by_cases hhost : turn = .host
    · subst hhost
      obtain ⟨t, hkept, hmove⟩ := hostTurn_move hturn
      exact ⟨t, hrest.trans hkept, hmove⟩
    · obtain ⟨t, u, hkept, hu, hmove⟩ := agentTurn_move (hrest.ctrlInv hctrl) hhost
      cases hu.symm.trans hturn
      exact ⟨t, hrest.trans hkept, hmove⟩

/-- A host act that gives no next state is the read of an absent result. -/
theorem hostAct_answers {a : HostInput} {s : State} (h : Inv s) :
    (∃ s', hostAct a s = .next s') ∨ (hostAct a s = .fault .resAbsent ∧ s.res = none ∧ a = .readResult) := by
  have hread (hres : s.res ≠ none) : ∃ r, readableResult s = .ok r := by
    obtain ⟨r, hr⟩ := Option.ne_none_iff_exists'.1 hres
    exact ⟨r, readableResult_of_readable hr (isReserved_of_legal (h.res r hr))⟩
  cases a with
  | command w data =>
    rcases issueCommand_cases w data s with ⟨i, -, hi⟩ | ⟨e, -, hi⟩
    · obtain ⟨s', hs'⟩ := exec_answers i s
      exact .inl ⟨s', hi.trans hs'⟩
    · exact .inl ⟨_, hi⟩
  | readResult =>
    by_cases hres : s.res = none
    · exact .inr ⟨hostRead_of_res_absent hres, hres, rfl⟩
    · obtain ⟨r, hr⟩ := hread hres
      exact .inl ⟨s, hostRead_of_readable hr⟩
  | takeResult =>
    cases hended : s.st.ended with
    | false => exact .inl ⟨_, takeResult_of_not_ended hended⟩
    | true =>
      have hres : s.res ≠ none := by
        rcases CtrlState.ended_iff.1 hended with hs | hs
        · obtain ⟨-, -, r, hr, -⟩ := (ctrlInv_done_iff hs).1 h.ctrl
          simp [hr]
        · obtain ⟨-, -, r, hr, -⟩ := (ctrlInv_error_iff hs).1 h.ctrl
          simp [hr]
      obtain ⟨r, hr⟩ := hread hres
      exact .inl ⟨_, takeResult_of_readable hended hr⟩
  | construct addr ms =>
    rcases reconstruct_cases addr ms s with ⟨cfg, -, -, hr⟩ | hr <;> exact .inl ⟨_, hr⟩

end Sys2Proof.Machine
end

section
/-! SUPPORT. The invariant `Inv` (10_state.md sections 3 and 4, 20_memory.md section 2): its part about the records, by the state's
operations, then its part about the controller, by the moves. -/

namespace Sys2Proof.Machine

open Sys2Proof.Safety

/-! ### Results -/

theorem plainOk_legal {r : Result} (hstatus : r.status = .ok) (hfailed : r.failedState = none)
    (hind : r.indeterminate = false) (hbus : r.busInfo = none) : ResultLegal r where
  status := by simp [hstatus, writtenStatuses]
  indeterminate := by simp [hind, hfailed]
  failedState := by simp [hfailed]
  busInfo := by simp [hbus, hstatus]
  value _ := .inl hstatus
  verify h := by simp [hstatus] at h
  pec _ := hstatus
  pecMatch _ := hstatus

theorem failedStateOf_eq_some_iff {op : Option Op} {S S' : CtrlState} :
    failedStateOf op S = some S' ↔ (op = some .eepromWrite ∧ S.isEepromRequest = true) ∧ S = S' := by
  simp [failedStateOf]

theorem BlockError.status_ne_ok (E : BlockError) : E.status ≠ .ok := by cases E <;> nofun

/-- The result of an error is legal when a verify error names its state (rule R201). -/
theorem ofError_legal {E : BlockError} {op : Option Op} {S : CtrlState}
    (hE : ∀ w, E = .eepromVerify w → failedStateOf op S = some .verifying) : ResultLegal (Result.ofError E op S) where
  status := by cases E <;> simp [Result.ofError, BlockError.status, writtenStatuses]
  indeterminate := rfl
  failedState S' hS' := by
    obtain ⟨⟨-, hreq⟩, rfl⟩ := failedStateOf_eq_some_iff.1 hS'
    exact ⟨hreq, E.status_ne_ok⟩
  busInfo := by cases E <;> simp [Result.ofError, BlockError.status, BlockError.busInfo]
  value := by cases E <;> simp [Result.ofError, BlockError.status, BlockError.value]
  verify := by
    cases E with
    | eepromVerify w => exact fun _ => ⟨rfl, hE w rfl⟩
    | busError | pecMismatch | invalidRegister => nofun
  pec := nofun
  pecMatch := nofun

/-! ### The history -/

theorem historyPhase_concat {h : List BusEvent} {p : Phase} (hp : historyPhase h = some p) (e : BusEvent) :
    historyPhase (h ++ [e]) = p.next e := by
  rw [historyPhase] at hp
  simp [historyPhase, hp]

theorem livePhase_of_pending {s : State} {q : BusRequest} (hp : s.pending = some q) : livePhase s = .asking q := by
  rw [livePhase, hp]

theorem livePhase_of_armed {s : State} (hp : s.pending = none) (ha : s.tmrArmed = true) : livePhase s = .waiting := by
  simp [livePhase, hp, ha]

theorem livePhase_of_noLiveEvent {s : State} (h : NoLiveEvent s) : livePhase s = .quiet := by
  simp [livePhase, h.1, h.2]

/-! ### The records -/

/-- The part of `Inv` about results, the receive buffer and the history. -/
structure RecordInv (s : State) : Prop where
  res : ∀ r, s.res = some r → ResultLegal r
  log : ∀ r, r ∈ s.resultLog → ResultLegal r
  rx : ∀ bs, s.rx = some bs → bs.length = Config.readLen
  hist : historyPhase s.hist = some (livePhase s)
  bus : ∀ q, BusEvent.issue q ∈ s.hist → LegalRequest s.cfg.busAddress q

theorem inv_iff {s : State} : Inv s ↔ CtrlInv s ∧ RecordInv s :=
  ⟨fun ⟨hctrl, hres, hlog, hrx, hhist, hbus⟩ => ⟨hctrl, hres, hlog, hrx, hhist, hbus⟩,
    fun ⟨hctrl, hres, hlog, hrx, hhist, hbus⟩ => ⟨hctrl, hres, hlog, hrx, hhist, hbus⟩⟩

theorem bus_concat {a : BusAddr} {h : List BusEvent} {e : BusEvent}
    (hbus : ∀ q, BusEvent.issue q ∈ h → LegalRequest a q) (he : ∀ q, e = .issue q → LegalRequest a q) (q : BusRequest)
    (hq : BusEvent.issue q ∈ h ++ [e]) : LegalRequest a q := by
  rcases List.mem_append.1 hq with hq | hq
  · exact hbus q hq
  · exact he q (List.mem_singleton.1 hq).symm

theorem RecordInv.issue {s : State} {q : BusRequest} (h : RecordInv s) (hlive : NoLiveEvent s)
    (hq : LegalRequest s.cfg.busAddress q) : RecordInv (s.issue q) where
  res := h.res
  log := h.log
  rx := h.rx
  hist := by
    rw [State.issue_hist, historyPhase_concat h.hist, livePhase_of_noLiveEvent hlive,
      livePhase_of_pending (State.issue_pending s q)]
    rfl
  bus := bus_concat h.bus fun q' hq' => by cases hq'; exact hq

theorem RecordInv.receive {s : State} {q : BusRequest} (h : RecordInv s) (hp : s.pending = some q)
    (ht : s.tmrArmed = false) (r : BusAnswer) : RecordInv (s.receive q r) where
  res := h.res
  log := h.log
  rx := h.rx
  hist := by
    rw [State.receive_hist, historyPhase_concat h.hist, livePhase_of_pending hp,
      livePhase_of_noLiveEvent (s := s.receive q r) ⟨rfl, ht⟩]
    exact if_pos rfl
  bus := bus_concat h.bus nofun

theorem RecordInv.startWait {s : State} (h : RecordInv s) (hlive : NoLiveEvent s) (S : CtrlState) (t : Millis) :
    RecordInv (s.startWait S t) where
  res := h.res
  log := h.log
  rx := h.rx
  hist := by
    rw [State.startWait_hist, historyPhase_concat h.hist, livePhase_of_noLiveEvent hlive,
      livePhase_of_armed (s := s.startWait S t) hlive.1 rfl]
    rfl
  bus := bus_concat h.bus nofun

theorem RecordInv.endWait {s : State} (h : RecordInv s) (hp : s.pending = none) (ha : s.tmrArmed = true) :
    RecordInv s.endWait where
  res := h.res
  log := h.log
  rx := h.rx
  hist := by
    rw [State.endWait_hist, historyPhase_concat h.hist, livePhase_of_armed hp ha,
      livePhase_of_noLiveEvent (s := s.endWait) ⟨hp, rfl⟩]
    rfl
  bus := bus_concat h.bus nofun

theorem RecordInv.read {s : State} (h : RecordInv s) (c : Byte) {x : Option (List Byte)}
    (hx : RxFilled s x) : RecordInv { s with crc := c, rx := x } := by
  refine ⟨h.res, h.log, fun bs hbs => ?_, h.hist, h.bus⟩
  rcases hx with rfl | ⟨bs', rfl, hlen⟩
  · exact h.rx bs hbs
  · rwa [← Option.some.inj hbs]

theorem RecordInv.finish {s : State} (h : RecordInv s) {r : Result} (hr : ResultLegal r) : RecordInv (s.finish r) :=
  ⟨fun _ hr' => Option.some.inj hr' ▸ hr, h.log, h.rx, h.hist, h.bus⟩

theorem RecordInv.raise {s : State} (h : RecordInv s) (hlive : NoLiveEvent s) {E : BlockError}
    (hE : ∀ w, E = .eepromVerify w → failedStateOf (s.cmd.map Instr.op) s.st = some .verifying) :
    RecordInv (s.raise E) where
  res r hr := Option.some.inj hr ▸ ofError_legal hE
  log := h.log
  rx := h.rx
  hist := by
    rw [State.raise_hist, h.hist, livePhase_of_noLiveEvent hlive,
      livePhase_of_noLiveEvent (s := s.raise E) ⟨rfl, rfl⟩]
  bus := h.bus

theorem RecordInv.constructed (cfg : BlockConfig) : RecordInv (State.constructed cfg) where
  res := by simp [State.constructed]
  log := by simp [State.constructed]
  rx := by simp [State.constructed]
  hist := rfl
  bus := by simp [State.constructed]

theorem ctrlInv_constructed (cfg : BlockConfig) : CtrlInv (State.constructed cfg) := ⟨rfl, rfl⟩

theorem inv_constructed (cfg : BlockConfig) : Inv (State.constructed cfg) :=
  inv_iff.2 ⟨ctrlInv_constructed cfg, .constructed cfg⟩

/-- Settles O37: nothing is live, recorded or received yet. -/
theorem constructedBlockMeetsTheInvariant : Obligations.ConstructedBlockMeetsTheInvariant :=
  ⟨fun cfg => ⟨inv_constructed cfg, trivial⟩, inv_constructed _, trivial⟩

/-! ### The moves keep the invariant -/

theorem noLiveEvent_of_idle {s : State} (h : CtrlInv s) (hs : s.st = .idle) : NoLiveEvent s := (ctrlInv_idle_iff hs).1 h

theorem Acceptance.ctrlInv {i : Instr} {s s' : State} (hctrl : CtrlInv s) (h : Acceptance s i s') : CtrlInv s' := by
  cases h with
  | refused => exact BlockKept.ctrlInv ⟨_, _, _, _, _, rfl⟩ hctrl
  | computePec data hs | verifyPec data rcv hs =>
    have hlive := noLiveEvent_of_idle hctrl hs
    exact (ctrlInv_done_iff rfl).2 ⟨hlive, nofun, _, rfl, rfl⟩
  | access i q hs hq =>
    obtain ⟨hp, ht⟩ := noLiveEvent_of_idle hctrl hs
    exact ctrlInv_of_asks ((asks_regAccess rfl).2 ⟨i, rfl, hq⟩) ht (.inl hp)
  | erase reg val verify hs hreg =>
    obtain ⟨hp, ht⟩ := noLiveEvent_of_idle hctrl hs
    exact ctrlInv_of_asks ((asks_erasing rfl).2 ⟨_, ⟨rfl, rfl, hreg, rfl, rfl⟩, rfl⟩) ht (.inl hp)
  | illegal => exact (ctrlInv_error_iff rfl).2 ⟨⟨rfl, rfl⟩, nofun, _, rfl, nofun⟩

theorem Acceptance.recordInv {i : Instr} {s s' : State} (hctrl : CtrlInv s) (hrec : RecordInv s)
    (h : Acceptance s i s') : RecordInv s' := by
  obtain ⟨hres, hlog, hrx, hhist, hbus⟩ := hrec
  cases h with
  | refused | access | erase => exact ⟨hres, hlog, hrx, hhist, hbus⟩
  | computePec | verifyPec =>
    exact ⟨fun r hr => Option.some.inj hr ▸ plainOk_legal rfl rfl rfl rfl, hlog, hrx, hhist, hbus⟩
  | illegal i hs =>
    have hlive := noLiveEvent_of_idle hctrl hs
    rw [← raise_invalidRegister_of_idle (reg := 0) hs]
    exact RecordInv.raise (s := { s with cmd := some i }) ⟨hres, hlog, hrx, hhist, hbus⟩ hlive fun _ => nofun

theorem Move.ctrlInv {s s' : State} (h : CtrlInv s) (hm : Move s s') : CtrlInv s' := by
  cases hm with
  | stay => exact h
  | construct cfg => exact (ctrlInv_idle_iff rfl).2 ⟨rfl, rfl⟩
  | take r hs =>
    have hlive := noLiveEvent_of_quiet h (CtrlState.quiet_iff.2 (.inr (CtrlState.ended_iff.1 hs)))
    exact (ctrlInv_idle_iff rfl).2 hlive
  | accept i _ ha => exact ha.ctrlInv h
  | issue q c hq hp ht => exact ctrlInv_of_asks (hq.of_eq rfl rfl rfl rfl) ht (.inr rfl)
  | delay q d T hT hq hp hd =>
    have hdelay : InDelay ((s.receive q (.ok [])).startWait T d.delayMs) := hT.imp And.right And.right
    exact (ctrlInv_inDelay_iff hdelay).2 ⟨rfl, rfl, d, hd.of_eq rfl rfl rfl, rfl⟩
  | readWord reg l h' p c chk x hs hc hp =>
    obtain ⟨hq, ht⟩ := asks_of_pending h hp
    exact (ctrlInv_done_iff rfl).2 ⟨⟨rfl, ht⟩, hq.cmd_ne_none, _, rfl, rfl⟩
  | writeWord reg val chk hs hc hp =>
    obtain ⟨hq, ht⟩ := asks_of_pending h hp
    exact (ctrlInv_done_iff rfl).2 ⟨⟨rfl, ht⟩, hq.cmd_ne_none, _, rfl, rfl⟩
  | verified d c x hs hd hv hp =>
    obtain ⟨hq, ht⟩ := asks_of_pending h hp
    exact (ctrlInv_done_iff rfl).2 ⟨⟨rfl, ht⟩, hq.cmd_ne_none, _, rfl, rfl⟩
  | failed q r c x E hq => exact (ctrlInv_error_iff rfl).2 ⟨⟨rfl, rfl⟩, hq.cmd_ne_none, _, rfl, E.status_ne_ok⟩
  | eraseElapsed hs hw =>
    obtain ⟨hp, -, d, hd, -⟩ := hw
    exact ctrlInv_of_asks ((asks_writing rfl).2 ⟨d, hd.of_eq rfl rfl rfl, rfl⟩) rfl (.inl hp)
  | writeElapsed d hs hw hd hv =>
    exact ctrlInv_of_asks ((asks_verifying rfl).2 ⟨d, hd.of_eq rfl rfl rfl, hv, rfl⟩) rfl (.inl hw.1)
  | finished d hs hw hd =>
    exact (ctrlInv_done_iff rfl).2 ⟨⟨hw.1, rfl⟩, by simp [finishOk, hd.cmd], _, rfl, rfl⟩

theorem failedStateOf_verifying {s : State} {q : BusRequest} (hq : Asks s q) (hs : s.st = .verifying) :
    failedStateOf (s.cmd.map Instr.op) s.st = some .verifying := by
  obtain ⟨d, hd, -⟩ := (asks_verifying hs).1 hq
  exact failedStateOf_eq_some_iff.2 ⟨⟨by rw [hd.cmd]; rfl, by rw [hs]; rfl⟩, hs⟩

theorem Move.recordInv {s s' : State} (hctrl : CtrlInv s) (h : RecordInv s) (hm : Move s s') : RecordInv s' := by
  have hreceive {q : BusRequest} (r : BusAnswer) (hp : s.pending = some q) : RecordInv (s.receive q r) :=
    h.receive hp (asks_of_pending hctrl hp).2 r
  have hlive {q : BusRequest} (r : BusAnswer) (hp : s.pending = some q) : NoLiveEvent (s.receive q r) :=
    ⟨rfl, (asks_of_pending hctrl hp).2⟩
  cases hm with
  | stay => exact h
  | construct cfg =>
    obtain ⟨hres, -, hrx, hhist, hbus⟩ := RecordInv.constructed cfg
    exact ⟨hres, h.log, hrx, hhist, hbus⟩
  | take r hs hr =>
    refine ⟨h.res, fun r' hr' => ?_, h.rx, h.hist, h.bus⟩
    rcases List.mem_append.1 hr' with hr' | hr'
    · exact h.log r' hr'
    · exact h.res r' (hr.trans (congrArg some (List.mem_singleton.1 hr').symm))
  | accept i _ ha => exact ha.recordInv hctrl h
  | issue q c hq hp ht =>
    exact RecordInv.issue (s := { s with crc := c }) ⟨h.res, h.log, h.rx, h.hist, h.bus⟩ ⟨hp, ht⟩ hq.legalRequest
  | delay q d T hT hq hp => exact (hreceive _ hp).startWait (hlive _ hp) T d.delayMs
  | readWord reg l h' p c chk x hs hc hp hx =>
    exact ((hreceive (.ok [l, h', p]) hp).read c hx).finish (plainOk_legal rfl rfl rfl rfl)
  | writeWord reg val chk hs hc hp => exact (hreceive _ hp).finish (plainOk_legal rfl rfl rfl rfl)
  | verified d c x hs hd hv hp hx => exact ((hreceive _ hp).read c hx).finish (plainOk_legal rfl rfl rfl rfl)
  | failed q r c x E hq hp hr hx hE =>
    have hfailed (w : Word) (hw : E = .eepromVerify w) := failedStateOf_verifying hq (hE w hw)
    exact ((hreceive r hp).read c hx).raise (hlive r hp) hfailed
  | eraseElapsed hs hw | writeElapsed d hs hw =>
    obtain ⟨hres, hlog, hrx, hhist, hbus⟩ := h.endWait hw.1 hw.2.1
    exact ⟨hres, hlog, hrx, hhist, hbus⟩
  | finished d hs hw => exact (h.endWait hw.1 hw.2.1).finish (plainOk_legal rfl rfl rfl rfl)

theorem BlockKept.inv {s t : State} (hk : BlockKept s t) (h : Inv s) : Inv t := by
  obtain ⟨-, hres, hlog, hrx, hhist, hbus⟩ := id h
  have hctrl := hk.ctrlInv h.ctrl
  obtain ⟨turns, acts, replies, mark, dev, rfl⟩ := hk
  exact ⟨hctrl, hres, hlog, hrx, hhist, hbus⟩

theorem Move.inv {s s' : State} (h : Inv s) (hm : Move s s') : Inv s' :=
  inv_iff.2 ⟨hm.ctrlInv h.ctrl, hm.recordInv h.ctrl (inv_iff.1 h).2⟩

/-- Settles O38: a step is a move, and every move keeps both parts of the invariant. -/
theorem everyStepKeepsTheInvariant : Obligations.EveryStepKeepsTheInvariant := by
  intro s s' h hstep
  obtain ⟨t, hkept, hmove⟩ := step_move h.ctrl hstep
  exact hmove.inv (hkept.inv h)

theorem hostTurn_answers {s : State} (h : Inv s) :
    (∃ s', hostTurn s = .next s') ∨
      (hostTurn s = .fault .resAbsent ∧ s.res = none ∧ s.hostIn.head? = some .readResult) := by
  cases hin : s.hostIn with
  | nil => exact .inl ⟨s, by rw [hostTurn, hin]⟩
  | cons a rest =>
    rw [hostTurn_cons hin]
    rcases hostAct_answers (a := a) (BlockKept.inv (t := { s with hostIn := rest }) ⟨_, _, _, _, _, rfl⟩ h) with
      hnext | ⟨hfault, hres, rfl⟩
    · exact .inl hnext
    · exact .inr ⟨hfault, hres, rfl⟩

/-- Settles O39: the block, the transport, the timer and the device's environment always answer, and of the host's acts only a read of
an absent result does not. -/
theorem onlyAnAbsentResultReadFaults : Obligations.OnlyAnAbsentResultReadFaults := by
  intro s h
  rcases step_cases s with hs | ⟨turn, rest, hs, -⟩ <;> rw [hs]
  · exact .inl ⟨s, rfl⟩
  have hrest : Inv { s with turns := rest } := BlockKept.inv ⟨_, _, _, _, _, rfl⟩ h
  by_cases hhost : turn = .host
  · subst hhost
    exact hostTurn_answers hrest
  · obtain ⟨t, u, -, hu, -⟩ := agentTurn_move hrest.ctrl hhost
    exact .inl ⟨u, hu⟩

end Sys2Proof.Machine
end

section
/-! SUPPORT. The trace of a command (42_eeprom_writer.md section 3, 41_register_access.md section 4): what the history ends with in
each controller state, and that each move adds to it what it adds to the history. -/

namespace Sys2Proof.Machine

open Sys2Proof.Safety

theorem traceInv_regAccess_iff {s : State} (hs : s.st = .regAccess) :
    TraceInv s ↔ outstanding s.pending <:+ s.hist := by rw [TraceInv, hs]

theorem traceInv_erasing_iff {s : State} (hs : s.st = .erasing) :
    TraceInv s ↔ outstanding s.pending <:+ s.hist := by rw [TraceInv, hs]

theorem traceInv_awaitEraseDelay_iff {s : State} (hs : s.st = .awaitEraseDelay) :
    TraceInv s ↔ ∃ d, JobOf s d ∧
      asked (writeRequest s.cfg.busAddress d.reg eraseValue) (.ok []) ++ [.waitStart d.delayMs] <:+ s.hist := by
  rw [TraceInv, hs]

theorem traceInv_writing_iff {s : State} (hs : s.st = .writing) :
    TraceInv s ↔ ∃ d, JobOf s d ∧ throughErase s.cfg.busAddress d ++ outstanding s.pending <:+ s.hist := by
  rw [TraceInv, hs]

theorem traceInv_awaitWriteDelay_iff {s : State} (hs : s.st = .awaitWriteDelay) :
    TraceInv s ↔ ∃ d, JobOf s d ∧
      throughErase s.cfg.busAddress d ++ asked (writeRequest s.cfg.busAddress d.reg d.newVal) (.ok []) ++
        [.waitStart d.delayMs] <:+ s.hist := by
  rw [TraceInv, hs]

theorem traceInv_verifying_iff {s : State} (hs : s.st = .verifying) :
    TraceInv s ↔ ∃ d, JobOf s d ∧ throughWrite s.cfg.busAddress d ++ outstanding s.pending <:+ s.hist := by
  rw [TraceInv, hs]

theorem traceInv_done_iff {s : State} (hs : s.st = .done) : TraceInv s ↔ DoneTrace s := by rw [TraceInv, hs]

theorem traceInv_error_iff {s : State} (hs : s.st = .error) :
    TraceInv s ↔ ∀ r S, s.res = some r → r.failedState = some S → FailedTrace s S := by rw [TraceInv, hs]

theorem traceInv_of_idle {s : State} (hs : s.st = .idle) : TraceInv s := by simp [TraceInv, hs]

theorem BlockKept.traceInv {s t : State} (h : BlockKept s t) (htrace : TraceInv s) : TraceInv t := by
  obtain ⟨turns, acts, replies, mark, dev, rfl⟩ := h
  simpa only [TraceInv, DoneTrace, FailedTrace, jobOf_iff] using htrace

theorem doneTrace_readWord_iff {s : State} {reg : Byte} {chk : Bool} (hc : s.cmd = some (.readWord reg chk)) :
    DoneTrace s ↔ ∃ l h p, asked (readRequest s.cfg.busAddress reg) (.ok [l, h, p]) <:+ s.hist ∧
      s.res = some (Result.ofValue (word l h)) ∧ (chk = true → p = pec8 (readCovered s.cfg.busAddress reg l h)) := by
  rw [DoneTrace, hc]

theorem doneTrace_writeWord_iff {s : State} {reg : Byte} {val : Word} {chk : Bool}
    (hc : s.cmd = some (.writeWord reg val chk)) :
    DoneTrace s ↔ asked (writeRequest s.cfg.busAddress reg val) (.ok []) <:+ s.hist := by
  rw [DoneTrace, hc]

theorem doneTrace_of_job {s : State} {d : EepromDescriptor} (hd : JobOf s d)
    (h : eepromHistory s.cfg.busAddress d <:+ s.hist) : DoneTrace s := by
  rw [DoneTrace, hd.cmd]
  exact ⟨d, hd, h⟩

/-! ### The history grows with the trace -/

/-- An answer joins the outstanding request at the end of the trace. -/
theorem suffix_asked {a h : List BusEvent} {q : BusRequest} (hs : a ++ [.issue q] <:+ h) (r : BusAnswer) :
    a ++ asked q r <:+ h ++ [.answer q r] := by
  have happend : a ++ [.issue q] ++ [.answer q r] <:+ h ++ [.answer q r] := List.suffix_append_self_iff.2 hs
  rwa [List.append_assoc] at happend

/-- The end of a wait joins its beginning. -/
theorem suffix_waited {a h : List BusEvent} {t : Millis} (hs : a ++ [.waitStart t] <:+ h) :
    a ++ waited t <:+ h ++ [.waitEnd] := by
  have happend : a ++ [.waitStart t] ++ [.waitEnd] <:+ h ++ [.waitEnd] := List.suffix_append_self_iff.2 hs
  rwa [List.append_assoc] at happend

/-- The outstanding request of register access or of an erase ends the history. -/
theorem issue_suffix_of_first {s : State} {q : BusRequest} (h : TraceInv s) (hs : s.st = .regAccess ∨ s.st = .erasing)
    (hp : s.pending = some q) : [.issue q] <:+ s.hist := by
  have htrace : outstanding s.pending <:+ s.hist :=
    hs.elim (fun hs => (traceInv_regAccess_iff hs).1 h) fun hs => (traceInv_erasing_iff hs).1 h
  rwa [hp] at htrace

theorem issue_suffix_of_writing {s : State} {d : EepromDescriptor} {q : BusRequest} (h : TraceInv s)
    (hs : s.st = .writing) (hd : JobOf s d) (hp : s.pending = some q) :
    throughErase s.cfg.busAddress d ++ [.issue q] <:+ s.hist := by
  obtain ⟨e, he, htrace⟩ := (traceInv_writing_iff hs).1 h
  rwa [he.eq_of_desc hd.desc, hp] at htrace

theorem issue_suffix_of_verifying {s : State} {d : EepromDescriptor} {q : BusRequest} (h : TraceInv s)
    (hs : s.st = .verifying) (hd : JobOf s d) (hp : s.pending = some q) :
    throughWrite s.cfg.busAddress d ++ [.issue q] <:+ s.hist := by
  obtain ⟨e, he, htrace⟩ := (traceInv_verifying_iff hs).1 h
  rwa [he.eq_of_desc hd.desc, hp] at htrace

/-! ### The moves -/

theorem Acceptance.traceInv {i : Instr} {s s' : State} (hctrl : CtrlInv s) (htrace : TraceInv s)
    (h : Acceptance s i s') : TraceInv s' := by
  cases h with
  | refused => exact BlockKept.traceInv ⟨_, _, _, _, _, rfl⟩ htrace
  | computePec | verifyPec => exact trivial
  | access i q hs =>
    refine (traceInv_regAccess_iff rfl).2 ?_
    simp [(noLiveEvent_of_idle hctrl hs).1, outstanding]
  | erase reg val verify hs =>
    refine (traceInv_erasing_iff rfl).2 ?_
    simp [(noLiveEvent_of_idle hctrl hs).1, outstanding]
  | illegal =>
    refine (traceInv_error_iff rfl).2 fun r S hr hS => ?_
    cases hr
    cases hS

/-- A request issued ends the history, after what the command has caused before it. -/
theorem issue_traceInv {s : State} {q : BusRequest} {c : Byte} (h : TraceInv s) (hq : Asks s q) (hp : s.pending = none) :
    TraceInv (({ s with crc := c } : State).issue q) := by
  let t := ({ s with crc := c } : State).issue q
  rcases hq.requesting with hs | hs | hs | hs
  · exact (traceInv_regAccess_iff (s := t) hs).2 (List.suffix_append _ _)
  · exact (traceInv_erasing_iff (s := t) hs).2 (List.suffix_append _ _)
  · obtain ⟨d, hd, htrace⟩ := (traceInv_writing_iff hs).1 h
    rw [hp, outstanding, List.append_nil] at htrace
    exact (traceInv_writing_iff (s := t) hs).2 ⟨d, hd.of_eq rfl rfl rfl, List.suffix_append_self_iff.2 htrace⟩
  · obtain ⟨d, hd, htrace⟩ := (traceInv_verifying_iff hs).1 h
    rw [hp, outstanding, List.append_nil] at htrace
    exact (traceInv_verifying_iff (s := t) hs).2 ⟨d, hd.of_eq rfl rfl rfl, List.suffix_append_self_iff.2 htrace⟩

/-- A delay begins: the write and its `Ok` stand before its start. -/
theorem delay_traceInv {s : State} {q : BusRequest} {d : EepromDescriptor} {T : CtrlState} (h : TraceInv s)
    (hT : WriteStates s.st T) (hq : Asks s q) (hp : s.pending = some q) (hd : JobOf s d) :
    TraceInv ((s.receive q (.ok [])).startWait T d.delayMs) := by
  have hd' : JobOf ((s.receive q (.ok [])).startWait T d.delayMs) d := hd.of_eq rfl rfl rfl
  rcases hT with ⟨hs, rfl⟩ | ⟨hs, rfl⟩
  · obtain ⟨e, he, rfl⟩ := (asks_erasing hs).1 hq
    obtain rfl := he.eq_of_desc hd.desc
    have hasked := suffix_asked (a := []) (issue_suffix_of_first h (.inr hs) hp) (.ok [])
    exact (traceInv_awaitEraseDelay_iff rfl).2 ⟨e, hd', List.suffix_append_self_iff.2 hasked⟩
  · obtain ⟨e, he, rfl⟩ := (asks_writing hs).1 hq
    obtain rfl := he.eq_of_desc hd.desc
    have hasked := suffix_asked (issue_suffix_of_writing h hs hd hp) (.ok [])
    exact (traceInv_awaitWriteDelay_iff rfl).2 ⟨e, hd', List.suffix_append_self_iff.2 hasked⟩

/-- A sequence that ends in an error has caused what stands before its request, the request and the failing answer. -/
theorem failed_trace {s s' : State} {q : BusRequest} {r : BusAnswer} (h : TraceInv s) (hq : Asks s q)
    (hp : s.pending = some q) (hr : FailingAnswer s r) (hS : s.st.isEepromRequest = true) (hdesc : s'.desc = s.desc)
    (hcmd : s'.cmd = s.cmd) (hcfg : s'.cfg = s.cfg) (hhist : s'.hist = s.hist ++ [.answer q r]) : FailedTrace s' s.st := by
  rcases CtrlState.isEepromRequest_iff.1 hS with hs | hs | hs <;> simp only [FailedTrace, hs, hcfg, hhist]
  · obtain ⟨d, hd, rfl⟩ := (asks_erasing hs).1 hq
    obtain ⟨e, rfl⟩ := hr.1 (.inl hs)
    exact ⟨d, hd.of_eq hdesc hcmd hcfg, e, suffix_asked (a := []) (issue_suffix_of_first h (.inr hs) hp) _⟩
  · obtain ⟨d, hd, rfl⟩ := (asks_writing hs).1 hq
    obtain ⟨e, rfl⟩ := hr.1 (.inr hs)
    exact ⟨d, hd.of_eq hdesc hcmd hcfg, e, suffix_asked (issue_suffix_of_writing h hs hd hp) _⟩
  · obtain ⟨d, hd, -, rfl⟩ := (asks_verifying hs).1 hq
    exact ⟨d, hd.of_eq hdesc hcmd hcfg, r, hr.2 hs d hd.desc, suffix_asked (issue_suffix_of_verifying h hs hd hp) _⟩

theorem Move.traceInv {s s' : State} (hctrl : CtrlInv s) (h : TraceInv s) (hm : Move s s') : TraceInv s' := by
  cases hm with
  | stay => exact h
  | construct | take => exact traceInv_of_idle rfl
  | accept i _ ha => exact ha.traceInv hctrl h
  | issue q c hq hp => exact issue_traceInv h hq hp
  | delay q d T hT hq hp hd => exact delay_traceInv h hT hq hp hd
  | readWord reg l h' p c chk x hs hc hp hx hpec =>
    have hasked := suffix_asked (a := []) (issue_suffix_of_first h (.inl hs) hp) (.ok [l, h', p])
    refine (traceInv_done_iff rfl).2 ((doneTrace_readWord_iff ?_).2 ⟨l, h', p, hasked, rfl, hpec⟩)
    exact hc
  | writeWord reg val chk hs hc hp =>
    have hasked := suffix_asked (a := []) (issue_suffix_of_first h (.inl hs) hp) (.ok [])
    refine (traceInv_done_iff rfl).2 ((doneTrace_writeWord_iff (chk := chk) ?_).2 hasked)
    exact hc
  | verified d c x hs hd hv hp =>
    have hasked := suffix_asked (issue_suffix_of_verifying h hs hd hp) (verifyingAnswerOf s.cfg.busAddress d)
    refine (traceInv_done_iff rfl).2 (doneTrace_of_job (hd.of_eq rfl rfl rfl) ?_)
    rw [eepromHistory, if_pos hv]
    exact hasked
  | failed q r c x E hq hp hr =>
    refine (traceInv_error_iff rfl).2 fun res S hres hS => ?_
    cases hres
    obtain ⟨⟨-, hreq⟩, rfl⟩ := failedStateOf_eq_some_iff.1 hS
    exact failed_trace (s := s) h hq hp hr hreq rfl rfl rfl rfl
  | eraseElapsed hs hw =>
    obtain ⟨d, hd, htrace⟩ := (traceInv_awaitEraseDelay_iff hs).1 h
    refine (traceInv_writing_iff rfl).2 ⟨d, hd.of_eq rfl rfl rfl, ?_⟩
    have hwaited : throughErase s.cfg.busAddress d <:+ s.hist ++ [.waitEnd] := suffix_waited htrace
    simpa [hw.1, outstanding] using hwaited
  | writeElapsed d hs hw hd hv =>
    obtain ⟨e, he, htrace⟩ := (traceInv_awaitWriteDelay_iff hs).1 h
    refine (traceInv_verifying_iff rfl).2 ⟨e, he.of_eq rfl rfl rfl, ?_⟩
    have hwaited : throughWrite s.cfg.busAddress e <:+ s.hist ++ [.waitEnd] := suffix_waited htrace
    simpa [hw.1, outstanding] using hwaited
  | finished d hs hw hd hv =>
    obtain ⟨e, he, htrace⟩ := (traceInv_awaitWriteDelay_iff hs).1 h
    obtain rfl := he.eq_of_desc hd.desc
    refine (traceInv_done_iff rfl).2 (doneTrace_of_job (hd.of_eq rfl rfl rfl) ?_)
    rw [eepromHistory, if_neg (by simp [hv])]
    exact suffix_waited htrace

/-- Settles O29: a step is a move, and every move keeps the trace. -/
theorem everyStepKeepsTheCommandTrace : Obligations.EveryStepKeepsTheCommandTrace := by
  intro s s' h htrace hstep
  obtain ⟨t, hkept, hmove⟩ := step_move h.ctrl hstep
  exact hmove.traceInv (hkept.ctrlInv h.ctrl) (hkept.traceInv htrace)

end Sys2Proof.Machine
end

section
/-! SUPPORT. What no step depends on: the device model, when the answer is given (20_memory.md section 7), and WRITE_WORD's check flag
(41_register_access.md section 3). -/

namespace Sys2Proof.Machine

open Sys2Proof.Safety

/-! ### The device model -/

/-- The state with another device attached, or none. -/
def State.withSim (s : State) (x : Option Device) : State := { s with sim := x }

@[simp] theorem State.withSim_st (s : State) (x : Option Device) : (s.withSim x).st = s.st := rfl
@[simp] theorem State.withSim_cmd (s : State) (x : Option Device) : (s.withSim x).cmd = s.cmd := rfl
@[simp] theorem State.withSim_desc (s : State) (x : Option Device) : (s.withSim x).desc = s.desc := rfl
@[simp] theorem State.withSim_pending (s : State) (x : Option Device) : (s.withSim x).pending = s.pending := rfl
@[simp] theorem State.withSim_tmrArmed (s : State) (x : Option Device) : (s.withSim x).tmrArmed = s.tmrArmed := rfl
@[simp] theorem State.withSim_turns (s : State) (x : Option Device) : (s.withSim x).turns = s.turns := rfl
@[simp] theorem State.withSim_hostIn (s : State) (x : Option Device) : (s.withSim x).hostIn = s.hostIn := rfl
@[simp] theorem State.withSim_replies (s : State) (x : Option Device) : (s.withSim x).replies = s.replies := rfl
@[simp] theorem State.withSim_sim (s : State) (x : Option Device) : (s.withSim x).sim = x := rfl

/-- An outcome with its next state changed. -/
def mapNext (f : State → State) : Out → Out
  | .next s => .next (f s)
  | .fault r => .fault r
  | .refused r => .refused r

/-- An operation neither reads nor writes the device. -/
def SimBlind (f : State → Out) : Prop := ∀ s x, f (s.withSim x) = mapNext (·.withSim x) (f s)

theorem withDesc_blind {go : EepromDescriptor → State → Out} (h : ∀ d, SimBlind (go d)) :
    SimBlind fun s => withDesc s fun d => go d s := by
  intro s x
  cases hd : s.desc with
  | none => simp only [withDesc, State.withSim_desc, hd, mapNext]
  | some d => simpa only [withDesc, State.withSim_desc, hd] using h d s x

theorem exec_blind (i : Instr) : SimBlind (exec i) := by
  intro s x
  by_cases hs : s.st = .idle
  · have hs' : (s.withSim x).st = .idle := hs
    cases i with
    | computePec data =>
      rw [exec_computePec_of_idle hs, exec_computePec_of_idle hs']
      rfl
    | verifyPec data rcv =>
      rw [exec_verifyPec_of_idle hs, exec_verifyPec_of_idle hs']
      rfl
    | readWord reg chk =>
      rw [exec_readWord_of_idle hs, exec_readWord_of_idle hs']
      split <;> rfl
    | writeWord reg val chk =>
      rw [exec_writeWord_of_idle hs, exec_writeWord_of_idle hs']
      split <;> rfl
    | eepromWrite reg val verify =>
      rw [exec_eepromWrite_of_idle hs, exec_eepromWrite_of_idle hs']
      split <;> rfl
  · rw [exec_of_not_idle hs, exec_of_not_idle (s := s.withSim x) hs]
    rfl

theorem readableResult_withSim (s : State) (x : Option Device) : readableResult (s.withSim x) = readableResult s := rfl

theorem hostAct_blind (a : HostInput) : SimBlind (hostAct a) := by
  intro s x
  cases a with
  | command w data =>
    cases hw : decode w data with
    | ok i =>
      rw [hostAct, hostAct, issueCommand_of_ok hw, issueCommand_of_ok hw]
      exact exec_blind i s x
    | error e =>
      rw [hostAct, hostAct, issueCommand_of_error hw, issueCommand_of_error hw]
      rfl
  | readResult =>
    rw [hostAct, hostAct, hostRead, hostRead, readableResult_withSim]
    cases readableResult s <;> rfl
  | takeResult =>
    rw [hostAct, hostAct, takeResult, takeResult, readableResult_withSim, State.withSim_st]
    cases s.st.ended <;> cases readableResult s <;> rfl
  | construct addr ms =>
    rw [hostAct, hostAct, reconstruct, reconstruct, State.withSim_st]
    cases configOfArgs addr ms <;> cases s.st.quiet <;> rfl

theorem hostTurn_blind : SimBlind hostTurn := by
  intro s x
  cases hin : s.hostIn with
  | nil => simp only [hostTurn, State.withSim_hostIn, hin, mapNext]
  | cons a rest =>
    rw [hostTurn_cons hin, hostTurn_cons (s := s.withSim x) hin]
    exact hostAct_blind a { s with hostIn := rest } x

/-! ### The block's requests -/

/-- An attached device notes the time of an `Issue`. -/
def notedIssue (x : Option Device) : Option Device := x.map fun d => { d with askedAt := d.now }

theorem regAccessIssue_withSim (s : State) (x : Option Device) :
    regAccessIssue (s.withSim x) = mapNext (·.withSim (notedIssue x)) (regAccessIssue s) := by
  rcases hc : s.cmd with _ | ⟨_ | _ | _ | _ | _⟩ <;> simp only [regAccessIssue, State.withSim_cmd, hc] <;> rfl

theorem withDesc_issue_withSim {f : EepromDescriptor → State → State}
    (h : ∀ d s x, f d (s.withSim x) = (f d s).withSim (notedIssue x)) (s : State) (x : Option Device) :
    (withDesc (s.withSim x) fun d => .next (f d (s.withSim x))) =
      mapNext (·.withSim (notedIssue x)) (withDesc s fun d => .next (f d s)) := by
  cases hd : s.desc with
  | none => simp only [withDesc, State.withSim_desc, hd, mapNext]
  | some d => simp only [withDesc, State.withSim_desc, hd, mapNext, h]

/-- The block's turn reads nothing of the device and at most notes the time of its `Issue` there. -/
theorem blockTurn_withSim (s : State) (x : Option Device) :
    ∃ y, blockTurn (s.withSim x) = mapNext (·.withSim y) (blockTurn s) := by
  cases hp : s.pending with
  | some q => exact ⟨x, by rw [blockTurn_of_pending hp, blockTurn_of_pending (s := s.withSim x) hp]; rfl⟩
  | none =>
    cases hs : s.st <;> simp only [blockTurn, State.withSim_pending, State.withSim_st, hp, hs]
    case regAccess => exact ⟨_, regAccessIssue_withSim s x⟩
    case erasing => exact ⟨_, withDesc_issue_withSim (f := fun d s => raWriteIssue d.reg eraseValue s) (fun _ _ _ => rfl) s x⟩
    case writing => exact ⟨_, withDesc_issue_withSim (f := fun d s => raWriteIssue d.reg d.newVal s) (fun _ _ _ => rfl) s x⟩
    case verifying => exact ⟨_, withDesc_issue_withSim (f := fun d s => raReadIssue d.reg s) (fun _ _ _ => rfl) s x⟩
    all_goals exact ⟨x, rfl⟩

/-! ### Answers -/

theorem raReadOutcome_withSim (reg : Byte) (chk : Bool) (r : BusAnswer) (s : State) (x : Option Device) :
    raReadOutcome reg chk r (s.withSim x) =
      ((raReadOutcome reg chk r s).1, (raReadOutcome reg chk r s).2.withSim x) := by
  unfold raReadOutcome
  split
  · rfl
  · split <;> rfl
  · rfl

theorem readWordAnswer_blind (reg : Byte) (chk : Bool) (r : BusAnswer) : SimBlind (readWordAnswer reg chk r) := by
  intro s x
  rw [readWordAnswer, readWordAnswer, raReadOutcome_withSim]
  rcases raReadOutcome reg chk r s with ⟨_ | _ | _, t⟩ <;> rfl

theorem writeWordAnswer_blind (r : BusAnswer) : SimBlind (writeWordAnswer r) := by
  intro s x
  cases r <;> rfl

theorem regAccessAnswer_blind (r : BusAnswer) : SimBlind (regAccessAnswer r) := by
  intro s x
  rcases hc : s.cmd with _ | ⟨_ | _ | _ | _ | _⟩ <;> simp only [regAccessAnswer, State.withSim_cmd, hc]
  case some.readWord => exact readWordAnswer_blind _ _ r s x
  case some.writeWord => exact writeWordAnswer_blind r s x
  all_goals rfl

theorem sequenceWriteAnswer_blind (T : CtrlState) (r : BusAnswer) : SimBlind (sequenceWriteAnswer T r) := by
  intro s x
  cases r with
  | ok bs => exact withDesc_blind (go := fun d s => .next (s.startWait T d.delayMs)) (fun _ _ _ => rfl) s x
  | busError e => rfl

theorem verifyingCompare_blind (d : EepromDescriptor) (r : BusAnswer) : SimBlind (verifyingCompare d r) := by
  intro s x
  rw [verifyingCompare, verifyingCompare, raReadOutcome_withSim]
  rcases raReadOutcome d.reg true r s with ⟨w | _ | _, t⟩
  · by_cases hw : w = d.newVal <;> simp only [hw] <;> rfl
  · rfl
  · rfl

theorem verifyingAnswer_blind (r : BusAnswer) : SimBlind (verifyingAnswer r) := by
  intro s x
  unfold verifyingAnswer
  split
  · rfl
  · exact withDesc_blind (fun d => verifyingCompare_blind d r) s x

theorem blockAnswer_blind (r : BusAnswer) : SimBlind (blockAnswer r) := by
  intro s x
  cases hs : s.st <;> simp only [blockAnswer, State.withSim_st, hs]
  case regAccess => exact regAccessAnswer_blind r s x
  case erasing => exact sequenceWriteAnswer_blind .awaitEraseDelay r s x
  case writing => exact sequenceWriteAnswer_blind .awaitWriteDelay r s x
  case verifying => exact verifyingAnswer_blind r s x
  all_goals rfl

theorem blockElapsed_blind : SimBlind blockElapsed := by
  intro s x
  cases hs : s.st <;> simp only [blockElapsed, State.withSim_st, hs]
  case awaitEraseDelay => rfl
  case awaitWriteDelay =>
    refine withDesc_blind (go := fun d s => if d.verify then .next { s with st := .verifying } else .next (finishOk s))
      (fun d s x => ?_) s x
    cases d.verify <;> rfl
  all_goals rfl

/-! ### Every step -/

/-- A given answer is the same whatever device is attached, and leaves it as it was. -/
theorem transportTurn_withSim {s : State} (hgiven : ∀ draw, s.replies.head? ≠ some (.device draw)) (x : Option Device) :
    transportTurn (s.withSim x) = mapNext (·.withSim x) (transportTurn s) := by
  cases hp : s.pending with
  | none =>
    rw [transportTurn_of_not_pending hp, transportTurn_of_not_pending (s := s.withSim x) hp]
    rfl
  | some q =>
    rcases hr : s.replies with _ | ⟨r | draw, rest⟩
    · simp only [transportTurn, State.withSim_pending, State.withSim_replies, hp, hr, mapNext]
    · rw [transportTurn_given hp hr, transportTurn_given (s := s.withSim x) hp hr]
      exact blockAnswer_blind (r.fit q) (s.answered q (r.fit q) rest) x
    · exact absurd (by rw [hr]; rfl) (hgiven draw)

theorem timerTurn_withSim (s : State) (x : Option Device) :
    ∃ y, timerTurn (s.withSim x) = mapNext (·.withSim y) (timerTurn s) := by
  cases ha : s.tmrArmed with
  | false =>
    rw [timerTurn_of_unarmed ha, timerTurn_of_unarmed (s := s.withSim x) ha]
    exact ⟨x, rfl⟩
  | true =>
    refine ⟨x.map fun d => d.advance s.elapsedMs, ?_⟩
    simp only [timerTurn, State.withSim_tmrArmed, ha, if_true]
    exact blockElapsed_blind s.elapsed (x.map fun d => d.advance s.elapsedMs)

theorem agentTurn_withSim {s : State} (hgiven : ∀ draw, s.replies.head? ≠ some (.device draw)) (turn : Turn)
    (x : Option Device) : ∃ y, agentTurn turn (s.withSim x) = mapNext (·.withSim y) (agentTurn turn s) := by
  cases turn with
  | host => exact ⟨x, hostTurn_blind s x⟩
  | block => exact blockTurn_withSim s x
  | transport => exact ⟨x, transportTurn_withSim hgiven x⟩
  | timer => exact timerTurn_withSim s x
  | tick ms => exact ⟨x.map fun d => d.advance ms, rfl⟩
  | disturb r w stops => exact ⟨x.map fun d => d.disturb r w stops, rfl⟩

theorem step_withSim {s : State} (hgiven : ∀ draw, s.replies.head? ≠ some (.device draw)) (x : Option Device) :
    ∃ y, step (s.withSim x) = mapNext (·.withSim y) (step s) := by
  rcases ht : s.turns with _ | ⟨turn, rest⟩
  · have hdefault : (s.withSim x).defaultTurn = s.defaultTurn := rfl
    cases hd : s.defaultTurn with
    | none => exact ⟨x, by simp only [step, State.withSim_turns, ht, hdefault, hd, mapNext]⟩
    | some turn =>
      simp only [step, State.withSim_turns, ht, hdefault, hd]
      exact agentTurn_withSim hgiven turn x
  · simp only [step, State.withSim_turns, ht]
    exact agentTurn_withSim (s := { s with turns := rest }) hgiven turn x

/-- Settles O41: no turn reads the device but the transport's with a reply of the device's own. -/
theorem blockDoesNotReadTheDeviceModel : Obligations.BlockDoesNotReadTheDeviceModel := by
  intro s t x hgiven h
  obtain ⟨y, hy⟩ := step_withSim hgiven x
  rw [h] at hy
  exact ⟨y, hy⟩

/-! ### WRITE_WORD's check flag -/

/-- The state with another command in `cmd`. -/
def State.withCmd (s : State) (i : Instr) : State := { s with cmd := some i }

theorem blockTurn_withCmd {s : State} {reg : Byte} {val : Word} {f : Bool} (g : Bool) (hs : s.st = .regAccess)
    (hc : s.cmd = some (.writeWord reg val f)) :
    blockTurn (s.withCmd (.writeWord reg val g)) = mapNext (·.withCmd (.writeWord reg val g)) (blockTurn s) := by
  cases hp : s.pending with
  | some q =>
    rw [blockTurn_of_pending hp, blockTurn_of_pending (s := s.withCmd _) hp]
    rfl
  | none =>
    rw [blockTurn_regAccess_writeWord hp hs hc, blockTurn_regAccess_writeWord (s := s.withCmd _) hp hs rfl]
    rfl

/-- `s` when the reply `rep` has answered its outstanding request `q`, and `rest` are the replies left. -/
def State.delivered (s : State) (q : BusRequest) (rep : Reply) (rest : List Reply) : State :=
  ({ s with replies := rest, sim := (rep.answer q s.sim).2 } : State).receive q (rep.answer q s.sim).1

theorem transportTurn_regAccess_writeWord {s : State} {q : BusRequest} {rep : Reply} {rest : List Reply} {reg : Byte}
    {val : Word} {f : Bool} (hp : s.pending = some q) (hr : s.replies = rep :: rest) (hs : s.st = .regAccess)
    (hc : s.cmd = some (.writeWord reg val f)) :
    transportTurn s = writeWordAnswer (rep.answer q s.sim).1 (s.delivered q rep rest) := by
  simp [transportTurn, hp, hr, blockAnswer, hs, regAccessAnswer, hc, State.delivered]

/-- An error's result names the operation, which the flag does not change. -/
theorem writeWordAnswer_withCmd {r : BusAnswer} {s : State} {reg : Byte} {val : Word} {f : Bool} (g : Bool)
    (hc : s.cmd = some (.writeWord reg val f)) :
    writeWordAnswer r (s.withCmd (.writeWord reg val g)) =
      mapNext (·.withCmd (.writeWord reg val g)) (writeWordAnswer r s) := by
  cases r with
  | ok bs => rfl
  | busError e => simp [writeWordAnswer, raWriteOutcome, mapNext, State.raise, State.withCmd, hc, Instr.op]

theorem transportTurn_withCmd {s : State} {reg : Byte} {val : Word} {f : Bool} (g : Bool) (hs : s.st = .regAccess)
    (hc : s.cmd = some (.writeWord reg val f)) :
    transportTurn (s.withCmd (.writeWord reg val g)) = mapNext (·.withCmd (.writeWord reg val g)) (transportTurn s) := by
  rcases hp : s.pending with _ | q
  · rw [transportTurn_of_not_pending hp, transportTurn_of_not_pending (s := s.withCmd _) hp]
    rfl
  rcases hr : s.replies with _ | ⟨rep, rest⟩
  · simp [transportTurn, State.withCmd, hp, hr, mapNext]
  · rw [transportTurn_regAccess_writeWord hp hr hs hc,
      transportTurn_regAccess_writeWord (s := s.withCmd _) hp hr hs rfl]
    exact writeWordAnswer_withCmd (s := s.delivered q rep rest) g hc

/-- Settles O42: the flag stands in `cmd`, and no step of WRITE_WORD reads it. -/
theorem writeWordFlagHasNoEffect : Obligations.WriteWordFlagHasNoEffect := by
  refine fun reg val f g => ⟨fun s t hs h => ?_, fun s t turn hturn hs hc h => ?_⟩
  · cases (exec_writeWord_of_idle hs).symm.trans h
    rw [exec_writeWord_of_idle hs]
    split <;> rfl
  · have hflag : agentTurn turn (s.withCmd (.writeWord reg val g)) =
        mapNext (·.withCmd (.writeWord reg val g)) (agentTurn turn s) := by
      rcases hturn with rfl | rfl
      · exact blockTurn_withCmd g hs hc
      · exact transportTurn_withCmd g hs hc
    rw [h] at hflag
    exact hflag

end Sys2Proof.Machine
end

section
/-! SUPPORT. The device model's write cycles (20_memory.md rules R69 to R71): what a stopped cycle, a quiet device and a cycle just
begun do as time passes. -/

namespace Sys2Proof.Machine

open Sys2Proof.Safety

/-! ### Settling -/

theorem Device.settledWord_getElem (d : Device) (k : Fin 16) : d.settle.eeprom[k] = d.settledWord k :=
  d.settle_eeprom_getElem k k.isLt

theorem Device.settledCycle_getElem (d : Device) (k : Fin 16) : d.settle.cycles[k] = d.settledCycle k :=
  d.settle_cycles_getElem k k.isLt

theorem Device.settledWord_eq_of_quiet {d : Device} (h : DutyQuiet d) (k : Fin 16) : d.settledWord k = d.eeprom[k] := by
  rw [← d.settledWord_getElem, h.2]

theorem Device.settledWord_settle (d : Device) (k : Fin 16) : d.settle.settledWord k = d.settledWord k := by
  unfold settledWord
  rw [settledCycle_getElem, settledWord_getElem]
  unfold settledCycle settledWord
  cases d.cycles[k] with
  | none => rfl
  | some c =>
    have hyoung : d.settle.young { c with running := c.running && d.young c } = d.young c := rfl
    simp only [Option.map_some, hyoung]
    cases c.running <;> cases d.young c <;> rfl

theorem Device.settledCycle_settle (d : Device) (k : Fin 16) : d.settle.settledCycle k = d.settledCycle k := by
  unfold settledCycle
  rw [settledCycle_getElem]
  unfold settledCycle
  cases d.cycles[k] with
  | none => rfl
  | some c =>
    have hyoung : d.settle.young { c with running := c.running && d.young c } = d.young c := rfl
    simp only [Option.map_some, hyoung, Bool.and_assoc, Bool.and_self]

theorem Device.settle_settle (d : Device) : d.settle.settle = d.settle := by
  have heeprom : d.settle.settledWord = d.settledWord := funext d.settledWord_settle
  have hcycles : d.settle.settledCycle = d.settledCycle := funext d.settledCycle_settle
  rw [settle, heeprom, hcycles]
  rfl

/-! ### Age -/

theorem Device.youngAt_of_some {d : Device} {k : Fin 16} {c : WriteCycle} (h : d.cycles[k] = some c) :
    d.youngAt k = decide (d.now < c.issuedAt + d.minMs) := by
  rw [youngAt, h]
  rfl

theorem Device.youngAt_advance_of_some {d : Device} {k : Fin 16} {c : WriteCycle} (h : d.cycles[k] = some c) (ms : Nat) :
    (d.advance ms).youngAt k = decide (d.now + ms < c.issuedAt + d.minMs) := by
  rw [advance, settle_youngAt]
  exact youngAt_of_some (d := { d with now := d.now + ms }) h

/-- A cycle that is not young stays so. -/
theorem Device.youngAt_advance_eq_false {d : Device} {k : Fin 16} (h : d.youngAt k = false) (ms : Nat) :
    (d.advance ms).youngAt k = false := by
  cases hc : d.cycles[k] with
  | none => rw [advance, settle_youngAt, youngAt, hc]
  | some c =>
    rw [youngAt_of_some hc, decide_eq_false_iff_not] at h
    rw [youngAt_advance_of_some hc, decide_eq_false_iff_not]
    omega

/-! ### Words whose cycle is stopped -/

/-- No write cycle runs on word `k`. -/
def Device.StoppedAt (d : Device) (k : Fin 16) : Prop := ∀ c, d.cycles[k] = some c → c.running = false

theorem Device.StoppedAt.advance {d : Device} {k : Fin 16} (h : d.StoppedAt k) (ms : Nat) :
    (d.advance ms).eeprom[k] = d.eeprom[k] := by
  rw [Device.advance, settledWord_getElem]
  exact settledWord_of_stopped _ k h

theorem Device.arrive_stoppedAt (d : Device) (draw : DeviceDraw) (k : Fin 16) : (d.arrive draw).StoppedAt k := by
  intro c hc
  rw [show (d.arrive draw).cycles[k] = _ from d.arrive_cycles_getElem draw k k.isLt] at hc
  obtain ⟨c', -, rfl⟩ := Option.map_eq_some_iff.1 hc
  rfl

theorem Device.arrive_eeprom_of_young {d : Device} {k : Fin 16} (h : d.youngAt k = true) (draw : DeviceDraw) :
    (d.arrive draw).eeprom[k] = draw.cells[k] :=
  (d.arrive_eeprom_getElem draw k k.isLt).trans (if_pos h)

theorem Device.arrive_eeprom_of_quiet {d : Device} (h : DutyQuiet d) (draw : DeviceDraw) (k : Fin 16) :
    (d.arrive draw).eeprom[k] = d.eeprom[k] := by
  have hk : ¬ d.youngAt k = true := by simp [d.anyYoung_eq_false.1 h.1 k]
  exact (d.arrive_eeprom_getElem draw k k.isLt).trans ((if_neg hk).trans (settledWord_eq_of_quiet h k))

theorem eeprom_ext {d e : Device} (h : ∀ k : Fin 16, d.eeprom[k] = e.eeprom[k]) : d.eeprom = e.eeprom :=
  Vector.ext fun k hk => h ⟨k, hk⟩

/-! ### A cycle just begun -/

@[simp] theorem Device.beginCycle_now (d : Device) (r : Byte) (v : Word) (draw : DeviceDraw) :
    (d.beginCycle r v draw).now = d.now := rfl

@[simp] theorem Device.beginCycle_minMs (d : Device) (r : Byte) (v : Word) (draw : DeviceDraw) :
    (d.beginCycle r v draw).minMs = d.minMs := rfl

theorem Device.beginCycle_cycles_self (d : Device) (r : Byte) (v : Word) (draw : DeviceDraw) :
    ∃ c, (d.beginCycle r v draw).cycles[cellIndex r] = some c ∧ c.value = v ∧ c.issuedAt = d.askedAt := by
  rw [beginCycle, settledCycle_getElem, settledCycle]
  simp

theorem Device.beginCycle_cycles_ne {d : Device} {r : Byte} {k : Fin 16} (hk : cellIndex r ≠ k) (v : Word)
    (draw : DeviceDraw) : (d.beginCycle r v draw).cycles[k] = d.settledCycle k := by
  have hk' : (cellIndex r).val ≠ k.val := fun h => hk (Fin.ext h)
  rw [beginCycle, settledCycle_getElem, settledCycle, settledCycle]
  simp [Vector.getElem_set_ne _ _ hk']
  rfl

theorem Device.beginCycle_stoppedAt_ne {d : Device} {r : Byte} {k : Fin 16} (hk : cellIndex r ≠ k) (h : d.StoppedAt k)
    (v : Word) (draw : DeviceDraw) : (d.beginCycle r v draw).StoppedAt k := by
  intro c hc
  rw [beginCycle_cycles_ne hk, settledCycle] at hc
  obtain ⟨c', hc', rfl⟩ := Option.map_eq_some_iff.1 hc
  simp [h c' hc']

theorem Device.beginCycle_eeprom_ne {d : Device} {r : Byte} {k : Fin 16} (hk : cellIndex r ≠ k) (h : d.StoppedAt k)
    (v : Word) (draw : DeviceDraw) : (d.beginCycle r v draw).eeprom[k] = d.eeprom[k] :=
  (d.beginCycle_eeprom_getElem r v draw k k.isLt fun e => hk (Fin.ext e)).trans (d.settledWord_of_stopped k h)

/-! ### The reaction to a request -/

/-- A request is a good write of EEPROM register `r`: a write-word frame to it with its right PEC (rule R71). -/
def GoodWrite (q : BusRequest) (r l h : Byte) : Prop :=
  inEeprom r = true ∧ ∃ a, q = .write a [r, l, h, pec8 [addrW a, r, l, h]]

/-- Any request arrives, and beside that only a good write begins a cycle. -/
theorem Device.react_device (d : Device) (q : BusRequest) (draw : DeviceDraw) :
    (d.react q draw).2 = d.arrive draw ∨
      ∃ r l h, GoodWrite q r l h ∧ (d.react q draw).2 = (d.arrive draw).beginCycle r (Machine.word l h) draw := by
  unfold react
  split
  · exact .inl rfl
  · rename_i a r l h p
    by_cases hgood : inEeprom r = true ∧ p = pec8 [addrW a, r, l, h]
    · obtain ⟨hr, rfl⟩ := hgood
      exact .inr ⟨r, l, h, ⟨hr, a, rfl⟩, by simp [writeFrame, hr]⟩
    · refine .inl ?_
      simp only [writeFrame, Bool.and_eq_true, beq_iff_eq]
      exact if_neg hgood
  · exact .inl rfl
  · exact .inl rfl

/-- The block's own write frame to an EEPROM register is a good write. -/
theorem Device.react_writeRequest {r : Byte} (hr : inEeprom r = true) (d : Device) (a : BusAddr) (v : Word)
    (draw : DeviceDraw) :
    d.react (writeRequest a r v) draw = (draw.writeAnswer, (d.arrive draw).beginCycle r v draw) := by
  simp [react, writeRequest, writePayload, writeCovered, writeFrame, hr]

theorem Device.react_readRequest (d : Device) (a : BusAddr) (r : Byte) (n : Nat) (draw : DeviceDraw) :
    d.react (.writeRead a [r] n) draw = ((d.arrive draw).readAnswer a r draw, d.arrive draw) := rfl

theorem Device.readAnswer_of_quiet {d : Device} {r : Byte} (hyoung : d.anyYoung = false) (hr : inEeprom r = true)
    (a : BusAddr) (draw : DeviceDraw) :
    d.readAnswer a r draw = readAnswerOf (d.word r) (pec8 (readCovered a r (lo8 (d.word r)) (hi8 (d.word r)))) := by
  simp [readAnswer, hyoung, hr]

theorem Device.arrive_word_of_quiet {d : Device} (h : DutyQuiet d) (draw : DeviceDraw) (r : Byte) :
    (d.arrive draw).word r = d.word r := arrive_eeprom_of_quiet h draw (cellIndex r)

/-- What arrives at a quiet device and begins no cycle leaves every word, at once and after any time. -/
theorem Device.arrive_eeprom_kept {d : Device} (h : DutyQuiet d) (draw : DeviceDraw) :
    (d.arrive draw).eeprom = d.eeprom ∧ ∀ ms, ((d.arrive draw).advance ms).eeprom = d.eeprom :=
  ⟨eeprom_ext (arrive_eeprom_of_quiet h draw), fun ms =>
    eeprom_ext fun k => ((d.arrive_stoppedAt draw k).advance ms).trans (arrive_eeprom_of_quiet h draw k)⟩

/-- Settles O44: a quiet device's words outlive the arrival, and neither request begins a cycle. -/
theorem quietDeviceAnswersItsWord : Obligations.QuietDeviceAnswersItsWord := by
  refine ⟨fun d a r n draw hq hr => ?read, fun d a r l h p draw hq hp => ?write⟩
  case read =>
    refine ⟨?_, Device.arrive_eeprom_kept hq draw⟩
    rw [Device.react_readRequest, Device.readAnswer_of_quiet ((d.arrive_anyYoung draw).trans hq.1) hr,
      Device.arrive_word_of_quiet hq]
    rfl
  case write =>
    rcases d.react_device (.write a [r, l, h, p]) draw with hd | ⟨r', l', h', ⟨-, a', hgood⟩, -⟩
    · rw [hd]
      exact Device.arrive_eeprom_kept hq draw
    · cases hgood
      exact absurd rfl hp

/-- A word that was disturbed keeps the draw while no good write of it begins a new cycle. -/
theorem Device.react_disturbed {d : Device} {q : BusRequest} {draw : DeviceDraw} {k : Fin 16} (hyoung : d.youngAt k = true)
    (hq : ∀ r l h, GoodWrite q r l h → cellIndex r ≠ k) :
    (d.react q draw).2.eeprom[k] = draw.cells[k] ∧ ∀ ms, ((d.react q draw).2.advance ms).eeprom[k] = draw.cells[k] := by
  have hdraw := arrive_eeprom_of_young hyoung draw
  have hstopped := d.arrive_stoppedAt draw k
  rcases d.react_device q draw with hd | ⟨r, l, h, hgood, hd⟩ <;> rw [hd]
  · exact ⟨hdraw, fun ms => (hstopped.advance ms).trans hdraw⟩
  · have hk := hq r l h hgood
    have hword := (beginCycle_eeprom_ne hk hstopped (Machine.word l h) draw).trans hdraw
    exact ⟨hword, fun ms => ((beginCycle_stoppedAt_ne hk hstopped _ draw).advance ms).trans hword⟩

/-- Settles O45: the draw at the arrival, and, when the request is a good write of the word, the cycle that begins from it. -/
theorem disturbedWordIsAnyValue : Obligations.DisturbedWordIsAnyValue := by
  refine ⟨fun d q draw k c hc hyoung hq => ?disturbed, fun d a r v draw c hr hc hyoung hstable => ?rewritten,
    fun d a r v draw ms hq hr hv hw hstable hms => ?overwritten⟩
  case disturbed =>
    refine Device.react_disturbed (by rw [Device.youngAt_of_some hc, decide_eq_true hyoung]) fun r l h hgood => ?_
    obtain ⟨hr, a, ha⟩ := hgood
    exact hq a r l h _ ha hr rfl
  case rewritten =>
    have hdraw : (d.arrive draw).word r = draw.cells[cellIndex r] :=
      Device.arrive_eeprom_of_young (by rw [Device.youngAt_of_some hc, decide_eq_true hyoung]) draw
    rw [Device.react_writeRequest hr]
    refine ⟨fun hnew => ?_, fun ms hms => ?_⟩
    · rw [Device.beginCycle_word_self (d.arrive draw) r v draw (by simpa using hnew), hdraw]
    · rw [Device.beginCycle_advance_word (d.arrive draw) r v draw ms (by simpa using hms), Device.cycleOutcome, hdraw,
        hstable, Option.getD_none]
  case overwritten =>
    rw [Device.react_writeRequest hr, Device.beginCycle_advance_word (d.arrive draw) r v draw ms (by simpa using hms),
      Device.cycleOutcome, Device.arrive_word_of_quiet hq, hstable, Option.getD_none, if_neg hv, if_neg hw]

end Sys2Proof.Machine
end

section
/-! SUPPORT. A write from its `Issue` to its answer by the device model (20_memory.md section 7, R69 and R71). -/

namespace Sys2Proof.Machine

open Sys2Proof.Safety

/-! ### A write cycle's record -/

theorem blockAnswer_sim {r : BusAnswer} {s s' : State} (h : blockAnswer r s = .next s') : s'.sim = s.sim := by
  rcases blockAnswer_next h with ⟨_, _, -, -, -, rfl⟩ | ⟨_, _, _, rfl, -⟩ | ⟨_, _, _, rfl, -⟩ <;> rfl

/-- The block has a write frame's answer to wait for: in a WRITE_WORD or in a write of the sequence. -/
def AwaitsWrite (s : State) : Prop :=
  (s.st = .regAccess ∧ ∃ reg val chk, s.cmd = some (.writeWord reg val chk)) ∨
    ((s.st = .erasing ∨ s.st = .writing) ∧ ∃ d, s.desc = some d)

theorem writeWordAnswer_answers (r : BusAnswer) (s : State) : ∃ s', writeWordAnswer r s = .next s' := by
  cases r <;> exact ⟨_, rfl⟩

theorem sequenceWriteAnswer_answers {s : State} {d : EepromDescriptor} (hd : s.desc = some d) (T : CtrlState)
    (r : BusAnswer) : ∃ s', sequenceWriteAnswer T r s = .next s' := by
  cases r with
  | ok bs => exact ⟨_, sequenceWriteAnswer_ok hd bs⟩
  | busError e => exact ⟨_, rfl⟩

theorem AwaitsWrite.answers {s : State} (h : AwaitsWrite s) (r : BusAnswer) : ∃ s', blockAnswer r s = .next s' := by
  rcases h with ⟨hs, reg, val, chk, hc⟩ | ⟨hs | hs, d, hd⟩
  · simp only [blockAnswer, hs, regAccessAnswer, hc]
    exact writeWordAnswer_answers r s
  · simp only [blockAnswer, hs]
    exact sequenceWriteAnswer_answers hd _ r
  · simp only [blockAnswer, hs]
    exact sequenceWriteAnswer_answers hd _ r

/-- After the block's turn has issued a write frame it waits for the answer, and the device has noted the time. -/
theorem blockTurn_issued_write {s t : State} {r : Byte} {v : Word} (hp : s.pending = none) (h : blockTurn s = .next t)
    (hq : t.pending = some (writeRequest s.cfg.busAddress r v)) : AwaitsWrite t ∧ t.sim = notedIssue s.sim := by
  rcases blockTurn_next h with rfl | ⟨-, ⟨reg, chk, hs, hc, rfl⟩ | ⟨reg, val, chk, hs, hc, rfl⟩ | ⟨d, hs, hd, rfl⟩ |
    ⟨d, hs, hd, rfl⟩ | ⟨d, hs, hd, rfl⟩⟩
  · simp [hp] at hq
  · cases hq
  · exact ⟨.inl ⟨hs, reg, val, chk, hc⟩, rfl⟩
  · exact ⟨.inr ⟨.inl hs, d, hd⟩, rfl⟩
  · exact ⟨.inr ⟨.inr hs, d, hd⟩, rfl⟩
  · cases hq

theorem transportTurn_of_reply {s : State} {q : BusRequest} {rep : Reply} {rest : List Reply} (hp : s.pending = some q)
    (hr : s.replies = rep :: rest) :
    transportTurn s = blockAnswer (rep.answer q s.sim).1 (s.delivered q rep rest) := by
  rw [transportTurn, hp, hr]
  rfl

/-- Settles O46: the `Issue` notes the time, a tick leaves that note, and the cycle that begins at the answer takes it. -/
theorem writeCycleCountsFromItsIssue : Obligations.WriteCycleCountsFromItsIssue := by
  intro s t d r v k draw rest hsim hp hr hturn hq hrep
  obtain ⟨hwaits, htsim⟩ := blockTurn_issued_write hp hturn hq
  let u : State := { t with sim := t.sim.map fun d => d.advance k }
  let d1 : Device := ({ d with askedAt := d.now } : Device).advance k
  have husim : u.sim = some d1 := by
    simp only [u, htsim, hsim, notedIssue, Option.map_some, d1]
  let q := writeRequest s.cfg.busAddress r v
  obtain ⟨w, hw⟩ := AwaitsWrite.answers (s := u.delivered q (.device draw) rest) hwaits ((Reply.device draw).answer q u.sim).1
  have hturn : transportTurn u = .next w := (transportTurn_of_reply (s := u) hq hrep).trans hw
  obtain ⟨c, hc, hvalue, hissued⟩ := (d1.arrive draw).beginCycle_cycles_self r v draw
  refine ⟨u, w, (d1.arrive draw).beginCycle r v draw, c, rfl, hturn, ?_, rfl, hc, hvalue, hissued⟩
  have hwsim : w.sim = ((Reply.device draw).answer q u.sim).2 := blockAnswer_sim hw
  rw [hwsim, husim, Reply.answer, Device.react_writeRequest hr]

end Sys2Proof.Machine
end

section
/-! SUPPORT. A whole EEPROM_WRITE (42_eeprom_writer.md section 3): the states its named turns pass through when every answer is good. -/

namespace Sys2Proof.Machine

open Sys2Proof.Safety

/-! ### The turns of the sequence -/

theorem run_succ {k : Nat} {s t : State} (h : step s = .next t) :
    Host.Core.run core (k + 1) s = Host.Core.run core k t := by
  simp only [Host.Core.run, core, h]

theorem step_of_turn {s : State} {turn : Turn} {rest : List Turn} (h : s.turns = turn :: rest) :
    step s = agentTurn turn { s with turns := rest } := by
  rw [step, h]

/-- `s` after a write of `v` to the descriptor's register was issued and answered by `rep`, and the delay `T` has begun. -/
def State.writeTurns (s : State) (d : EepromDescriptor) (v : Word) (T : CtrlState) (rep : Reply) (rest : List Reply)
    (turns : List Turn) : State :=
  ((raWriteIssue d.reg v { s with turns := turns }).delivered (writeRequest s.cfg.busAddress d.reg v) rep rest).startWait T
    d.delayMs

/-- `s` after the erase and its delay. -/
def State.erased (s : State) (d : EepromDescriptor) (rep : Reply) (rest : List Reply) (turns : List Turn) : State :=
  { (s.writeTurns d eraseValue .awaitEraseDelay rep rest turns).elapsed with st := .writing }

/-- `s` after the write of the new value and its delay, with what the descriptor asks for next. -/
def State.written (s : State) (d : EepromDescriptor) (rep : Reply) (rest : List Reply) (turns : List Turn) : State :=
  if d.verify then { (s.writeTurns d d.newVal .awaitWriteDelay rep rest turns).elapsed with st := .verifying }
  else finishOk (s.writeTurns d d.newVal .awaitWriteDelay rep rest turns).elapsed

/-- `s` after a verify read that gave the new value. -/
def State.verified (s : State) (d : EepromDescriptor) (rep : Reply) (rest : List Reply) (turns : List Turn) : State :=
  finishOk (((raReadIssue d.reg { s with turns := turns }).delivered (readRequest s.cfg.busAddress d.reg) rep rest).withRead
    d.reg (lo8 d.newVal) (hi8 d.newVal) (pec8 (readCovered s.cfg.busAddress d.reg (lo8 d.newVal) (hi8 d.newVal))))

/-- The state in which the sequence writes `v`, with the delay that follows. -/
def WritesIn (s : State) (d : EepromDescriptor) (v : Word) (T : CtrlState) : Prop :=
  (s.st = .erasing ∧ v = eraseValue ∧ T = .awaitEraseDelay) ∨ (s.st = .writing ∧ v = d.newVal ∧ T = .awaitWriteDelay)

theorem blockTurn_of_writesIn {s : State} {d : EepromDescriptor} {v : Word} {T : CtrlState} (h : WritesIn s d v T)
    (hp : s.pending = none) (hd : s.desc = some d) : blockTurn s = .next (raWriteIssue d.reg v s) := by
  rcases h with ⟨hs, rfl, -⟩ | ⟨hs, rfl, -⟩
  · exact blockTurn_erasing hp hs hd
  · exact blockTurn_writing hp hs hd

theorem blockAnswer_of_writesIn {s : State} {d : EepromDescriptor} {v : Word} {T : CtrlState} (h : WritesIn s d v T)
    (hd : s.desc = some d) : blockAnswer (.ok []) s = .next (s.startWait T d.delayMs) := by
  rcases h with ⟨hs, -, rfl⟩ | ⟨hs, -, rfl⟩ <;>
    simpa only [blockAnswer, hs] using sequenceWriteAnswer_ok hd []

/-- The block's and the transport's turn of a write that is answered `Ok`. -/
theorem run_write {k : Nat} {s : State} {d : EepromDescriptor} {v : Word} {T : CtrlState} {rep : Reply}
    {rest : List Reply} {turns : List Turn} (h : WritesIn s d v T) (hp : s.pending = none) (hd : s.desc = some d)
    (hturns : s.turns = .block :: .transport :: turns) (hr : s.replies = rep :: rest)
    (hok : (rep.answer (writeRequest s.cfg.busAddress d.reg v) (notedIssue s.sim)).1 = .ok []) :
    Host.Core.run core (k + 2) s = Host.Core.run core k (s.writeTurns d v T rep rest turns) := by
  let t := raWriteIssue d.reg v { s with turns := .transport :: turns }
  let t' := raWriteIssue d.reg v { s with turns := turns }
  let q := writeRequest s.cfg.busAddress d.reg v
  have hissue : step s = .next t := (step_of_turn hturns).trans
    (blockTurn_of_writesIn (s := { s with turns := .transport :: turns }) h hp hd)
  have hdelivered : transportTurn t' = blockAnswer (.ok []) (t'.delivered q rep rest) :=
    (transportTurn_of_reply (s := t') rfl hr).trans (congrArg (blockAnswer · (t'.delivered q rep rest)) hok)
  have hanswer : step t = .next (s.writeTurns d v T rep rest turns) :=
    (step_of_turn (turn := .transport) (rest := turns) rfl).trans
    (hdelivered.trans (blockAnswer_of_writesIn (s := t'.delivered q rep rest) h hd))
  rw [run_succ hissue, run_succ hanswer]

/-- The three turns of the erase. -/
theorem run_erase {k : Nat} {s : State} {d : EepromDescriptor} {rep : Reply} {rest : List Reply} {turns : List Turn}
    (hs : s.st = .erasing) (hp : s.pending = none) (hd : s.desc = some d)
    (hturns : s.turns = .block :: .transport :: .timer :: turns) (hr : s.replies = rep :: rest)
    (hok : (rep.answer (writeRequest s.cfg.busAddress d.reg eraseValue) (notedIssue s.sim)).1 = .ok []) :
    Host.Core.run core (k + 3) s = Host.Core.run core k (s.erased d rep rest turns) := by
  have helapsed : step (s.writeTurns d eraseValue .awaitEraseDelay rep rest (.timer :: turns)) =
      .next (s.erased d rep rest turns) :=
    (step_of_turn (turn := .timer) (rest := turns) rfl).trans
    (timerTurn_awaitEraseDelay (s := s.writeTurns d eraseValue .awaitEraseDelay rep rest turns) rfl rfl)
  rw [run_write (.inl ⟨hs, rfl, rfl⟩) hp hd hturns hr hok, run_succ helapsed]

/-- The three turns of the write of the new value. -/
theorem run_newValue {k : Nat} {s : State} {d : EepromDescriptor} {rep : Reply} {rest : List Reply} {turns : List Turn}
    (hs : s.st = .writing) (hp : s.pending = none) (hd : s.desc = some d)
    (hturns : s.turns = .block :: .transport :: .timer :: turns) (hr : s.replies = rep :: rest)
    (hok : (rep.answer (writeRequest s.cfg.busAddress d.reg d.newVal) (notedIssue s.sim)).1 = .ok []) :
    Host.Core.run core (k + 3) s = Host.Core.run core k (s.written d rep rest turns) := by
  have helapsed : step (s.writeTurns d d.newVal .awaitWriteDelay rep rest (.timer :: turns)) =
      .next (s.written d rep rest turns) :=
    (step_of_turn (turn := .timer) (rest := turns) rfl).trans
    (timerTurn_awaitWriteDelay (s := s.writeTurns d d.newVal .awaitWriteDelay rep rest turns) rfl rfl hd)
  rw [run_write (.inr ⟨hs, rfl, rfl⟩) hp hd hturns hr hok, run_succ helapsed]

/-- `s` after both writes and their delays. -/
def State.sequenced (s : State) (d : EepromDescriptor) (rep1 rep2 : Reply) (rest : List Reply) (turns : List Turn) : State :=
  (s.erased d rep1 (rep2 :: rest) (.block :: .transport :: .timer :: turns)).written d rep2 rest turns

/-- The device after the erase and its delay. -/
def State.erasedSim (s : State) (d : EepromDescriptor) (rep : Reply) : Option Device :=
  (rep.answer (writeRequest s.cfg.busAddress d.reg eraseValue) (notedIssue s.sim)).2.map
    fun dev => dev.advance d.delayMs.toNat

theorem erased_sim (s : State) (d : EepromDescriptor) (rep : Reply) (rest : List Reply) (turns : List Turn) :
    (s.erased d rep rest turns).sim = s.erasedSim d rep := rfl

/-- The six turns of the two writes. -/
theorem run_writes {k : Nat} {s : State} {d : EepromDescriptor} {rep1 rep2 : Reply} {rest : List Reply}
    {turns : List Turn} (hs : s.st = .erasing) (hp : s.pending = none) (hd : s.desc = some d)
    (hturns : s.turns = .block :: .transport :: .timer :: .block :: .transport :: .timer :: turns)
    (hr : s.replies = rep1 :: rep2 :: rest)
    (hok1 : (rep1.answer (writeRequest s.cfg.busAddress d.reg eraseValue) (notedIssue s.sim)).1 = .ok [])
    (hok2 : (rep2.answer (writeRequest s.cfg.busAddress d.reg d.newVal) (notedIssue (s.erasedSim d rep1))).1 = .ok []) :
    Host.Core.run core (k + 6) s = Host.Core.run core k (s.sequenced d rep1 rep2 rest turns) := by
  let e := s.erased d rep1 (rep2 :: rest) (.block :: .transport :: .timer :: turns)
  have herase : Host.Core.run core (k + 6) s = Host.Core.run core (k + 3) e := run_erase (k := k + 3) hs hp hd hturns hr hok1
  have hwrite : Host.Core.run core (k + 3) e = Host.Core.run core k (e.written d rep2 rest turns) :=
    run_newValue rfl rfl hd rfl rfl hok2
  rw [herase, hwrite]
  rfl

theorem verifyingAnswer_good {s : State} {d : EepromDescriptor} (hd : s.desc = some d) :
    verifyingAnswer (verifyingAnswerOf s.cfg.busAddress d) s =
      .next (finishOk (s.withRead d.reg (lo8 d.newVal) (hi8 d.newVal)
        (pec8 (readCovered s.cfg.busAddress d.reg (lo8 d.newVal) (hi8 d.newVal))))) := by
  rw [verifyingAnswerOf, verifyingAnswer_threeBytes hd, word_lo8_hi8]
  simp

/-- The two turns of a verify read that gives the new value. -/
theorem run_verify {k : Nat} {s : State} {d : EepromDescriptor} {rep : Reply} {rest : List Reply} {turns : List Turn}
    (hs : s.st = .verifying) (hp : s.pending = none) (hd : s.desc = some d)
    (hturns : s.turns = .block :: .transport :: turns) (hr : s.replies = rep :: rest)
    (hgood : (rep.answer (readRequest s.cfg.busAddress d.reg) (notedIssue s.sim)).1 =
      verifyingAnswerOf s.cfg.busAddress d) :
    Host.Core.run core (k + 2) s = Host.Core.run core k (s.verified d rep rest turns) := by
  let t := raReadIssue d.reg { s with turns := .transport :: turns }
  let t' := raReadIssue d.reg { s with turns := turns }
  let q := readRequest s.cfg.busAddress d.reg
  let u := t'.delivered q rep rest
  have hissue : step s = .next t := (step_of_turn hturns).trans
    (blockTurn_verifying (s := { s with turns := .transport :: turns }) hp hs hd)
  have hdelivered : transportTurn t' = blockAnswer (verifyingAnswerOf s.cfg.busAddress d) u :=
    (transportTurn_of_reply (s := t') rfl hr).trans (congrArg (blockAnswer · u) hgood)
  have hverify : blockAnswer (verifyingAnswerOf s.cfg.busAddress d) u =
      verifyingAnswer (verifyingAnswerOf s.cfg.busAddress d) u := by
    have hu : u.st = .verifying := hs
    rw [blockAnswer, hu]
  have hanswer : step t = .next (s.verified d rep rest turns) :=
    (step_of_turn (turn := .transport) (rest := turns) rfl).trans
    (hdelivered.trans (hverify.trans (verifyingAnswer_good (s := u) hd)))
  rw [run_succ hissue, run_succ hanswer]

/-- The eight turns of the two writes and the verify read. -/
theorem run_verifiedWrites {s : State} {d : EepromDescriptor} {rep1 rep2 rep3 : Reply} {rest : List Reply}
    {turns : List Turn} (hs : s.st = .erasing) (hp : s.pending = none) (hd : s.desc = some d) (hv : d.verify = true)
    (hturns : s.turns = eepromTurns true ++ turns) (hr : s.replies = rep1 :: rep2 :: rep3 :: rest)
    (hok1 : (rep1.answer (writeRequest s.cfg.busAddress d.reg eraseValue) (notedIssue s.sim)).1 = .ok [])
    (hok2 : (rep2.answer (writeRequest s.cfg.busAddress d.reg d.newVal) (notedIssue (s.erasedSim d rep1))).1 = .ok [])
    (hgood : (rep3.answer (readRequest s.cfg.busAddress d.reg)
      (notedIssue (s.sequenced d rep1 rep2 (rep3 :: rest) (.block :: .transport :: turns)).sim)).1 =
      verifyingAnswerOf s.cfg.busAddress d) :
    Host.Core.run core 8 s =
      .next ((s.sequenced d rep1 rep2 (rep3 :: rest) (.block :: .transport :: turns)).verified d rep3 rest turns) := by
  let e := s.erased d rep1 (rep2 :: rep3 :: rest) (.block :: .transport :: .timer :: .block :: .transport :: turns)
  let w := e.writeTurns d d.newVal .awaitWriteDelay rep2 (rep3 :: rest) (.block :: .transport :: turns)
  have hw : s.sequenced d rep1 rep2 (rep3 :: rest) (.block :: .transport :: turns) =
      { w.elapsed with st := .verifying } := if_pos hv
  have hwrites := run_writes (k := 2) (turns := .block :: .transport :: turns) hs hp hd hturns hr hok1 hok2
  rw [hw] at hgood hwrites ⊢
  rw [hwrites]
  exact run_verify (k := 0) (s := { w.elapsed with st := .verifying }) rfl rfl hd rfl rfl hgood

/-! ### What the turns leave behind -/

/-- What no turn of a sequence changes. -/
def HostSideKept (s t : State) : Prop :=
  t.cfg = s.cfg ∧ t.hostIn = s.hostIn ∧ t.resultLog = s.resultLog ∧ t.refused = s.refused

theorem HostSideKept.trans {s t u : State} (h : HostSideKept s t) (h' : HostSideKept t u) : HostSideKept s u := by
  obtain ⟨hcfg, hin, hlog, hmark⟩ := h
  obtain ⟨hcfg', hin', hlog', hmark'⟩ := h'
  exact ⟨hcfg'.trans hcfg, hin'.trans hin, hlog'.trans hlog, hmark'.trans hmark⟩

theorem writeTurns_kept (s : State) (d : EepromDescriptor) (v : Word) (T : CtrlState) (rep : Reply) (rest : List Reply)
    (turns : List Turn) : HostSideKept s (s.writeTurns d v T rep rest turns) := ⟨rfl, rfl, rfl, rfl⟩

theorem erased_kept (s : State) (d : EepromDescriptor) (rep : Reply) (rest : List Reply) (turns : List Turn) :
    HostSideKept s (s.erased d rep rest turns) := writeTurns_kept s d eraseValue .awaitEraseDelay rep rest turns

theorem written_kept (s : State) (d : EepromDescriptor) (rep : Reply) (rest : List Reply) (turns : List Turn) :
    HostSideKept s (s.written d rep rest turns) := by
  have hkept := writeTurns_kept s d d.newVal .awaitWriteDelay rep rest turns
  unfold State.written
  split <;> exact hkept

theorem sequenced_kept (s : State) (d : EepromDescriptor) (rep1 rep2 : Reply) (rest : List Reply) (turns : List Turn) :
    HostSideKept s (s.sequenced d rep1 rep2 rest turns) := (erased_kept ..).trans (written_kept ..)

theorem verified_kept (s : State) (d : EepromDescriptor) (rep : Reply) (rest : List Reply) (turns : List Turn) :
    HostSideKept s (s.verified d rep rest turns) := ⟨rfl, rfl, rfl, rfl⟩

/-- A write of the sequence and its delay put their four events into the history. -/
theorem writeTurns_elapsed_hist (s : State) (d : EepromDescriptor) (v : Word) (T : CtrlState) (rep : Reply)
    (rest : List Reply) (turns : List Turn) :
    (s.writeTurns d v T rep rest turns).elapsed.hist =
      s.hist ++ (asked (writeRequest s.cfg.busAddress d.reg v)
        (rep.answer (writeRequest s.cfg.busAddress d.reg v) (notedIssue s.sim)).1 ++ waited d.delayMs) := by
  simp [State.writeTurns, State.elapsed, State.delivered, raWriteIssue, asked, waited, notedIssue]

theorem written_hist (s : State) (d : EepromDescriptor) (rep : Reply) (rest : List Reply) (turns : List Turn) :
    (s.written d rep rest turns).hist = (s.writeTurns d d.newVal .awaitWriteDelay rep rest turns).elapsed.hist := by
  unfold State.written
  split <;> rfl

theorem sequenced_hist {s : State} {d : EepromDescriptor} {rep1 rep2 : Reply}
    (hok1 : (rep1.answer (writeRequest s.cfg.busAddress d.reg eraseValue) (notedIssue s.sim)).1 = .ok [])
    (hok2 : (rep2.answer (writeRequest s.cfg.busAddress d.reg d.newVal) (notedIssue (s.erasedSim d rep1))).1 = .ok [])
    (rest : List Reply) (turns : List Turn) :
    (s.sequenced d rep1 rep2 rest turns).hist = s.hist ++ throughWrite s.cfg.busAddress d := by
  let e := s.erased d rep1 (rep2 :: rest) (.block :: .transport :: .timer :: turns)
  have herased : e.hist = s.hist ++ throughErase s.cfg.busAddress d := by
    have hhist := writeTurns_elapsed_hist s d eraseValue .awaitEraseDelay rep1 (rep2 :: rest)
      (.block :: .transport :: .timer :: turns)
    rw [hok1] at hhist
    exact hhist
  have hwritten := writeTurns_elapsed_hist e d d.newVal .awaitWriteDelay rep2 rest turns
  rw [(erased_kept ..).1, erased_sim, hok2, herased] at hwritten
  rw [State.sequenced, written_hist, hwritten, throughWrite, List.append_assoc, List.append_assoc]

theorem verified_hist {s : State} {d : EepromDescriptor} {rep : Reply}
    (hgood : (rep.answer (readRequest s.cfg.busAddress d.reg) (notedIssue s.sim)).1 =
      verifyingAnswerOf s.cfg.busAddress d) (rest : List Reply) (turns : List Turn) :
    (s.verified d rep rest turns).hist =
      s.hist ++ asked (readRequest s.cfg.busAddress d.reg) (verifyingAnswerOf s.cfg.busAddress d) := by
  have hhist : (s.verified d rep rest turns).hist =
      s.hist ++ [.issue (readRequest s.cfg.busAddress d.reg)] ++
        [.answer (readRequest s.cfg.busAddress d.reg)
          (rep.answer (readRequest s.cfg.busAddress d.reg) (notedIssue s.sim)).1] := rfl
  rw [hhist, hgood, List.append_assoc]
  rfl

/-! ### The descriptor -/

/-- The descriptor that the acceptance of EEPROM_WRITE writes. -/
def acceptedJob (s : State) (reg : Byte) (val : Word) (verify : Bool) : EepromDescriptor :=
  { reg := reg, prev := none, newVal := val, delayMs := s.cfg.writeTimeMs, verify := verify }

/-- The state after the acceptance of EEPROM_WRITE. -/
def State.accepted (s : State) (reg : Byte) (val : Word) (verify : Bool) : State :=
  { s with
    cmd := some (.eepromWrite reg val verify)
    desc := some (acceptedJob s reg val verify)
    st := .erasing }

theorem exec_eepromWrite_accepted {s : State} {reg : Byte} (hs : s.st = .idle) (hreg : inEeprom reg = true) (val : Word)
    (verify : Bool) : exec (.eepromWrite reg val verify) s = .next (s.accepted reg val verify) :=
  (exec_eepromWrite_of_idle hs).trans (congrArg _ (if_pos hreg))

/-- Settles O28: the turns one after the other, each answer good. -/
theorem eepromWriteSucceedsWithItsHistory : Obligations.EepromWriteSucceedsWithItsHistory := by
  intro reg val verify s b1 b2 turns rest hs hp ht hlo hhi a P0 P1 p E W V good hturns hr
  have hexec := exec_eepromWrite_accepted hs ((inEeprom_iff reg).2 ⟨hlo, hhi⟩) val verify
  let t := s.accepted reg val verify
  let d := acceptedJob s reg val verify
  have hok1 : ((Reply.given (.ok b1)).answer (writeRequest a reg eraseValue) (notedIssue t.sim)).1 = .ok [] := rfl
  have hok2 : ((Reply.given (.ok b2)).answer (writeRequest a reg val)
    (notedIssue (t.erasedSim d (.given (.ok b1))))).1 = .ok [] := rfl
  refine ⟨t, ?_⟩
  cases verify with
  | false =>
    have hrun := run_writes (k := 0) (s := t) (d := d) rfl hp rfl hturns hr hok1 hok2
    obtain ⟨hcfg, hin, hlog, hmark⟩ := sequenced_kept t d (.given (.ok b1)) (.given (.ok b2)) rest turns
    refine ⟨_, hexec, hrun, rfl, rfl, rfl, rfl, rfl, rfl, hcfg, hin, hlog, hmark, ?_⟩
    rw [sequenced_hist hok1 hok2]
    exact (List.append_nil _).symm
  | true =>
    let w := t.sequenced d (.given (.ok b1)) (.given (.ok b2)) (.given good :: rest) (.block :: .transport :: turns)
    have hgood : ((Reply.given good).answer (readRequest w.cfg.busAddress reg) (notedIssue w.sim)).1 =
      verifyingAnswerOf w.cfg.busAddress d := rfl
    have hrun := run_verifiedWrites (s := t) (d := d) rfl hp rfl rfl hturns hr hok1 hok2 hgood
    obtain ⟨hcfg, hin, hlog, hmark⟩ := (sequenced_kept t d (.given (.ok b1)) (.given (.ok b2)) (.given good :: rest)
      (.block :: .transport :: turns)).trans (verified_kept w d (.given good) rest turns)
    refine ⟨_, hexec, hrun, rfl, rfl, rfl, rfl, rfl, rfl, hcfg, hin, hlog, hmark, ?_⟩
    have hhist := verified_hist (s := w) (d := d) hgood rest turns
    rw [sequenced_hist hok1 hok2] at hhist
    exact hhist

end Sys2Proof.Machine
end

section
/-! SUPPORT. An EEPROM_WRITE on the device model (20_memory.md section 7, 70_reset_and_hazards.md section 3), with the host's duties kept:
each write finds a quiet device and its delay leaves one. -/

namespace Sys2Proof.Machine

open Sys2Proof.Safety

/-- The device with its time noted at an `Issue`. -/
def Device.noted (d : Device) : Device := { d with askedAt := d.now }

@[simp] theorem Device.noted_now (d : Device) : d.noted.now = d.now := rfl

@[simp] theorem Device.noted_askedAt (d : Device) : d.noted.askedAt = d.now := rfl

@[simp] theorem Device.noted_minMs (d : Device) : d.noted.minMs = d.minMs := rfl

/-- The device after a write of `v` to `r`, answered at once, and `ms` milliseconds. -/
def Device.writtenFor (d : Device) (a : BusAddr) (r : Byte) (v : Word) (draw : DeviceDraw) (ms : Nat) : Device :=
  (d.noted.react (writeRequest a r v) draw).2.advance ms

@[simp] theorem Device.writtenFor_minMs {r : Byte} (hr : inEeprom r = true) (d : Device) (a : BusAddr) (v : Word)
    (draw : DeviceDraw) (ms : Nat) : (d.writtenFor a r v draw ms).minMs = d.minMs := by
  rw [writtenFor, react_writeRequest hr, advance_minMs, beginCycle_minMs, arrive_minMs, noted_minMs]

theorem Device.noted_quiet {d : Device} (h : DutyQuiet d) : DutyQuiet d.noted :=
  ⟨h.1, congrArg Device.noted h.2⟩

theorem Device.beginCycle_youngAt_ne {d : Device} {r : Byte} {k : Fin 16} (hk : cellIndex r ≠ k) (v : Word)
    (draw : DeviceDraw) : (d.beginCycle r v draw).youngAt k = d.youngAt k := by
  unfold youngAt
  rw [beginCycle_cycles_ne hk, settledCycle]
  cases d.cycles[k] <;> rfl

/-- The delay ends the cycle, and no other runs: the device is quiet again (rules R251 and R252). -/
theorem Device.writtenFor_quiet {d : Device} {r : Byte} {ms : Nat} (hq : DutyQuiet d) (hr : inEeprom r = true)
    (hms : d.minMs ≤ ms) (a : BusAddr) (v : Word) (draw : DeviceDraw) : DutyQuiet (d.writtenFor a r v draw ms) := by
  rw [writtenFor, react_writeRequest hr]
  refine ⟨(anyYoung_eq_false _).2 fun k => ?_, settle_settle _⟩
  by_cases hk : cellIndex r = k
  · subst hk
    obtain ⟨c, hc, -, hissued⟩ := (d.noted.arrive draw).beginCycle_cycles_self r v draw
    rw [youngAt_advance_of_some hc, hissued, decide_eq_false_iff_not]
    simpa using hms
  · refine youngAt_advance_eq_false ?_ ms
    rw [beginCycle_youngAt_ne hk, arrive_youngAt]
    exact (anyYoung_eq_false _).1 (noted_quiet hq).1 k

theorem Device.writtenFor_word_self {d : Device} {r : Byte} {ms : Nat} {draw : DeviceDraw} (hq : DutyQuiet d)
    (hr : inEeprom r = true) (hms : d.minMs ≤ ms) (hstable : draw.unstable = none) (a : BusAddr) (v : Word) :
    (d.writtenFor a r v draw ms).word r = if v = 0 then 0 else if d.word r = 0 then v else draw.overwritten := by
  have hage : (d.noted.arrive draw).askedAt + (d.noted.arrive draw).minMs ≤ (d.noted.arrive draw).now + ms := by
    simpa using hms
  rw [writtenFor, react_writeRequest hr, beginCycle_advance_word _ r v draw ms hage, cycleOutcome,
    arrive_word_of_quiet (noted_quiet hq), hstable]
  rfl

theorem Device.writtenFor_word_ne {d : Device} {r : Byte} {k : Fin 16} (hq : DutyQuiet d) (hr : inEeprom r = true)
    (hk : cellIndex r ≠ k) (a : BusAddr) (v : Word) (draw : DeviceDraw) (ms : Nat) :
    (d.writtenFor a r v draw ms).eeprom[k] = d.eeprom[k] := by
  have hstopped := d.noted.arrive_stoppedAt draw k
  rw [writtenFor, react_writeRequest hr, (beginCycle_stoppedAt_ne hk hstopped v draw).advance,
    beginCycle_eeprom_ne hk hstopped]
  exact arrive_eeprom_of_quiet (noted_quiet hq) draw k

/-- After an erase and a write of `v` the word holds `v`. -/
theorem Device.word_erased_written {d : Device} {r : Byte} {ms : Nat} {draw1 draw2 : DeviceDraw} (hq : DutyQuiet d)
    (hr : inEeprom r = true) (hms : d.minMs ≤ ms) (hstable1 : draw1.unstable = none) (hstable2 : draw2.unstable = none)
    (a : BusAddr) (v : Word) :
    ((d.writtenFor a r eraseValue draw1 ms).writtenFor a r v draw2 ms).word r = v := by
  have herased : (d.writtenFor a r eraseValue draw1 ms).word r = 0 :=
    (writtenFor_word_self hq hr hms hstable1 a eraseValue).trans (if_pos rfl)
  rw [writtenFor_word_self (writtenFor_quiet hq hr hms a eraseValue draw1) hr (by rwa [writtenFor_minMs hr]) hstable2,
    herased, if_pos rfl, ite_eq_right_iff]
  exact Eq.symm

/-! ### The answers -/

theorem device_answers_write {draw : DeviceDraw} {r : Byte} (hr : inEeprom r = true) (hbus : draw.busError = none)
    (a : BusAddr) (v : Word) (d : Device) : ((Reply.device draw).answer (writeRequest a r v) (some d)).1 = .ok [] := by
  simp only [Reply.answer, Device.react_writeRequest hr, DeviceDraw.writeAnswer, hbus]
  rfl

theorem device_answers_read {r : Byte} (hr : inEeprom r = true) {d : Device} (hq : DutyQuiet d) (a : BusAddr)
    (draw : DeviceDraw) :
    ((Reply.device draw).answer (readRequest a r) (some d)).1 =
      .ok [lo8 (d.word r), hi8 (d.word r), pec8 (readCovered a r (lo8 (d.word r)) (hi8 (d.word r)))] := by
  have hyoung := (d.arrive_anyYoung draw).trans hq.1
  rw [Reply.answer, BusAnswer.fit_read, readRequest, Device.react_readRequest, Device.readAnswer_of_quiet hyoung hr,
    Device.arrive_word_of_quiet hq]
  rfl

theorem erasedSim_device {s : State} {d : Device} (hsim : s.sim = some d) (job : EepromDescriptor) (draw : DeviceDraw) :
    s.erasedSim job (.device draw) =
      some (d.writtenFor s.cfg.busAddress job.reg eraseValue draw job.delayMs.toNat) := by
  rw [State.erasedSim, hsim]
  rfl

theorem written_sim {s : State} {d : Device} (hsim : s.sim = some d) (job : EepromDescriptor) (draw : DeviceDraw)
    (rest : List Reply) (turns : List Turn) :
    (s.written job (.device draw) rest turns).sim =
      some (d.writtenFor s.cfg.busAddress job.reg job.newVal draw job.delayMs.toNat) := by
  have helapsed : (s.writeTurns job job.newVal .awaitWriteDelay (.device draw) rest turns).elapsed.sim =
      ((Reply.device draw).answer (writeRequest s.cfg.busAddress job.reg job.newVal) (notedIssue s.sim)).2.map
        fun d => d.advance job.delayMs.toNat := rfl
  rw [hsim] at helapsed
  unfold State.written
  split <;> exact helapsed

theorem sequenced_sim {s : State} {d : Device} (hsim : s.sim = some d) (job : EepromDescriptor) (draw1 draw2 : DeviceDraw)
    (rest : List Reply) (turns : List Turn) :
    (s.sequenced job (.device draw1) (.device draw2) rest turns).sim =
      some ((d.writtenFor s.cfg.busAddress job.reg eraseValue draw1 job.delayMs.toNat).writtenFor s.cfg.busAddress job.reg
        job.newVal draw2 job.delayMs.toNat) :=
  written_sim (erasedSim_device hsim job draw1) job draw2 rest turns

theorem verified_sim {s : State} {d : Device} (hsim : s.sim = some d) (job : EepromDescriptor) (draw : DeviceDraw)
    (rest : List Reply) (turns : List Turn) :
    (s.verified job (.device draw) rest turns).sim = some (d.noted.arrive draw) := by
  have hverified : (s.verified job (.device draw) rest turns).sim =
      ((Reply.device draw).answer (readRequest s.cfg.busAddress job.reg) (notedIssue s.sim)).2 := rfl
  rw [hverified, hsim]
  rfl

theorem cellIndex_val (r : Byte) : (cellIndex r).val = r.toNat % 16 := by
  simp [cellIndex]

/-- The EEPROM registers have each their own word. -/
theorem cellIndex_ne {r r' : Byte} (hr : inEeprom r = true) (hr' : inEeprom r' = true) (hne : r ≠ r') :
    cellIndex r ≠ cellIndex r' := by
  intro h
  have hval := congrArg Fin.val h
  rw [cellIndex_val, cellIndex_val] at hval
  obtain ⟨hlo, hhi⟩ := (inEeprom_iff r).1 hr
  obtain ⟨hlo', hhi'⟩ := (inEeprom_iff r').1 hr'
  exact hne (BitVec.eq_of_toNat_eq (by omega))

/-- Settles O43: the erase finds a quiet device and leaves zero, the write finds that and leaves the value, and the verify read answers
it. -/
theorem eepromWriteStoresTheWord : Obligations.EepromWriteStoresTheWord := by
  intro reg val s d draw1 draw2 draw3 turns rest hs hp ht hlo hhi hsim hdelay hquiet hbus1 hbus2 hstable1 hstable2 hturns hr
  have hreg : inEeprom reg = true := (inEeprom_iff reg).2 ⟨hlo, hhi⟩
  let a := s.cfg.busAddress
  let ms := s.cfg.writeTimeMs.toNat
  let job := acceptedJob s reg val true
  let t := s.accepted reg val true
  let d1 := d.writtenFor a reg eraseValue draw1 ms
  let d2 := d1.writtenFor a reg val draw2 ms
  let w := t.sequenced job (.device draw1) (.device draw2) (.device draw3 :: rest) (.block :: .transport :: turns)
  have hquiet1 : DutyQuiet d1 := Device.writtenFor_quiet hquiet hreg hdelay a eraseValue draw1
  have hquiet2 : DutyQuiet d2 :=
    Device.writtenFor_quiet hquiet1 hreg (by rwa [Device.writtenFor_minMs hreg]) a val draw2
  have hword : d2.word reg = val := Device.word_erased_written hquiet hreg hdelay hstable1 hstable2 a val
  have hwsim : w.sim = some d2 := sequenced_sim (s := t) hsim job draw1 draw2 _ _
  have hok1 : ((Reply.device draw1).answer (writeRequest a reg eraseValue) (notedIssue t.sim)).1 = .ok [] := by
    rw [show t.sim = some d from hsim]
    exact device_answers_write hreg hbus1 a eraseValue d.noted
  have hok2 : ((Reply.device draw2).answer (writeRequest a reg val)
      (notedIssue (t.erasedSim job (.device draw1)))).1 = .ok [] := by
    rw [erasedSim_device (s := t) hsim]
    exact device_answers_write hreg hbus2 a val d1.noted
  have hgood : ((Reply.device draw3).answer (readRequest a reg) (notedIssue w.sim)).1 = verifyingAnswerOf a job := by
    have hread := device_answers_read hreg (Device.noted_quiet hquiet2) a draw3
    rw [show d2.noted.word reg = val from hword] at hread
    rw [hwsim]
    exact hread
  have hrun := run_verifiedWrites (s := t) (d := job) rfl hp rfl rfl hturns hr hok1 hok2 hgood
  have hend (r : Byte) : (d2.noted.arrive draw3).word r = d2.word r :=
    Device.arrive_word_of_quiet (Device.noted_quiet hquiet2) draw3 r
  refine ⟨t, _, d2.noted.arrive draw3, exec_eepromWrite_accepted hs hreg val true, hrun, rfl, rfl,
    verified_sim hwsim job draw3 rest turns, (hend reg).trans hword, fun r hr hne => ?_⟩
  have hcell : cellIndex reg ≠ cellIndex r := cellIndex_ne hreg hr hne.symm
  calc (d2.noted.arrive draw3).word r = d2.word r := hend r
    _ = d1.word r := Device.writtenFor_word_ne hquiet1 hreg hcell a val draw2 ms
    _ = d.word r := Device.writtenFor_word_ne hquiet hreg hcell a eraseValue draw1 ms

end Sys2Proof.Machine
end

section
/-! SUPPORT. RMW_FIELD (30_encoding.md section 4): the merge, and when the host writes it back. -/

namespace Sys2Proof.Machine

theorem rmwMerge_getLsbD {k : Nat} (hk : k < 16) (w mask bits : Word) :
    (rmwMerge w mask bits).getLsbD k = if mask.getLsbD k then bits.getLsbD k else w.getLsbD k := by
  simp only [BitVec.getLsbD_eq_getElem hk]
  cases hm : mask[k] <;> simp [rmwMerge, hm]

/-- Settles O47: bit by bit for the merge; the second command is made from the value of a result that is `ok`. -/
theorem rmwFieldMergesUnderTheMask : Obligations.RmwFieldMergesUnderTheMask := by
  refine ⟨fun w mask bits k hk => rmwMerge_getLsbD hk w mask bits, fun reg mask bits w y => rfl,
    fun reg mask bits y r hr => ?_⟩
  rw [rmwSecond, if_neg hr]
  rfl

end Sys2Proof.Machine
end
